-- ==== Sys2Proof/Word.lean ====
section
/-! DEFINITION. The word types of HTB (00_scope.md R8, R10; 30_encoding.md R84, R91). Every integer of the block is
unsigned; bit 0 is the least significant. -/

namespace Sys2Proof

/-- A command word or a response word (R84, R91). -/
abbrev Word := BitVec 64

/-- The payload of a response word, bits 55 to 0 (R91). -/
abbrev Payload := BitVec 56

/-- A symbol, in the 21 bits its field has in a command word (R86); a legal one is below `2 ^ SYM_W` (R6). -/
abbrev Symbol := BitVec 21

end Sys2Proof
end

