-- ==== Sys2Proof/Config.lean ====
section
/-! DEFINITION. The implementation parameters of HTB (00_scope.md R6) and the one parameter the spec leaves open
(92_eei_decisions.md D26). -/

namespace Sys2Proof

/-- The parameters of R6. `NODE_CAP` is derived, see `Config.nodeCap`. -/
structure Config where
  /-- `SYM_W`: width of a symbol value, 1 to 21. -/
  symW : Nat
  /-- `FREQ_W`: width of every frequency, 1 to 32. -/
  freqW : Nat
  /-- `MAX_LEAVES`: greatest number of leaves of one tree, 1 to min(2 ^ SYM_W, 1024). -/
  maxLeaves : Nat
  /-- `CNT_W`: width of the counters `cursor` and `emit_cnt`, 1 to 56. -/
  cntW : Nat
  deriving DecidableEq, Repr

/-- `NODE_CAP`, the number of entries of the node memory (R6). -/
def Config.nodeCap (c : Config) : Nat := 2 * c.maxLeaves - 1

/-- The first value a symbol may not take (R6, R86). -/
def Config.symLimit (c : Config) : Nat := 2 ^ c.symW

/-- The first value a frequency may not take (R6, R7, R86). -/
def Config.freqLimit (c : Config) : Nat := 2 ^ c.freqW

/-- The greatest value of `cursor` and `emit_cnt` (R136). -/
def Config.cntMax (c : Config) : Nat := 2 ^ c.cntW - 1

/-- The legal ranges of R6. -/
abbrev Config.Legal (c : Config) : Prop :=
  (1 ≤ c.symW ∧ c.symW ≤ 21) ∧ (1 ≤ c.freqW ∧ c.freqW ≤ 32) ∧
  (1 ≤ c.maxLeaves ∧ c.maxLeaves ≤ 2 ^ c.symW ∧ c.maxLeaves ≤ 1024) ∧ (1 ≤ c.cntW ∧ c.cntW ≤ 56)

/-- The reference configuration of R6. -/
def Config.reference : Config := { symW := 8, freqW := 8, maxLeaves := 256, cntW := 32 }

/-- `WORD_TRANSPORT`, OPEN in D26: the byte or beat order of a 64-bit word on a narrower bus outside the block, as the
pieces it travels in, first piece first, each the list of its bits. DESIGN CHOICE: the spec gives the parameter no form;
this one leaves the number of pieces, their widths and the order of the bits in each open (log entry 12). It has no body,
so nothing fixes it, and nothing of the model reads it (20_memory.md R65). -/
opaque Config.wordTransport : Word → List (List Bool)

end Sys2Proof
end

