-- ==== Sys2Proof/Syntax.lean ====
section
/-! DEFINITION. The commands of HTB (30_encoding.md R85), their operands (R86), and the refusal causes by which a word
or a command can be turned away (60_exceptions.md R207). -/

namespace Sys2Proof

/-- The nine read-only status registers (10_state.md R44). -/
inductive StatusReg where
  /-- Register 0, `CONFIG` (R45). -/
  | config
  /-- Register 1, `STATUS` (R46). -/
  | status
  /-- Register 2, `NNODES` (R47). -/
  | nNodes
  /-- Register 3, `NLEAVES` (R48). -/
  | nLeaves
  /-- Register 4, `PQLEN` (R49). -/
  | pqLen
  /-- Register 5, `ROOT` (R50). -/
  | root
  /-- Register 6, `CUR` (R51). -/
  | cur
  /-- Register 7, `CURSOR` (R52). -/
  | cursor
  /-- Register 8, `EMITCNT` (R53). -/
  | emitCnt
  deriving DecidableEq, Repr

/-- The eight commands (R85), one constructor per row of the opcode table. -/
inductive Instr where
  /-- `CLEAR` (R151). -/
  | clear
  /-- `PUSH_LEAF sym, freq` (R111). -/
  | pushLeaf (sym : Symbol) (freq : BitVec 32)
  /-- `BUILD` (R115). -/
  | build
  /-- `DEC_START` (R132). -/
  | decStart
  /-- `DEC_BIT b` (R133); `false` is the digit 0 and `true` the digit 1 (R131). -/
  | decBit (b : Bool)
  /-- `DEC_END` (R137). -/
  | decEnd
  /-- `RD_REG n` (R152). -/
  | rdReg (n : StatusReg)
  /-- `RD_NODE i` (R153); the whole field is the index. -/
  | rdNode (i : BitVec 32)
  deriving DecidableEq, Repr

/-- The refusal causes of R207. -/
inductive Cause where
  /-- Code 1: the opcode is not assigned (R88). -/
  | illegalOpcode
  /-- Code 2: a must-be-zero field is nonzero, or a static range check fails (R87). -/
  | badOperand
  /-- Code 3: the command is not admitted in the present phase (R43). -/
  | badPhase
  /-- Code 4: `PUSH_LEAF` of a symbol already pushed (R112). -/
  | dupSymbol
  /-- Code 5: `PUSH_LEAF` when `MAX_LEAVES` leaves are there (R112). -/
  | capacity
  /-- Code 6: `DEC_BIT` when `cursor` is at its greatest value (R136). -/
  | limit
  /-- Code 7: `RD_NODE` of an entry that holds no record (R153). -/
  | unwritten
  deriving DecidableEq, Repr

end Sys2Proof
end

