-- ==== Sys2Proof/WellFormed.lean ====
section
/-! DEFINITION. The static range checks on operands (30_encoding.md R86): what a decoded command always satisfies. -/

namespace Sys2Proof

/-- The operands of a command pass the static range checks of R86. The check `n ≤ 8` of `RD_REG` is in the type
`StatusReg`; `RD_NODE` has no static range check. -/
def Instr.WellFormed (c : Config) : Instr → Bool
  | .pushLeaf sym freq => decide (sym.toNat < c.symLimit) && decide (freq.toNat < c.freqLimit)
  | .clear => true
  | .build => true
  | .decStart => true
  | .decBit _ => true
  | .decEnd => true
  | .rdReg _ => true
  | .rdNode _ => true

end Sys2Proof
end

