-- ==== Sys2Proof/Decode.lean ====
section
/-! DEFINITION. The static decode of command words (30_encoding.md R84 to R88, R100), total on all 2^64 words (R83),
and after it the encoder. -/

namespace Sys2Proof

/-- `op`, bits 63 to 56 (R84). -/
def opField (w : Word) : BitVec 8 := w.extractLsb' 56 8

/-- `A`, bits 55 to 32 (R84). -/
def aField (w : Word) : BitVec 24 := w.extractLsb' 32 24

/-- `B`, bits 31 to 0 (R84). -/
def bField (w : Word) : BitVec 32 := w.extractLsb' 0 32

/-- `A[20:0]`, the symbol operand (R86). -/
def symOperand (w : Word) : Symbol := (aField w).extractLsb' 0 21

/-- `A[23:21]`, must be zero in `PUSH_LEAF` (R86). -/
def symReserved (w : Word) : BitVec 3 := (aField w).extractLsb' 21 3

/-- `B[0]`, the bit operand (R86). -/
def bitOperand (w : Word) : Bool := (bField w).getLsbD 0

/-- `B[31:1]`, must be zero in `DEC_BIT` (R86). -/
def bitReserved (w : Word) : BitVec 31 := (bField w).extractLsb' 1 31

/-- The number of a status register (10_state.md R44 to R53). -/
def StatusReg.number : StatusReg → BitVec 32
  | .config => 0
  | .status => 1
  | .nNodes => 2
  | .nLeaves => 3
  | .pqLen => 4
  | .root => 5
  | .cur => 6
  | .cursor => 7
  | .emitCnt => 8

/-- The register a number names; 9 and above name none (R44, R152). -/
def statusRegOf (n : BitVec 32) : Option StatusReg :=
  match n.toNat with
  | 0 => some .config
  | 1 => some .status
  | 2 => some .nNodes
  | 3 => some .nLeaves
  | 4 => some .pqLen
  | 5 => some .root
  | 6 => some .cur
  | 7 => some .cursor
  | 8 => some .emitCnt
  | _ => none

/-- A command without operands: `A` and `B` must be zero (R86, R87). -/
def decodeBare (i : Instr) (w : Word) : Except Cause Instr :=
  if aField w ≠ 0 ∨ bField w ≠ 0 then .error .badOperand else .ok i

/-- `PUSH_LEAF` (R86, R100). -/
def decodePushLeaf (c : Config) (w : Word) : Except Cause Instr :=
  if symReserved w ≠ 0 ∨ c.symLimit ≤ (symOperand w).toNat ∨ c.freqLimit ≤ (bField w).toNat then
    .error .badOperand
  else .ok (.pushLeaf (symOperand w) (bField w))

/-- `DEC_BIT` (R86, R100). -/
def decodeDecBit (w : Word) : Except Cause Instr :=
  if aField w ≠ 0 ∨ bitReserved w ≠ 0 then .error .badOperand else .ok (.decBit (bitOperand w))

/-- `RD_REG` (R86, R100). -/
def decodeRdReg (w : Word) : Except Cause Instr :=
  if aField w ≠ 0 then .error .badOperand
  else match statusRegOf (bField w) with
    | some r => .ok (.rdReg r)
    | none => .error .badOperand

/-- `RD_NODE` (R86, R100). -/
def decodeRdNode (w : Word) : Except Cause Instr :=
  if aField w ≠ 0 then .error .badOperand else .ok (.rdNode (bField w))

/-- The complete static decode of R100: a command, or the cause of the refusal. -/
def decode (c : Config) (w : Word) : Except Cause Instr :=
  match (opField w).toNat with
  | 0x01 => decodeBare .clear w
  | 0x02 => decodePushLeaf c w
  | 0x03 => decodeBare .build w
  | 0x04 => decodeBare .decStart w
  | 0x05 => decodeDecBit w
  | 0x06 => decodeBare .decEnd w
  | 0x07 => decodeRdReg w
  | 0x08 => decodeRdNode w
  | _ => .error .illegalOpcode

/-- The word `op ++ A ++ B` (R84). -/
def packWord (op : BitVec 8) (a : BitVec 24) (b : BitVec 32) : Word := op ++ a ++ b

/-- The opcode of a command (R85). -/
def Instr.opcode : Instr → BitVec 8
  | .clear => 0x01
  | .pushLeaf _ _ => 0x02
  | .build => 0x03
  | .decStart => 0x04
  | .decBit _ => 0x05
  | .decEnd => 0x06
  | .rdReg _ => 0x07
  | .rdNode _ => 0x08

/-- The word of a command (R84 to R86). -/
def encode : Instr → Word
  | .clear => packWord 0x01 0 0
  | .pushLeaf sym freq => packWord 0x02 (sym.setWidth 24) freq
  | .build => packWord 0x03 0 0
  | .decStart => packWord 0x04 0 0
  | .decBit b => packWord 0x05 0 (if b then 1 else 0)
  | .decEnd => packWord 0x06 0 0
  | .rdReg n => packWord 0x07 0 n.number
  | .rdNode i => packWord 0x08 0 i

/-- The 64-bit command word whose low `nbits` bits are those of `w`, every bit above them zero. -/
def tableWord (nbits w : Nat) : Word := BitVec.ofNat 64 (w % 2 ^ nbits)

/-- The command the decoder reads from a word numbered as the opcode table numbers it, in the reference
configuration; `none` where the word is refused. -/
def decodeTableWord (nbits w : Nat) : Option Instr :=
  match decode Config.reference (tableWord nbits w) with
  | .ok i => some i
  | .error _ => none

end Sys2Proof
end

