-- ==== Sys2Proof/Machine/State.lean ====
section
/-! DEFINITION. The state of HTB (10_state.md R20, 30_encoding.md R80 to R82) as plain data, with the host's side of the
port beside it, and the reset state (10_state.md R54). -/

namespace Sys2Proof.Machine

/-- The block's mode (R21). -/
inductive Phase where
  /-- Code 0: the host is presenting the frequency map. -/
  | collect
  /-- Code 1: the tree is complete, the decoder is idle. -/
  | built
  /-- Code 2: a decode session is open. -/
  | decoding
  /-- Code 3: a fault is recorded. -/
  | failed
  deriving DecidableEq, Repr

/-- The fault codes of 60_exceptions.md R201. -/
inductive FaultCode where
  /-- Code 1 (R202). -/
  | invalidInput
  /-- Code 2 (R203). -/
  | corruptData
  /-- Code 3 (R204). -/
  | freqOverflow
  deriving DecidableEq, Repr

/-- A node record (R24): frequencies are exact naturals below `2 ^ FREQ_W`, children are node indices. -/
inductive NodeRec where
  /-- `Leaf(sym, freq)`, tag 0. -/
  | leaf (sym : Symbol) (freq : Nat)
  /-- `Internal(freq, left, right)`, tag 1. -/
  | internal (freq left right : Nat)
  deriving DecidableEq, Repr

/-- The node memory: the written records in index order, entry `i` the record written at index `i`. An entry at or past
the end holds no value (R25, R64). This form is canonical: equal memories are equal lists. -/
abbrev Memory := List NodeRec

/-- The response channel (30_encoding.md R81, R82). -/
inductive Channel where
  /-- No command in execution, no response pending: `cmd_ready = 1`. -/
  | idle
  /-- A command was accepted and its response is not offered yet: `cmd_ready = 0`, `rsp_valid = 0`. -/
  | executing (rsp : Word)
  /-- The response is offered: `cmd_ready = 0`, `rsp_valid = 1`, `rsp` the word. -/
  | offered (rsp : Word)
  deriving DecidableEq, Repr

/-- What the host does next at the port (00_scope.md R12, 70_reset_and_hazards.md R230, R241). -/
inductive HostEvent where
  /-- It presents a command word. -/
  | command (w : Word)
  /-- It asserts `rst` between commands. -/
  | reset
  deriving DecidableEq, Repr

/-- The state: the parameters, the tuple of R20, the response channel, and the host's side of the port. -/
structure State where
  /-- The parameters of R6; no step changes them (R42; log entry 1). -/
  cfg : Config
  /-- `phase` (R21). -/
  phase : Phase
  /-- `err`; `none` is `NONE` (R22). -/
  err : Option FaultCode
  /-- `rfs`: a command was refused since reset or `CLEAR` (R23). -/
  rfs : Bool
  /-- `rcause`; `none` is 0 (R23). -/
  rcause : Option Cause
  /-- `node[]` (R24, R25); its length is `n_nodes`, see `State.nNodes`. -/
  node : Memory
  /-- `n_leaves` (R26). -/
  nLeaves : Nat
  /-- `pq`, a set of node indices held as the strictly rising list of its members (R29). -/
  pq : List Nat
  /-- `root_valid` (R33). -/
  rootValid : Bool
  /-- `root` (R33). -/
  root : Nat
  /-- `cur` (R34). -/
  cur : Nat
  /-- `cursor` (R35). -/
  cursor : Nat
  /-- `emit_cnt` (R36). -/
  emitCnt : Nat
  /-- The response channel (R81, R82). -/
  channel : Channel
  /-- The host's side: what it will still do, oldest first (log entry 3). -/
  inbox : List HostEvent
  /-- The host's side: the response words transferred so far, oldest first (R90; log entry 3). -/
  outbox : List Word
  deriving DecidableEq, Repr

/-- Why the model stops. No state that a run reaches stops (log entry 7). -/
inductive Fault where
  /-- A rule would read the record at an index that holds none. Raised by `BUILD` and `DEC_BIT`, only in states that
  break the invariants R27 and R34. Safe: the spec says no rule performs such a read (R64). -/
  | unwrittenNode (i : Nat)
  /-- A rule would take a child of a Leaf, which has none (R9). Raised by `DEC_BIT`, only in states that break the
  invariant R34. Safe: the spec gives such a read no value. -/
  | leafHasNoChild (i : Nat)
  deriving DecidableEq, Repr

/-- Why the model gives an instruction no meaning. -/
inductive Refusal where
  /-- The instruction has no meaning in the model yet. Raised by no arm of `exec`: every command is modelled. Safe. -/
  | notModelled (mnemonic : String)
  deriving DecidableEq, Repr

/-- The state after reset in a given configuration (R54, R230); the host has nothing to do and has received nothing
(log entry 3). -/
def State.resetIn (c : Config) : State where
  cfg := c
  phase := .collect
  err := none
  rfs := false
  rcause := none
  node := []
  nLeaves := 0
  pq := []
  rootValid := false
  root := 0
  cur := 0
  cursor := 0
  emitCnt := 0
  channel := .idle
  inbox := []
  outbox := []

/-- The machine right after reset (R54), in the reference configuration of R6 (log entry 2). -/
def State.reset : State := State.resetIn Config.reference

end Sys2Proof.Machine
end

