-- ==== Sys2Proof/Machine/Operands.lean ====
section
/-! DEFINITION. The forms in which values enter and leave the block: code numbers (10_state.md R46, 60_exceptions.md
R201, R207), the response word (30_encoding.md R91 to R95), the node record layout (R96), and the reverse of each for
the host that reads them. -/

namespace Sys2Proof.Machine

/-- `phase` as `STATUS` shows it (R20, R46). -/
def Phase.code : Phase → BitVec 3
  | .collect => 0
  | .built => 1
  | .decoding => 2
  | .failed => 3

/-- The code of a fault (R201). -/
def FaultCode.code : FaultCode → BitVec 4
  | .invalidInput => 1
  | .corruptData => 2
  | .freqOverflow => 3

/-- `err` as `STATUS` shows it (R22, R46). -/
def errCode : Option FaultCode → BitVec 4
  | none => 0
  | some f => f.code

/-- The code of a refusal cause (R207). -/
def causeCode : Cause → BitVec 4
  | .illegalOpcode => 1
  | .badOperand => 2
  | .badPhase => 3
  | .dupSymbol => 4
  | .capacity => 5
  | .limit => 6
  | .unwritten => 7

/-- `rcause` as `STATUS` shows it (R23, R46). -/
def rcauseCode : Option Cause → BitVec 4
  | none => 0
  | some c => causeCode c

/-- The response word `kind ++ code ++ payload` (R91, R92). -/
def respWord (kind code : BitVec 4) (payload : Payload) : Word := kind ++ code ++ payload

/-- Kind 0, `OK` (R92). -/
def okWord : Word := respWord 0 0 0

/-- Kind 1, `DATA` (R92). -/
def dataWord (p : Payload) : Word := respWord 1 0 p

/-- Kind 2, `EMIT`: the symbol zero-extended (R92, R95). -/
def emitWord (sym : Symbol) : Word := respWord 2 0 (sym.setWidth 56)

/-- Kind 3, `FAULT` with the fault's code (R92, R93). -/
def faultWord (f : FaultCode) : Word := respWord 3 f.code 0

/-- Kind 4, `REFUSED` with the cause's code (R92, R94). -/
def refusedWord (c : Cause) : Word := respWord 4 (causeCode c) 0

/-- `kind`, bits 63 to 60 of a response (R91). -/
def respKind (r : Word) : BitVec 4 := r.extractLsb' 60 4

/-- `code`, bits 59 to 56 of a response (R91). -/
def respCode (r : Word) : BitVec 4 := r.extractLsb' 56 4

/-- `payload`, bits 55 to 0 of a response (R91). -/
def respPayload (r : Word) : Payload := r.extractLsb' 0 56

/-- The symbol an `EMIT` response carries, payload bits 20 to 0 (R95). -/
def respSymbol (r : Word) : Symbol := (respPayload r).extractLsb' 0 21

/-- The layout of a node record (R96): a Leaf is `0 ++ freq(32) ++ 00 ++ sym(21)`, an Internal is
`1 ++ freq(32) ++ 0 ++ left(11) ++ right(11)`. -/
def recordLayout : NodeRec → Payload
  | .leaf sym freq => (0 : BitVec 1) ++ BitVec.ofNat 32 freq ++ (0 : BitVec 2) ++ sym
  | .internal freq left right =>
    (1 : BitVec 1) ++ BitVec.ofNat 32 freq ++ (0 : BitVec 1) ++ BitVec.ofNat 11 left ++ BitVec.ofNat 11 right

/-- The record a host reads out of the payload of a `DATA` response to `RD_NODE` (R96, R154). -/
def recordOfLayout (p : Payload) : NodeRec :=
  if p.getLsbD 55 then
    .internal (p.extractLsb' 23 32).toNat (p.extractLsb' 11 11).toNat (p.extractLsb' 0 11).toNat
  else .leaf (p.extractLsb' 0 21) (p.extractLsb' 23 32).toNat

/-- `freq(i)` of a record (R9, R24). -/
def NodeRec.freq : NodeRec → Nat
  | .leaf _ f => f
  | .internal f _ _ => f

/-- `sym(i)` exists only for a Leaf (R9). -/
def NodeRec.sym? : NodeRec → Option Symbol
  | .leaf sym _ => some sym
  | .internal _ _ _ => none

/-- `tag(i) = Leaf` (R24). -/
def NodeRec.isLeaf : NodeRec → Bool
  | .leaf _ _ => true
  | .internal _ _ _ => false

/-- The children of a record, the left first: none for a Leaf, two for an Internal (R24). -/
def NodeRec.children : NodeRec → List Nat
  | .leaf _ _ => []
  | .internal _ left right => [left, right]

end Sys2Proof.Machine
end

