-- ==== Sys2Proof/Machine/Flags.lean ====
section
/-! DEFINITION. The sticky records (the refusal record of 10_state.md R23 and the fault record of R22) and the nine
status registers (R44 to R53), each a pure function of the state. -/

namespace Sys2Proof.Machine

/-- `n_nodes`, the number of records written (R25). -/
def State.nNodes (s : State) : Nat := s.node.length

/-- The refusal record after one more refusal: the first cause since reset or `CLEAR` is kept (R23). -/
def State.noteRefusal (cause : Cause) (s : State) : State :=
  if s.rfs then s else { s with rfs := true, rcause := some cause }

/-- The fault record: the code in `err`, the phase `FAILED` (R22, R206). -/
def State.noteFault (f : FaultCode) (s : State) : State :=
  { s with err := some f, phase := .failed }

/-- Register 0, `CONFIG` (R45). -/
def configReg (c : Config) : Payload :=
  (0 : BitVec 28) ++ BitVec.ofNat 6 c.cntW ++ BitVec.ofNat 11 c.maxLeaves ++ BitVec.ofNat 6 c.freqW ++
    BitVec.ofNat 5 c.symW

/-- Register 1, `STATUS` (R46). -/
def statusReg (s : State) : Payload :=
  (0 : BitVec 43) ++ rcauseCode s.rcause ++ BitVec.ofBool s.rfs ++ errCode s.err ++ BitVec.ofBool s.rootValid ++
    s.phase.code

/-- A register whose 11 low bits hold a count or an index (R47 to R51). -/
def indexReg (n : Nat) : Payload := (BitVec.ofNat 11 n).setWidth 56

/-- Register 5, `ROOT`: reads 0 while `root_valid = 0` (R33, R50). -/
def rootReg (s : State) : Payload := if s.rootValid then indexReg s.root else 0

/-- A register whose `CNT_W` low bits hold a counter (R52, R53). -/
def counterReg (c : Config) (n : Nat) : Payload := BitVec.ofNat 56 (n % 2 ^ c.cntW)

/-- `csr[n]`, the value `RD_REG n` returns (R9, R45 to R53). -/
def State.csr (s : State) : StatusReg → Payload
  | .config => configReg s.cfg
  | .status => statusReg s
  | .nNodes => indexReg s.nNodes
  | .nLeaves => indexReg s.nLeaves
  | .pqLen => indexReg s.pq.length
  | .root => rootReg s
  | .cur => indexReg s.cur
  | .cursor => counterReg s.cfg s.cursor
  | .emitCnt => counterReg s.cfg s.emitCnt

end Sys2Proof.Machine
end

