-- ==== Sys2Proof/Machine/Ops.lean ====
section
/-! DEFINITION. The named operations over the state: responding, refusing (60_exceptions.md R209), raising a fault (R206)
and leaving it (R212), reading and writing the node memory (20_memory.md R62, R64), the priority structure
(10_state.md R29 to R31), the merge step and the merge loop (40_builder_commands.md R115 to R118). -/

namespace Sys2Proof.Machine

/-- `respond`: the one response word of this command, offered on the response channel (R9, R82, R90). -/
def State.respond (r : Word) (s : State) : State := { s with channel := .offered r }

/-- `refuse(cause)`: the refusal record and the response, nothing else (R209). -/
def State.refuse (cause : Cause) (s : State) : State := (s.noteRefusal cause).respond (refusedWord cause)

/-- `raise Fault(code)`: taking an exception. `err` and `phase` are written, the response is `FAULT`, nothing is saved
anywhere and no other state is written (R206). -/
def State.raiseFault (f : FaultCode) (s : State) : State := (s.noteFault f).respond (faultWord f)

/-- Every piece of R20 at its reset value (R54): what `CLEAR` and `rst` share (R232), and the only way out of `FAILED`
(R212). The host's side and the response channel are not part of R20. -/
def State.clearAll (s : State) : State :=
  { State.resetIn s.cfg with channel := s.channel, inbox := s.inbox, outbox := s.outbox }

/-- A clock edge with `rst = 1`: the reset values, and any command in execution is abandoned without a response
(70_reset_and_hazards.md R230, R238). -/
def State.assertReset (s : State) : State := { s.clearAll with channel := .idle }

/-- `NodeRead(i)`; an entry that holds no record has no value (R64). -/
def nodeRead (m : Memory) (i : Nat) : Except Fault NodeRec :=
  match m[i]? with
  | some r => .ok r
  | none => .error (.unwrittenNode i)

/-- `NodeWrite(n_nodes, rec)` and the step of `n_nodes` that goes with it (R25, R62): the only writes there are. -/
def nodeWrite (m : Memory) (r : NodeRec) : Memory := m ++ [r]

/-- `exists k < n_nodes with sym(k) = sym` (R111, R112). -/
def hasSymbol (m : Memory) (sym : Symbol) : Bool := m.any fun r => r.sym? == some sym

/-- `pq U {i}`, the canonical form kept: the strictly rising list of the members (R29). -/
def pqInsert (i : Nat) : List Nat → List Nat
  | [] => [i]
  | j :: js => if i < j then i :: j :: js else if i = j then j :: js else j :: pqInsert i js

/-- An ordering key: frequency, then node index (R31). -/
abbrev Key := Nat × Nat

/-- The strict lexicographic order on keys, both components unsigned, ascending (R31). -/
def keyLt (a b : Key) : Bool := a.1 < b.1 || (a.1 == b.1 && a.2 < b.2)

/-- The keys of the members of a set of node indices; each member's record is read (R31, R64). -/
def keysOf (m : Memory) : List Nat → Except Fault (List Key)
  | [] => .ok []
  | i :: is =>
    match nodeRead m i with
    | .error e => .error e
    | .ok r =>
      match keysOf m is with
      | .error e => .error e
      | .ok ks => .ok ((r.freq, i) :: ks)

/-- The least of a key and the keys of a list. -/
def leastKey (k : Key) : List Key → Key
  | [] => k
  | x :: xs => leastKey (if keyLt x k then x else k) xs

/-- `PopMin(pq)`: the member with the least key, as its key, and the set without it; `none` on the empty set (R9, R31). -/
def popMin (m : Memory) (pq : List Nat) : Except Fault (Option (Key × List Nat)) :=
  match keysOf m pq with
  | .error e => .error e
  | .ok [] => .ok none
  | .ok (k :: ks) => .ok (some (leastKey k ks, pq.erase (leastKey k ks).2))

/-- How a pass of the merge loop ends. -/
inductive MergeResult where
  /-- Fewer than two members: the loop is over. -/
  | finished
  /-- The two least members were merged (R117). -/
  | merged (s : State)
  /-- Their sum does not fit `FREQ_W` bits, and nothing was written (R118). -/
  | overflow
  deriving DecidableEq, Repr

/-- One pass of the loop of R115: `MergeStep`. The first member removed is the left child, the second the right
(R116, R117); the sum is exact and is compared before anything is written (R118, R123). -/
def mergeStep (s : State) : Except Fault MergeResult :=
  match popMin s.node s.pq with
  | .error e => .error e
  | .ok none => .ok .finished
  | .ok (some (a, pq1)) =>
    match popMin s.node pq1 with
    | .error e => .error e
    | .ok none => .ok .finished
    | .ok (some (b, pq2)) =>
      if s.cfg.freqLimit ≤ a.1 + b.1 then .ok .overflow
      else .ok (.merged
        { s with node := nodeWrite s.node (.internal (a.1 + b.1) a.2 b.2), pq := pqInsert s.nNodes pq2 })

/-- How the merge loop ends, with the state it ends in. -/
inductive BuildResult where
  /-- At most one member is left (R121). -/
  | complete (s : State)
  /-- A merge step overflowed; the merges before it stand (R118). -/
  | overflow (s : State)
  deriving DecidableEq, Repr

/-- The merge loop, at most `n` passes; each merge lowers the size of `pq` by one, so its size is enough (R122). -/
def mergeLoop : Nat → State → Except Fault BuildResult
  | 0, s => .ok (.complete s)
  | n + 1, s =>
    match mergeStep s with
    | .error e => .error e
    | .ok .finished => .ok (.complete s)
    | .ok .overflow => .ok (.overflow s)
    | .ok (.merged s') => mergeLoop n s'

/-- The end of a `BUILD` that succeeds: the member left leaves `pq` and becomes the root (R121). -/
def State.publishRoot (r : Nat) (s : State) : State :=
  { s with pq := [], root := r, rootValid := true, cur := r, phase := .built }

end Sys2Proof.Machine
end

