-- ==== Sys2Proof/Machine/Builder.lean ====
section
/-! DEFINITION. The tree builder's commands (40_builder_commands.md): `PUSH_LEAF`, `BUILD`. The static decode has
succeeded before a meaning runs (R110). -/

namespace Sys2Proof.Machine

/-- The write of `PUSH_LEAF` (R113). -/
def State.insertLeaf (sym : Symbol) (freq : Nat) (s : State) : State :=
  { s with node := nodeWrite s.node (.leaf sym freq), pq := pqInsert s.nNodes s.pq, nLeaves := s.nLeaves + 1 }

/-- `PUSH_LEAF sym, freq` (R111): `BAD_PHASE`, `DUP_SYMBOL`, `CAPACITY` in that order (R112, R210), else the write of
R113. -/
def execPushLeaf (sym : Symbol) (freq : BitVec 32) (s : State) : Host.Outcome State Fault Refusal :=
  if s.phase ≠ .collect then .next (s.refuse .badPhase)
  else if hasSymbol s.node sym then .next (s.refuse .dupSymbol)
  else if s.nLeaves = s.cfg.maxLeaves then .next (s.refuse .capacity)
  else .next ((s.insertLeaf sym freq.toNat).respond okWord)

/-- `BUILD` (R115): `BAD_PHASE`; `INVALID_INPUT` on an empty `pq` (R119); the merge loop, which may end in
`FREQ_OVERFLOW` (R118); else the member left becomes the root (R120, R121). -/
def execBuild (s : State) : Host.Outcome State Fault Refusal :=
  if s.phase ≠ .collect then .next (s.refuse .badPhase)
  else
    match s.pq with
    | [] => .next (s.raiseFault .invalidInput)
    | first :: _ =>
      match mergeLoop s.pq.length s with
      | .error e => .fault e
      | .ok (.overflow t) => .next (t.raiseFault .freqOverflow)
      | .ok (.complete t) => .next ((t.publishRoot (t.pq.headD first)).respond okWord)

end Sys2Proof.Machine
end

