-- ==== Sys2Proof/Machine/Decoder.lean ====
section
/-! DEFINITION. The decoder's commands (41_decoder_commands.md): `DEC_START`, `DEC_BIT`, `DEC_END`. -/

namespace Sys2Proof.Machine

/-- `DEC_START` (R132): open a session at the root. -/
def execDecStart (s : State) : Host.Outcome State Fault Refusal :=
  if s.phase ≠ .built then .next (s.refuse .badPhase)
  else .next ({ s with cur := s.root, cursor := 0, emitCnt := 0, phase := .decoding }.respond okWord)

/-- One bit is consumed (R133, R35). -/
def State.consumeBit (s : State) : State := { s with cursor := s.cursor + 1 }

/-- A symbol is emitted; the position is the root again (R134, R135, R36). -/
def State.emit (sym : Symbol) (s : State) : State :=
  { s with emitCnt := s.emitCnt + 1, cur := s.root }.respond (emitWord sym)

/-- The walk moves to a node that is no Leaf (R135). -/
def State.moveTo (i : Nat) (s : State) : State := { s with cur := i }.respond okWord

/-- `left(i)` on the digit 0, `right(i)` on the digit 1 (R135). -/
def childOf (m : Memory) (i : Nat) (b : Bool) : Except Fault Nat :=
  match nodeRead m i with
  | .error e => .error e
  | .ok (.leaf _ _) => .error (.leafHasNoChild i)
  | .ok (.internal _ left right) => .ok (if b then right else left)

/-- The general case of R135: move from `cur` to a child, and emit if the child is a Leaf. -/
def walkBit (b : Bool) (s : State) : Host.Outcome State Fault Refusal :=
  match childOf s.node s.cur b with
  | .error e => .fault e
  | .ok nxt =>
    match nodeRead s.node nxt with
    | .error e => .fault e
    | .ok (.leaf sym _) => .next (s.consumeBit.emit sym)
    | .ok (.internal _ _ _) => .next (s.consumeBit.moveTo nxt)

/-- `DEC_BIT b` (R133): `BAD_PHASE`, `LIMIT` (R136); on a one-leaf tree the root's symbol whatever `b` is (R134); else
the walk of R135. In the one-leaf case `cur` is not written. -/
def execDecBit (b : Bool) (s : State) : Host.Outcome State Fault Refusal :=
  if s.phase ≠ .decoding then .next (s.refuse .badPhase)
  else if s.cursor = s.cfg.cntMax then .next (s.refuse .limit)
  else
    match nodeRead s.node s.root with
    | .error e => .fault e
    | .ok (.leaf sym _) =>
      .next ({ s.consumeBit with emitCnt := s.emitCnt + 1 }.respond (emitWord sym))
    | .ok (.internal _ _ _) => walkBit b s

/-- `DEC_END` (R137): `BAD_PHASE`; `CORRUPT_DATA` when the sequence ended part way down a path (R138); else the session
is closed. -/
def execDecEnd (s : State) : Host.Outcome State Fault Refusal :=
  if s.phase ≠ .decoding then .next (s.refuse .badPhase)
  else if s.cur ≠ s.root then .next (s.raiseFault .corruptData)
  else .next ({ s with phase := .built }.respond okWord)

end Sys2Proof.Machine
end

