-- ==== Sys2Proof/Machine/System.lean ====
section
/-! DEFINITION. The system commands (42_system_commands.md): `CLEAR`, `RD_REG`, `RD_NODE`. -/

namespace Sys2Proof.Machine

/-- `CLEAR` (R151): every piece of architectural state to its reset value, in every phase. -/
def execClear (s : State) : Host.Outcome State Fault Refusal := .next (s.clearAll.respond okWord)

/-- `RD_REG n` (R152): the register's value, in every phase; nothing is written. -/
def execRdReg (n : StatusReg) (s : State) : Host.Outcome State Fault Refusal :=
  .next (s.respond (dataWord (s.csr n)))

/-- `RD_NODE i` (R153): `UNWRITTEN` when `i >= n_nodes`, else the record's layout, in every phase; nothing is written. -/
def execRdNode (i : BitVec 32) (s : State) : Host.Outcome State Fault Refusal :=
  match s.node[i.toNat]? with
  | none => .next (s.refuse .unwritten)
  | some r => .next (s.respond (dataWord (recordLayout r)))

end Sys2Proof.Machine
end

