-- ==== Sys2Proof/Machine/Dispatch.lean ====
section
/-! DEFINITION. The dispatch: one arm per command. -/

namespace Sys2Proof.Machine

def exec (i : Instr) (s : State) : Host.Outcome State Fault Refusal :=
  match i with
  | .clear => Sys2Proof.Machine.execClear s
  | .pushLeaf sym freq => Sys2Proof.Machine.execPushLeaf sym freq s
  | .build => Sys2Proof.Machine.execBuild s
  | .decStart => Sys2Proof.Machine.execDecStart s
  | .decBit b => Sys2Proof.Machine.execDecBit b s
  | .decEnd => Sys2Proof.Machine.execDecEnd s
  | .rdReg n => Sys2Proof.Machine.execRdReg n s
  | .rdNode k => Sys2Proof.Machine.execRdNode k s

end Sys2Proof.Machine
end

