-- ==== Sys2Proof/Machine/Command.lean ====
section
/-! DEFINITION. A command word as the unit of execution (00_scope.md R9, R12; 30_encoding.md R90, R100): the static
decode, then the command's meaning, then the transfer of its one response word. -/

namespace Sys2Proof.Machine

/-- A command word is accepted and executed: a word that is no command is refused with its cause before anything else is
looked at (R83, R210), and any other is given the meaning of the command it decodes to (R100). The response word is
then offered on the response channel. -/
def runWord (w : Word) (s : State) : Host.Outcome State Fault Refusal :=
  match decode s.cfg w with
  | .error cause => .next (s.refuse cause)
  | .ok i => exec i s

/-- The transfer of the pending response word to the host, if there is one; the block can then accept a command again
(R81, R82, R90). -/
def State.deliver (s : State) : State :=
  match s.channel with
  | .idle => s
  | .executing r => { s with channel := .idle, outbox := s.outbox ++ [r] }
  | .offered r => { s with channel := .idle, outbox := s.outbox ++ [r] }

/-- One command from its acceptance to the transfer of its response: the step function of R12. -/
def command (w : Word) (s : State) : Host.Outcome State Fault Refusal :=
  match runWord w s with
  | .next t => .next t.deliver
  | .fault e => .fault e
  | .refused r => .refused r

/-- A sequence of command words, one after another in the order presented (R69). -/
def commands : List Word → State → Host.Outcome State Fault Refusal
  | [], s => .next s
  | w :: ws, s =>
    match command w s with
    | .next t => commands ws t
    | .fault e => .fault e
    | .refused r => .refused r

/-- What the host does next takes place. -/
def hostEvent : HostEvent → State → Host.Outcome State Fault Refusal
  | .command w, s => command w s
  | .reset, s => .next s.assertReset

/-- The block and its host go on by one event: a response still pending is transferred first, since no command is
accepted before (R81, R235); with nothing to do the block holds its state (60_exceptions.md R218). -/
def advance (s : State) : Host.Outcome State Fault Refusal :=
  match s.channel with
  | .executing _ => .next s.deliver
  | .offered _ => .next s.deliver
  | .idle =>
    match s.inbox with
    | [] => .next s
    | e :: rest => hostEvent e { s with inbox := rest }

/-- The state with a word as the very next the host presents, the channel free to accept it. -/
def State.present (w : Word) (s : State) : State :=
  { s with channel := .idle, inbox := .command w :: s.inbox }

end Sys2Proof.Machine
end

