-- ==== Sys2Proof/Machine/Step.lean ====
section
/-! DEFINITION. The step function of the machine and the placing of its next command word. -/

namespace Sys2Proof.Machine

/-- One step: the next thing the host does takes place whole, a command from its acceptance to the transfer of its
response (00_scope.md R9, R12). -/
def step (s : State) : Host.Outcome State Fault Refusal := advance s

/-- The state with the given word as the next the host presents (log entry 17). -/
def State.withFetchWord (s : State) (nbits w : Nat) : State := s.present (tableWord nbits w)

end Sys2Proof.Machine
end

