-- ==== Sys2Proof/Machine/Invariant.lean ====
section
/-! DEFINITION. What holds of every state a run reaches (10_state.md R55, with R22, R23, R26 to R30, R33, R34), the
canonical forms of the node memory and of `pq` included, and the table of admitted commands (R43). -/

namespace Sys2Proof.Machine

/-- What a record at index `i` must satisfy: its fields fit their widths (R10), and an Internal's children are two
distinct records below it whose frequencies add up to its own (R27, R28). -/
def recordWf (c : Config) (m : Memory) (i : Nat) : NodeRec → Bool
  | .leaf sym freq => decide (sym.toNat < c.symLimit) && decide (freq < c.freqLimit)
  | .internal freq left right =>
    decide (freq < c.freqLimit) && decide (left < i) && decide (right < i) && decide (left ≠ right) &&
      (match m[left]?, m[right]? with
       | some a, some b => freq == a.freq + b.freq
       | _, _ => false)

/-- The node memory's form: at most `NODE_CAP` records, each in order (R25, R27, R28). -/
abbrev Memory.wf (c : Config) (m : Memory) : Prop :=
  m.length ≤ c.nodeCap ∧ ∀ i, (h : i < m.length) → recordWf c m i m[i] = true

/-- The canonical form of a set of node indices: strictly rising (R29). -/
abbrev pqWf (pq : List Nat) : Prop := pq.Pairwise (· < ·)

/-- Every index that is some record's child, once for each time it is one. -/
def childIndices (m : Memory) : List Nat := m.flatMap NodeRec.children

/-- The symbols of the Leaf records, in index order. -/
def leafSymbols (m : Memory) : List Symbol := m.filterMap NodeRec.sym?

/-- The sum of the frequencies of the Leaf records, `S` of R124. -/
def leafSum (m : Memory) : Nat := ((m.filter NodeRec.isLeaf).map NodeRec.freq).sum

/-- The sum of the frequencies of the records at the given indices (R55 (i), R125). -/
def freqSum (m : Memory) (is : List Nat) : Nat := (is.filterMap fun i => m[i]?.map NodeRec.freq).sum

/-- The indices of the roots of the forest: the members of `pq`, or the tree's root once it is published (R55 (e)). -/
def State.forestRoots (s : State) : List Nat := if s.rootValid then s.root :: s.pq else s.pq

/-- The forest (R29, R55 (c), (d), (e), (i), R125): leaves first, with distinct symbols; every index is either the child
of exactly one record, on one side, or a root of the forest; the roots' frequencies add up to the leaves'. -/
abbrev State.ForestInv (s : State) : Prop :=
  Memory.wf s.cfg s.node ∧ pqWf s.pq ∧
  (s.nLeaves ≤ s.cfg.maxLeaves ∧ s.nLeaves ≤ s.node.length ∧ s.node.length ≤ 2 * s.nLeaves - 1) ∧
  (∀ i, (h : i < s.node.length) → (s.node[i].isLeaf = true ↔ i < s.nLeaves)) ∧
  (leafSymbols s.node).Nodup ∧
  (childIndices s.node ++ s.forestRoots).Perm (List.range s.node.length) ∧
  freqSum s.node s.forestRoots = leafSum s.node

/-- The fault and refusal records (R22, R23, R55 (a), (b)). -/
abbrev State.RecordInv (s : State) : Prop :=
  (s.err ≠ none ↔ s.phase = .failed) ∧ (s.rcause ≠ none ↔ s.rfs = true)

/-- The root (R27, R33, R55 (f)): valid in the phases that have a finished tree, and then the last record of the
`2L - 1`, `pq` being empty (R30); 0 while invalid, as are the decoder's registers (R34 to R36, R54). -/
abbrev State.RootInv (s : State) : Prop :=
  (s.rootValid = true ↔
    s.phase = .built ∨ s.phase = .decoding ∨ (s.phase = .failed ∧ s.err = some .corruptData)) ∧
  (s.rootValid = true → s.pq = [] ∧ s.node.length = 2 * s.nLeaves - 1 ∧ s.root + 1 = s.node.length ∧
    s.cur < s.node.length) ∧
  (s.rootValid = false → s.root = 0 ∧ s.cur = 0 ∧ s.cursor = 0 ∧ s.emitCnt = 0)

/-- What each phase says of the forest and of `cur` (R26, R30, R34). -/
abbrev State.PhaseInv (s : State) : Prop :=
  (s.phase = .collect → s.node.length = s.nLeaves) ∧
  (s.phase = .built → s.cur = s.root) ∧
  (s.phase = .decoding →
    (s.node[s.root]?.map NodeRec.isLeaf = some true → s.cur = s.root) ∧
    (s.node[s.root]?.map NodeRec.isLeaf = some false → s.node[s.cur]?.map NodeRec.isLeaf = some false)) ∧
  (s.err = some .invalidInput → s.node = []) ∧
  (s.err = some .freqOverflow → 2 ≤ s.pq.length) ∧
  (s.err = some .corruptData → s.cur ≠ s.root ∧ s.node[s.cur]?.map NodeRec.isLeaf = some false)

/-- The counters (R36, R55 (g)). -/
abbrev State.CounterInv (s : State) : Prop := s.emitCnt ≤ s.cursor ∧ s.cursor ≤ s.cfg.cntMax

/-- The invariant of R55, in a legal configuration (R6). -/
abbrev State.Inv (s : State) : Prop :=
  s.cfg.Legal ∧ s.ForestInv ∧ s.RecordInv ∧ s.RootInv ∧ s.PhaseInv ∧ s.CounterInv

/-- The table of R43: the command is admitted in the phase. -/
def admits : Phase → Instr → Bool
  | _, .clear => true
  | _, .rdReg _ => true
  | _, .rdNode _ => true
  | p, .pushLeaf _ _ => p == .collect
  | p, .build => p == .collect
  | p, .decStart => p == .built
  | p, .decBit _ => p == .decoding
  | p, .decEnd => p == .decoding

/-- The phases the table of R43 allows after a command that is admitted. `FAILED` comes with its fault. -/
def phaseAfter (s : State) : Instr → Phase → Option FaultCode → Bool
  | .clear, p, e => p == .collect && e == none
  | .pushLeaf _ _, p, e => p == .collect && e == s.err
  | .build, p, e =>
    if s.pq.isEmpty then p == .failed && e == some .invalidInput
    else (p == .built && e == s.err) || (p == .failed && e == some .freqOverflow)
  | .decStart, p, e => p == .decoding && e == s.err
  | .decBit _, p, e => p == .decoding && e == s.err
  | .decEnd, p, e =>
    if s.cur = s.root then p == .built && e == s.err else p == .failed && e == some .corruptData
  | .rdReg _, p, e => p == s.phase && e == s.err
  | .rdNode _, p, e => p == s.phase && e == s.err

end Sys2Proof.Machine
end

