-- ==== Sys2Proof/Machine/Port.lean ====
section
/-! DEFINITION. The ports at the granularity of clock edges (30_encoding.md R80 to R82, 70_reset_and_hazards.md R230,
R235, R238). Time itself is left open: how many edges a command takes is an input (log entry 10). -/

namespace Sys2Proof.Machine

/-- The inputs at one rising edge of `clk` (R80), and whether the command in execution is done by then, which the spec
leaves open (R82, R246). -/
structure Pins where
  /-- `rst` (R230). -/
  rst : Bool
  /-- `cmd_valid` (R81). -/
  cmdValid : Bool
  /-- `cmd` (R81). -/
  cmd : Word
  /-- `rsp_ready` (R82). -/
  rspReady : Bool
  /-- The command in execution, or the one accepted at this edge, has its response ready. -/
  done : Bool
  deriving DecidableEq, Repr

/-- The output `cmd_ready` while `rst` is at the given level (R81, R230). -/
def State.cmdReady (s : State) (rst : Bool) : Bool := !rst && decide (s.channel = .idle)

/-- The outputs `rsp_valid` and `rsp` while `rst` is at the given level: `some r` is `rsp_valid = 1` with `rsp = r`
(R82, R230). -/
def State.rspOut (s : State) (rst : Bool) : Option Word :=
  match rst, s.channel with
  | false, .offered r => some r
  | _, _ => none

/-- A command was accepted and its response is not offered yet. -/
def State.withhold (s : State) : State :=
  match s.channel with
  | .offered r => { s with channel := .executing r }
  | _ => s

/-- The response of the command in execution is offered from now on (R82). -/
def State.offer (s : State) : State :=
  match s.channel with
  | .executing r => { s with channel := .offered r }
  | _ => s

/-- The edge at which a command word is accepted (R81). Its state changes are made at this edge, which is no later than
the edge at which `rsp_valid` rises (R82; log entry 9). -/
def acceptEdge (p : Pins) (s : State) : Host.Outcome State Fault Refusal :=
  match runWord p.cmd s with
  | .next t => .next (if p.done then t else t.withhold)
  | .fault e => .fault e
  | .refused r => .refused r

/-- One rising edge of `clk` (R80 to R82, R230). -/
def edge (p : Pins) (s : State) : Host.Outcome State Fault Refusal :=
  if p.rst then .next s.assertReset
  else
    match s.channel with
    | .idle => if p.cmdValid then acceptEdge p s else .next s
    | .executing _ => .next (if p.done then s.offer else s)
    | .offered _ => .next (if p.rspReady then s.deliver else s)

/-- A sequence of rising edges. -/
def edges : List Pins → State → Host.Outcome State Fault Refusal
  | [], s => .next s
  | p :: ps, s =>
    match edge p s with
    | .next t => edges ps t
    | .fault e => .fault e
    | .refused r => .refused r

/-- The command words accepted over a sequence of edges, in order (R81). -/
def acceptedWords : List Pins → State → List Word
  | [], _ => []
  | p :: ps, s =>
    let rest := match edge p s with
      | .next t => acceptedWords ps t
      | .fault _ => []
      | .refused _ => []
    if s.cmdReady p.rst && p.cmdValid then p.cmd :: rest else rest

/-- The host's duty on the command channel between two edges: a word offered and not accepted is offered again,
unchanged (R81, R236). -/
def holdsCommand (p q : Pins) (s : State) : Bool :=
  !(p.cmdValid && !s.cmdReady p.rst) || (q.cmdValid && q.cmd == p.cmd)

end Sys2Proof.Machine
end

