-- ==== Sys2Proof/Machine/Reference.lean ====
section
/-! DEFINITION. The host-side reference functions (43_reference_functions.md R170 to R179) and the notation of command
sequences (30_encoding.md R98, R99). They are not hardware: they use the block only through its command words. -/

namespace Sys2Proof.Machine

/-- The distinct symbols of a text in the order of first occurrence (R99, R173). -/
def firstOccurrences : List Symbol → List Symbol
  | [] => []
  | s :: rest => s :: (firstOccurrences rest).filter (· ≠ s)

/-- `FrequencyCounter`: each distinct symbol once, with its count, a natural number (R171). -/
def frequencyMap (text : List Symbol) : List (Symbol × Nat) :=
  (firstOccurrences text).map fun s => (s, text.count s)

/-- The `PUSH_LEAF` that presents a symbol's count (R173). The count is a natural number, and the host compares it with
`2 ^ FREQ_W` before it pushes: a count that does not fit has no command, and is never wrapped (R172). The width is that of
the configuration given, which the host knows (log entry 22). -/
def pushCount (c : Config) (s : Symbol) (count : Nat) : Option Instr :=
  if count < c.freqLimit then some (.pushLeaf s (BitVec.ofNat 32 count)) else none

/-- The host presents the map of a text, its keys in an order of its choice: one `PUSH_LEAF` per key (R173); `none` when a
count does not fit, and then nothing is pushed (R172; log entry 21). -/
def pushInOrder (c : Config) (order text : List Symbol) : Option (List Instr) :=
  match order with
  | [] => some []
  | s :: rest =>
    match pushCount c s (text.count s), pushInOrder c rest text with
    | some i, some is => some (i :: is)
    | _, _ => none

/-- `PUSH_TEXT`: the keys in the order of first occurrence (R99, R173); `none` when a count does not fit (R172; log entries
21 and 22). -/
def pushText (c : Config) (text : List Symbol) : Option (List Instr) := pushInOrder c (firstOccurrences text) text

/-- `DEC_BITS`: one `DEC_BIT` per digit, in string order (R66, R99). -/
def decBits (bits : List Bool) : List Instr := bits.map .decBit

/-- The digits of a bitstring written as characters; a string with any other character has no expansion (R99, R131). -/
def bitsOfDigits : List Char → Option (List Bool)
  | [] => some []
  | ch :: rest =>
    match bitsOfDigits rest with
    | none => none
    | some bs => if ch = '0' then some (false :: bs) else if ch = '1' then some (true :: bs) else none

/-- A line of a command sequence in the notation of R98, R99. -/
inductive SourceLine where
  /-- A command with its operands. -/
  | command (i : Instr)
  /-- `.word`: a raw command word. -/
  | rawWord (w : Word)
  /-- `PUSH_TEXT`. -/
  | pushText (text : List Symbol)
  /-- `DEC_BITS`, with the characters of its string. -/
  | decBits (digits : List Char)
  deriving DecidableEq, Repr

/-- The command words a line stands for (R98, R99); `none` for a line that has no expansion: a `DEC_BITS` string with
another character than `0` and `1` (R99), a `PUSH_TEXT` with a count that does not fit (R172; log entry 21). -/
def SourceLine.expand (c : Config) : SourceLine → Option (List Word)
  | .command i => some [encode i]
  | .rawWord w => some [w]
  | .pushText text => (Machine.pushText c text).map (List.map encode)
  | .decBits digits => (bitsOfDigits digits).map fun bits => (Machine.decBits bits).map encode

/-- How an encode or a decode fails on the host's side (R178, R179, 60_exceptions.md R216). -/
inductive HostError where
  /-- The block answered `FAULT`. -/
  | failed (f : FaultCode)
  /-- The block answered `REFUSED`, or would for a count that the host's own check of R172 finds not to fit. -/
  | refused (c : Cause)
  /-- The response is of no kind the block ever sends. -/
  | badResponse
  /-- The host reads a tree out and `STATUS` shows no finished tree (R154; log entry 23). -/
  | notBuilt
  /-- The block's model stopped; no run from a legal configuration does. -/
  | stopped
  /-- A symbol has no code; never so for the text the tree was built from (R177). -/
  | noCode
  deriving DecidableEq, Repr

/-- The fault a code names (R93, R201). -/
def faultOfCode (n : BitVec 4) : Option FaultCode :=
  match n.toNat with
  | 1 => some .invalidInput
  | 2 => some .corruptData
  | 3 => some .freqOverflow
  | _ => none

/-- The refusal cause a code names (R94, R207). -/
def causeOfCode (n : BitVec 4) : Option Cause :=
  match n.toNat with
  | 1 => some .illegalOpcode
  | 2 => some .badOperand
  | 3 => some .badPhase
  | 4 => some .dupSymbol
  | 5 => some .capacity
  | 6 => some .limit
  | 7 => some .unwritten
  | _ => none

/-- A response that is a failure of the operation in progress (R216). -/
def failureOf (r : Word) : Option HostError :=
  match (respKind r).toNat with
  | 0 => none
  | 1 => none
  | 2 => none
  | 3 => some (match faultOfCode (respCode r) with | some f => .failed f | none => .badResponse)
  | 4 => some (match causeOfCode (respCode r) with | some c => .refused c | none => .badResponse)
  | _ => some .badResponse

/-- The host issues a command and takes its response, treating `FAULT` and `REFUSED` as failure (R216). -/
def issue (i : Instr) (s : State) : Except HostError (Word × State) :=
  match command (encode i) s with
  | .fault _ => .error .stopped
  | .refused _ => .error .stopped
  | .next t =>
    match t.outbox.getLast? with
    | none => .error .badResponse
    | some r =>
      match failureOf r with
      | some e => .error e
      | none => .ok (r, t)

/-- The host issues commands one after another, up to the first failure; the responses in order. -/
def issueAll : List Instr → State → Except HostError (List Word × State)
  | [], s => .ok ([], s)
  | i :: is, s =>
    match issue i s with
    | .error e => .error e
    | .ok (r, t) =>
      match issueAll is t with
      | .error e => .error e
      | .ok (rs, u) => .ok (r :: rs, u)

/-- A code table, as the list of its entries (R174, R176). -/
abbrev CodeTable := List (Symbol × List Bool)

/-- `codes(i, path)` of R174. The fuel bounds the depth; children have smaller indices (R28), so the number of records is
enough. -/
def codesFrom (m : Memory) : Nat → Nat → List Bool → CodeTable
  | 0, _, _ => []
  | n + 1, i, path =>
    match m[i]? with
    | none => []
    | some (.leaf sym _) => [(sym, if path = [] then [true] else path)]
    | some (.internal _ left right) => codesFrom m n left (path ++ [false]) ++ codesFrom m n right (path ++ [true])

/-- The node reached from a node by a sequence of digits, left on 0 and right on 1 (R66, R135). -/
def walk (m : Memory) : Nat → List Bool → Option Nat
  | i, [] => some i
  | i, b :: bs =>
    match m[i]? with
    | some (.internal _ left right) => walk m (if b then right else left) bs
    | _ => none

/-- `CodeTableBuilder` on the records read out of the block (R154, R174, R175). -/
def buildCodes (m : Memory) (root : Nat) : CodeTable := codesFrom m m.length root []

/-- The code of a symbol. -/
def codeOf (t : CodeTable) (sym : Symbol) : Option (List Bool) := t.lookup sym

/-- The concatenation of the codes of a text, in order (R177 step 4). -/
def codeText (t : CodeTable) : List Symbol → Option (List Bool)
  | [] => some []
  | s :: rest =>
    match codeOf t s, codeText t rest with
    | some c, some cs => some (c ++ cs)
    | _, _ => none

/-- A binary tree in which every internal node has two children, with a frequency at each leaf (40_builder_commands.md
R127). -/
inductive CodeTree where
  /-- A leaf of the given frequency. -/
  | leaf (freq : Nat)
  /-- An internal node. -/
  | node (left right : CodeTree)
  deriving DecidableEq, Repr

/-- The frequencies of the leaves, from the left. -/
def CodeTree.leaves : CodeTree → List Nat
  | .leaf freq => [freq]
  | .node left right => left.leaves ++ right.leaves

/-- The sum over the leaves of frequency times depth, the tree itself being at the given depth (R127). -/
def CodeTree.weightedLength : CodeTree → Nat → Nat
  | .leaf freq, depth => freq * depth
  | .node left right, depth => left.weightedLength (depth + 1) + right.weightedLength (depth + 1)

/-- The tree below a node of the node memory. The fuel bounds the depth, as in `codesFrom`; `none` where a record it needs
is not written. -/
def treeFrom (m : Memory) : Nat → Nat → Option CodeTree
  | 0, _ => none
  | n + 1, i =>
    match m[i]? with
    | none => none
    | some (.leaf _ freq) => some (.leaf freq)
    | some (.internal _ left right) =>
      match treeFrom m n left, treeFrom m n right with
      | some a, some b => some (.node a b)
      | _, _ => none

/-- The commands that read `n` records out (R154). -/
def readNodes (n : Nat) : List Instr := (List.range n).map fun i => .rdNode (BitVec.ofNat 32 i)

/-- What the host holds after reading a tree out: the records and the index of the root (R154). -/
structure ReadTree where
  /-- The records `0` to `n_nodes - 1`. -/
  records : Memory
  /-- The root's index. -/
  root : Nat
  deriving DecidableEq, Repr

/-- The tree as the host reads it out: `STATUS` must show a finished tree, `NNODES` says how many records there are,
`ROOT` which is the root, and `RD_NODE` gives each record (R154). DESIGN CHOICE: on any other `STATUS` than the expected
one the read-out fails and reads no more; R154 does not say what the host then does (log entry 23). -/
def readOut (s : State) : Except HostError (ReadTree × State) :=
  match issue (.rdReg .status) s with
  | .error e => .error e
  | .ok (status, s1) =>
    if (respPayload status).extractLsb' 0 4 ≠ 0b1001 then .error .notBuilt
    else
      match issue (.rdReg .nNodes) s1 with
      | .error e => .error e
      | .ok (n, s2) =>
        match issue (.rdReg .root) s2 with
        | .error e => .error e
        | .ok (root, s3) =>
          match issueAll (readNodes (respPayload n).toNat) s3 with
          | .error e => .error e
          | .ok (rs, t) =>
            .ok (⟨rs.map fun r => recordOfLayout (respPayload r), (respPayload root).toNat⟩, t)

/-- `encode` (R177, R178) with the map presented in a given order: the bit sequence, with the tree left in the block. A
count that does not fit `FREQ_W` is found by the host before anything is pushed, and is the failure the block's refusal
would be (R172, R178; log entry 16). DESIGN CHOICE: the host knows the width it compares with beforehand, from the
parameters themselves, and issues no `RD_REG` of `CONFIG` for it (R233; log entry 22). DESIGN CHOICE: an encoded length
above `2 ^ CNT_W - 1` is no failure of `encode`; it is decoding it that the block refuses, with `LIMIT` (R136, R181,
90_conflicts.md C8; log entry 20). -/
def encodeInOrder (order text : List Symbol) (s : State) : Except HostError (List Bool × State) :=
  match pushInOrder s.cfg order text with
  | none => .error (.refused .badOperand)
  | some pushes =>
    match issueAll (.clear :: (pushes ++ [.build])) s with
    | .error e => .error e
    | .ok (_, t) =>
      match readOut t with
      | .error e => .error e
      | .ok (tree, u) =>
        match codeText (buildCodes tree.records tree.root) text with
        | none => .error .noCode
        | some bits => .ok (bits, u)

/-- `encode` with the order of `PUSH_TEXT` (R173, R177). -/
def encodeText (text : List Symbol) (s : State) : Except HostError (List Bool × State) :=
  encodeInOrder (firstOccurrences text) text s

/-- The symbols that `EMIT` responses carry, in order (R95, R140). -/
def emitted (rs : List Word) : List Symbol :=
  rs.filterMap fun r => if respKind r = 2 then some (respSymbol r) else none

/-- `decode` (R179): a whole session on the tree in the block. On `CORRUPT_DATA` the symbols are discarded (R141). -/
def decodeBits (bits : List Bool) (s : State) : Except HostError (List Symbol × State) :=
  match issueAll (.decStart :: (decBits bits ++ [.decEnd])) s with
  | .error e => .error e
  | .ok (rs, t) => .ok (emitted rs, t)

/-- A text within the bounds of 43_reference_functions.md section 4, but for the bound on the encoded length. -/
abbrev WithinBounds (c : Config) (text : List Symbol) : Prop :=
  (∀ s ∈ text, s.toNat < c.symLimit) ∧ (firstOccurrences text).length ≤ c.maxLeaves ∧ text.length < c.freqLimit

end Sys2Proof.Machine
end

