-- ==== Sys2Proof/Safety.lean ====
section
/-! DEFINITION. What counts as a run and how one ends (70_reset_and_hazards.md R239), and the legal order of commands
(R234). -/

namespace Sys2Proof

open Machine

/-- A run: a sequence of command words from the reset state, with the responses in the outbox of its last state
(R239). -/
def run (c : Config) (ws : List Word) : Host.Outcome State Fault Refusal := commands ws (State.resetIn c)

/-- A run whose final phase is `BUILT` (R239). -/
def CompletedBuild (c : Config) (ws : List Word) : Prop := ∃ t, run c ws = .next t ∧ t.phase = .built

/-- A run that ends with a `DEC_END` whose response is `OK` (R239). -/
def CompletedDecode (c : Config) (ws : List Word) : Prop :=
  ∃ before t, ws = before ++ [encode .decEnd] ∧ run c ws = .next t ∧ t.outbox.getLast? = some okWord

/-- A run whose final phase is `FAILED` (R239). -/
def FailedRun (c : Config) (ws : List Word) : Prop := ∃ t, run c ws = .next t ∧ t.phase = .failed

/-- The place in the order of R234 that a command leads to, apart from a fault; `none` where it is out of place. -/
def orderAfter (p : Phase) : Instr → Option Phase
  | .clear => some .collect
  | .rdReg _ => some p
  | .rdNode _ => some p
  | .pushLeaf _ _ => if p = .collect then some .collect else none
  | .build => if p = .collect then some .built else none
  | .decStart => if p = .built then some .decoding else none
  | .decBit _ => if p = .decoding then some .decoding else none
  | .decEnd => if p = .decoding then some .built else none

/-- A sequence in the legal order of R234, from a given place. -/
def LegalOrder : Phase → List Instr → Prop
  | _, [] => True
  | p, i :: is =>
    match orderAfter p i with
    | some q => LegalOrder q is
    | none => False

end Sys2Proof
end

