-- ==== Sys2Proof/Certificates/Slice0/Obligations.lean ====
section
/-! DEFINITION. The statements for the provers, in the order of the spec's files. Each docstring names the rule of spec/
it formalises. -/

open Sys2Proof Sys2Proof.Machine

namespace Sys2Proof.Claims

/-- The state after a refusal (R209): the refusal record, and the response word. -/
def afterRefusal (s : State) (cause : Cause) (r : Word) : State :=
  { s with rfs := true, rcause := if s.rfs then s.rcause else some cause, channel := .offered r }

end Sys2Proof.Claims

open Sys2Proof.Claims

/-! ### Words (30_encoding.md) -/

/-- One word of each command, written out from the vectors V1 to V9, decodes to it in the reference configuration. -/
def Obligations.CommandWordsDecode : Prop :=
  decode Config.reference 0x0100000000000000#64 = .ok .clear ∧
  decode Config.reference 0x0200006100000004#64 = .ok (.pushLeaf 0x61 4) ∧
  decode Config.reference 0x02000062000000FF#64 = .ok (.pushLeaf 0x62 255) ∧
  decode Config.reference 0x0300000000000000#64 = .ok .build ∧
  decode Config.reference 0x0400000000000000#64 = .ok .decStart ∧
  decode Config.reference 0x0500000000000000#64 = .ok (.decBit false) ∧
  decode Config.reference 0x0500000000000001#64 = .ok (.decBit true) ∧
  decode Config.reference 0x0600000000000000#64 = .ok .decEnd ∧
  decode Config.reference 0x0700000000000001#64 = .ok (.rdReg .status) ∧
  decode Config.reference 0x0800000000000008#64 = .ok (.rdNode 8)

/-- Encoding a well-formed command and decoding the word gives the command back (30_encoding.md section 2). -/
def Obligations.DecodeOfEncode : Prop :=
  ∀ (c : Config) (i : Instr), i.WellFormed c = true → decode c (encode i) = .ok i

/-- A word that decodes is the word of the command it decodes to, which is well-formed: each command has one word
(30_encoding.md section 2). -/
def Obligations.EncodeOfDecode : Prop :=
  ∀ (c : Config) (w : Word) (i : Instr), decode c w = .ok i → encode i = w ∧ i.WellFormed c = true

/-- R88: an unassigned opcode is refused `ILLEGAL_OPCODE` whatever the other bits and the state are. -/
def Obligations.UnassignedOpcodeRefused : Prop :=
  ∀ (w : Word) (s : State), opField w = 0 ∨ 9 ≤ (opField w).toNat →
    runWord w s = .next (afterRefusal s .illegalOpcode 0x4100000000000000#64)

/-- R87: an assigned opcode with a nonzero bit in a must-be-zero field of R86, or an operand out of its static range, is
refused `BAD_OPERAND`, whatever the state is; and no other word with an assigned opcode is. -/
def Obligations.StaticOperandCheck : Prop :=
  ∀ (w : Word) (s : State), 1 ≤ (opField w).toNat → (opField w).toNat ≤ 8 →
    let bad : Prop :=
      (opField w = 1 ∨ opField w = 3 ∨ opField w = 4 ∨ opField w = 6) ∧ (aField w ≠ 0 ∨ bField w ≠ 0) ∨
      opField w = 2 ∧ (2 ^ 21 ≤ (aField w).toNat ∨ 2 ^ s.cfg.symW ≤ (aField w).toNat % 2 ^ 21 ∨
        2 ^ s.cfg.freqW ≤ (bField w).toNat) ∨
      opField w = 5 ∧ (aField w ≠ 0 ∨ 2 ≤ (bField w).toNat) ∨
      opField w = 7 ∧ (aField w ≠ 0 ∨ 9 ≤ (bField w).toNat) ∨
      opField w = 8 ∧ aField w ≠ 0
    (bad → runWord w s = .next (afterRefusal s .badOperand 0x4200000000000000#64)) ∧
    (¬ bad → ∃ i, decode s.cfg w = .ok i ∧ runWord w s = exec i s)

/-- R95, R96: the layouts of an `EMIT` payload and of a node record, field by field, with the examples; and the host
gets the record back from its layout. -/
def Obligations.PayloadLayouts : Prop :=
  (∀ sym : Symbol, (respPayload (emitWord sym)).extractLsb' 0 21 = sym ∧
    (respPayload (emitWord sym)).extractLsb' 21 35 = 0 ∧ respKind (emitWord sym) = 2 ∧ respCode (emitWord sym) = 0) ∧
  (∀ (sym : Symbol) (f : Nat), f < 2 ^ 32 →
    let p := recordLayout (.leaf sym f)
    p.getLsbD 55 = false ∧ (p.extractLsb' 23 32).toNat = f ∧ p.extractLsb' 21 2 = 0 ∧ p.extractLsb' 0 21 = sym ∧
      recordOfLayout p = .leaf sym f) ∧
  (∀ f l r : Nat, f < 2 ^ 32 → l < 2 ^ 11 → r < 2 ^ 11 →
    let p := recordLayout (.internal f l r)
    p.getLsbD 55 = true ∧ (p.extractLsb' 23 32).toNat = f ∧ p.extractLsb' 22 1 = 0 ∧
      (p.extractLsb' 11 11).toNat = l ∧ (p.extractLsb' 0 11).toNat = r ∧ recordOfLayout p = .internal f l r) ∧
  emitWord 0x61 = 0x2000000000000061#64 ∧
  dataWord (recordLayout (.leaf 0x61 4)) = 0x1000000002000061#64 ∧
  dataWord (recordLayout (.internal 4 0 1)) = 0x1080000002000001#64 ∧
  dataWord (recordLayout (.internal 11 0 7)) = 0x1080000005800007#64

/-! ### Status registers (10_state.md section 8) -/

/-- R45: the fields of `CONFIG`, its value in the reference configuration, and that no command changes it. -/
def Obligations.ConfigRegister : Prop :=
  (∀ s : State, s.cfg.Legal →
    let v := s.csr .config
    (v.extractLsb' 0 5).toNat = s.cfg.symW ∧ (v.extractLsb' 5 6).toNat = s.cfg.freqW ∧
      (v.extractLsb' 11 11).toNat = s.cfg.maxLeaves ∧ (v.extractLsb' 22 6).toNat = s.cfg.cntW ∧
      v.extractLsb' 28 28 = 0) ∧
  (∀ (w : Word) (s t : State), runWord w s = .next t → t.csr .config = s.csr .config) ∧
  (∀ s : State, s.assertReset.csr .config = s.csr .config) ∧
  State.reset.csr .config = 0x00000008080108#56

/-- R46: the fields of `STATUS`, its reset value, and that `rcause` reads 0 exactly while `rfs` does. -/
def Obligations.StatusRegister : Prop :=
  (∀ s : State,
    let v := s.csr .status
    (v.extractLsb' 0 3).toNat =
        (match s.phase with | .collect => 0 | .built => 1 | .decoding => 2 | .failed => 3) ∧
      v.getLsbD 3 = s.rootValid ∧
      (v.extractLsb' 4 4).toNat =
        (match s.err with
          | none => 0 | some .invalidInput => 1 | some .corruptData => 2 | some .freqOverflow => 3) ∧
      v.getLsbD 8 = s.rfs ∧
      (v.extractLsb' 9 4).toNat =
        (match s.rcause with
          | none => 0 | some .illegalOpcode => 1 | some .badOperand => 2 | some .badPhase => 3
          | some .dupSymbol => 4 | some .capacity => 5 | some .limit => 6 | some .unwritten => 7) ∧
      v.extractLsb' 13 43 = 0) ∧
  (∀ s : State, s.Inv → (((s.csr .status).extractLsb' 9 4).toNat = 0 ↔ (s.csr .status).getLsbD 8 = false)) ∧
  (∀ c : Config, (State.resetIn c).csr .status = 0)

/-- R47 to R51: the registers that hold a count or an index in their 11 low bits, their reset values, and that `ROOT` reads 0
while there is no root. -/
def Obligations.IndexRegisters : Prop :=
  (∀ s : State, s.Inv →
    (s.csr .nNodes).toNat = s.node.length ∧ (s.csr .nLeaves).toNat = s.nLeaves ∧
      (s.csr .pqLen).toNat = s.pq.length ∧ (s.csr .root).toNat = s.root ∧ (s.csr .cur).toNat = s.cur ∧
      s.node.length < 2 ^ 11 ∧ s.nLeaves < 2 ^ 11 ∧ s.pq.length < 2 ^ 11 ∧ s.root < 2 ^ 11 ∧ s.cur < 2 ^ 11) ∧
  (∀ s : State, s.rootValid = false → s.csr .root = 0) ∧
  (∀ c : Config, (State.resetIn c).csr .nNodes = 0 ∧ (State.resetIn c).csr .nLeaves = 0 ∧
    (State.resetIn c).csr .pqLen = 0 ∧ (State.resetIn c).csr .root = 0 ∧ (State.resetIn c).csr .cur = 0)

/-- R52, R53: the counters in their `CNT_W` low bits, and their reset values. -/
def Obligations.CounterRegisters : Prop :=
  (∀ s : State, s.Inv →
    (s.csr .cursor).toNat = s.cursor ∧ s.cursor < 2 ^ s.cfg.cntW ∧
      (s.csr .emitCnt).toNat = s.emitCnt ∧ s.emitCnt < 2 ^ s.cfg.cntW) ∧
  (∀ c : Config, (State.resetIn c).csr .cursor = 0 ∧ (State.resetIn c).csr .emitCnt = 0)

/-! ### System commands (42_system_commands.md) -/

/-- `RD_REG` answers the register's value in every phase and changes nothing else (42_system_commands.md section 2). -/
def Obligations.ReadRegisterAnswers : Prop :=
  ∀ (n : StatusReg) (s : State),
    exec (.rdReg n) s = .next { s with channel := .offered (respWord 1 0 (s.csr n)) }

/-- `RD_NODE` of a written entry answers its record's layout in every phase and changes nothing else
(42_system_commands.md section 3). -/
def Obligations.ReadNodeAnswersRecord : Prop :=
  ∀ (i : BitVec 32) (s : State) (h : i.toNat < s.node.length),
    exec (.rdNode i) s = .next { s with channel := .offered (respWord 1 0 (recordLayout s.node[i.toNat])) }

/-- `RD_NODE` at or past `n_nodes` is refused `UNWRITTEN`; after reset that is every index (42_system_commands.md section
3). -/
def Obligations.ReadNodeUnwrittenRefused : Prop :=
  (∀ (i : BitVec 32) (s : State), s.node.length ≤ i.toNat →
    exec (.rdNode i) s = .next (afterRefusal s .unwritten 0x4700000000000000#64)) ∧
  (∀ s : State, s.Inv → s.node.length ≤ 2 * s.cfg.maxLeaves - 1) ∧
  (∀ c : Config, (State.resetIn c).node.length = 0)

/-- After reset and after `CLEAR` the state is exactly the table of 10_state.md section 9; the parameters and the host's
side stay. The model's own choice in it: that the configuration of `State.reset` is the reference one (log entry 2), and
that its `inbox` and `outbox`, which are no state of the block, are empty (log entry 3). -/
def Obligations.ClearAndResetReachResetState : Prop :=
  (∀ s : State, exec .clear s = .next
    { cfg := s.cfg, phase := .collect, err := none, rfs := false, rcause := none, node := [], nLeaves := 0, pq := [],
      rootValid := false, root := 0, cur := 0, cursor := 0, emitCnt := 0,
      channel := .offered 0x0000000000000000#64, inbox := s.inbox, outbox := s.outbox }) ∧
  (∀ (s : State) (rest : List HostEvent), s.channel = .idle → s.inbox = .reset :: rest → step s = .next
    { cfg := s.cfg, phase := .collect, err := none, rfs := false, rcause := none, node := [], nLeaves := 0, pq := [],
      rootValid := false, root := 0, cur := 0, cursor := 0, emitCnt := 0,
      channel := .idle, inbox := rest, outbox := s.outbox }) ∧
  State.reset =
    { cfg := { symW := 8, freqW := 8, maxLeaves := 256, cntW := 32 },
      phase := .collect, err := none, rfs := false, rcause := none, node := [], nLeaves := 0, pq := [],
      rootValid := false, root := 0, cur := 0, cursor := 0, emitCnt := 0,
      channel := .idle, inbox := [], outbox := [] }

/-! ### PUSH_LEAF (40_builder_commands.md section 2) -/

/-- `PUSH_LEAF` in `COLLECT`, of a new symbol, with room left: the leaf is written at index `n_nodes`, the index joins
`pq`, both counters grow, nothing else changes (40_builder_commands.md section 2). -/
def Obligations.PushLeafCompletes : Prop :=
  ∀ (sym : Symbol) (freq : BitVec 32) (s : State), s.phase = .collect → (∀ r ∈ s.node, r.sym? ≠ some sym) →
    s.nLeaves ≠ s.cfg.maxLeaves →
    exec (.pushLeaf sym freq) s = .next { s with
      node := s.node ++ [.leaf sym freq.toNat], pq := pqInsert s.node.length s.pq, nLeaves := s.nLeaves + 1,
      channel := .offered 0x0000000000000000#64 }

/-- In `COLLECT` the members of `pq` are all the leaves pushed, with a full block too; the index of a new leaf is the number
of leaves pushed before it, and it becomes the greatest member (10_state.md section 4, 40_builder_commands.md section 2,
20_memory.md section 2). -/
def Obligations.PushLeafIndexIsPushCount : Prop :=
  ∀ s : State, s.Inv → s.phase = .collect → s.pq = List.range s.nLeaves ∧
    ∀ (sym : Symbol) (freq : BitVec 32), sym ∉ leafSymbols s.node → s.nLeaves < s.cfg.maxLeaves →
    ∃ t, exec (.pushLeaf sym freq) s = .next t ∧ t.node[s.nLeaves]? = some (.leaf sym freq.toNat) ∧
      t.node.length = s.nLeaves + 1 ∧ t.pq = List.range (s.nLeaves + 1) ∧
      (∀ k < s.nLeaves, t.node[k]? = s.node[k]?)

/-- The refusals of `PUSH_LEAF` in the order of R112 and R210, each writing nothing but the refusal record
(40_builder_commands.md section 2, 60_exceptions.md section 4). -/
def Obligations.PushLeafRefusals : Prop :=
  ∀ (sym : Symbol) (freq : BitVec 32) (s : State),
    (s.phase ≠ .collect →
      exec (.pushLeaf sym freq) s = .next (afterRefusal s .badPhase 0x4300000000000000#64)) ∧
    (s.phase = .collect → (∃ r ∈ s.node, r.sym? = some sym) →
      exec (.pushLeaf sym freq) s = .next (afterRefusal s .dupSymbol 0x4400000000000000#64)) ∧
    (s.phase = .collect → (∀ r ∈ s.node, r.sym? ≠ some sym) → s.nLeaves = s.cfg.maxLeaves →
      exec (.pushLeaf sym freq) s = .next (afterRefusal s .capacity 0x4500000000000000#64))

/-! ### BUILD (40_builder_commands.md sections 3 to 5) -/

/-- R31: `PopMin` takes the member whose pair (frequency, index) is least in lexicographic order, and leaves the others. -/
def Obligations.PopMinTakesLeastKey : Prop :=
  ∀ (m : Memory) (pq : List Nat), pqWf pq → (∀ i ∈ pq, i < m.length) → pq ≠ [] →
    ∃ (i : Nat) (r : NodeRec), i ∈ pq ∧ m[i]? = some r ∧
      popMin m pq = .ok (some ((r.freq, i), pq.filter (· ≠ i))) ∧
      ∀ j ∈ pq, j ≠ i → ∀ x, m[j]? = some x → r.freq < x.freq ∨ (r.freq = x.freq ∧ i < j)

/-- R116, R117: a merge step takes the two least members, `A` before `B`; the record written has `A` on the left, `B` on
the right and the exact sum; both leave `pq` and the new index enters it. A sum that does not fit writes nothing. -/
def Obligations.MergeStepMergesTwoLeast : Prop :=
  ∀ s : State, pqWf s.pq → (∀ i ∈ s.pq, i < s.node.length) → 2 ≤ s.pq.length →
    ∃ (i j : Nat) (a b : NodeRec), i ∈ s.pq ∧ j ∈ s.pq ∧ s.node[i]? = some a ∧ s.node[j]? = some b ∧
      (a.freq < b.freq ∨ (a.freq = b.freq ∧ i < j)) ∧
      (∀ k ∈ s.pq, k ≠ i → k ≠ j → ∀ x, s.node[k]? = some x → b.freq < x.freq ∨ (b.freq = x.freq ∧ j < k)) ∧
      (a.freq + b.freq < 2 ^ s.cfg.freqW →
        mergeStep s = .ok (.merged { s with
          node := s.node ++ [.internal (a.freq + b.freq) i j],
          pq := s.pq.filter (fun k => k ≠ i ∧ k ≠ j) ++ [s.node.length] })) ∧
      (2 ^ s.cfg.freqW ≤ a.freq + b.freq → mergeStep s = .ok .overflow)

/-- R125: a merge step keeps the forest: disjoint trees whose leaves are the pushed leaves, children below their parent,
the sum of the frequencies over `pq`; and it puts one tree in the place of two, which become its subtrees. -/
def Obligations.MergeStepKeepsForest : Prop :=
  ∀ s t : State, s.ForestInv → s.rootValid = false → mergeStep s = .ok (.merged t) →
    t.ForestInv ∧ t.pq.length + 1 = s.pq.length ∧ leafSum t.node = leafSum s.node ∧
      leafSymbols t.node = leafSymbols s.node ∧
      ∃ i j f : Nat, i ∈ s.pq ∧ j ∈ s.pq ∧ i ≠ j ∧ t.node = s.node ++ [.internal f i j] ∧
        t.pq = s.pq.filter (fun k => k ≠ i ∧ k ≠ j) ++ [s.node.length]

/-- R119: `BUILD` with `pq` empty raises `INVALID_INPUT` and changes nothing else; there is then no record and no root. -/
def Obligations.BuildOfNothingFails : Prop :=
  (∀ s : State, s.phase = .collect → s.pq = [] →
    exec .build s = .next
      { s with err := some .invalidInput, phase := .failed, channel := .offered 0x3100000000000000#64 }) ∧
  (∀ s : State, s.Inv → s.phase = .collect → s.pq = [] → s.node.length = 0 ∧ s.rootValid = false)

/-- R120: with exactly one leaf pushed, it becomes the root, whatever its frequency. -/
def Obligations.BuildOfOneLeaf : Prop :=
  ∀ s : State, s.Inv → s.phase = .collect → s.nLeaves = 1 →
    s.node.length = 1 ∧ s.node[0]?.map NodeRec.isLeaf = some true ∧
    exec .build s = .next { s with
      pq := [], root := 0, rootValid := true, cur := 0, phase := .built,
      channel := .offered 0x0000000000000000#64 }

/-- R121: a `BUILD` that does not overflow runs exactly `L - 1` merge steps, each adding one record, and publishes the one
member then left, the last record, as the root of a tree of `2L - 1` records that keeps the leaves, with the whole sum as
its frequency; only the fields named change. What each merge step does is `Obligations.MergeStepMergesTwoLeast`. -/
def Obligations.BuildCompletes : Prop :=
  ∀ s : State, s.Inv → s.phase = .collect → 1 ≤ s.nLeaves → (s.nLeaves = 1 ∨ leafSum s.node < 2 ^ s.cfg.freqW) →
    ∃ m : Memory,
      exec .build s = .next { s with
        node := s.node ++ m, pq := [], root := 2 * s.nLeaves - 2, rootValid := true, cur := 2 * s.nLeaves - 2,
        phase := .built, channel := .offered 0x0000000000000000#64 } ∧
      mergeLoop (s.nLeaves - 1) s = .ok (.complete { s with node := s.node ++ m, pq := [2 * s.nLeaves - 2] }) ∧
      m.length = s.nLeaves - 1 ∧ (∀ r ∈ m, r.isLeaf = false) ∧
      (s.node ++ m)[2 * s.nLeaves - 2]?.map NodeRec.freq = some (leafSum s.node) ∧
      State.Inv { s with
        node := s.node ++ m, pq := [], root := 2 * s.nLeaves - 2, rootValid := true, cur := 2 * s.nLeaves - 2,
        phase := .built }

/-- R124: `BUILD` faults with `FREQ_OVERFLOW` if and only if there are two leaves or more and the sum of all their
frequencies does not fit; when the sum fits it succeeds, and the sum is the root's frequency. -/
def Obligations.BuildOverflowsExactlyWhen : Prop :=
  ∀ s : State, s.Inv → s.phase = .collect →
    ∃ t, exec .build s = .next t ∧
      (t.channel = .offered 0x3300000000000000#64 ↔ 2 ≤ s.nLeaves ∧ 2 ^ s.cfg.freqW ≤ leafSum s.node) ∧
      (t.err = some .freqOverflow ↔ 2 ≤ s.nLeaves ∧ 2 ^ s.cfg.freqW ≤ leafSum s.node) ∧
      (2 ≤ s.nLeaves → leafSum s.node < 2 ^ s.cfg.freqW →
        t.channel = .offered 0x0000000000000000#64 ∧ t.phase = .built ∧
          t.node[t.root]?.map NodeRec.freq = some (leafSum s.node))

/-- R118: an overflowing step makes no write; the merges before it stand, the fault is recorded, and there is no root. -/
def Obligations.BuildOverflowKeepsForest : Prop :=
  ∀ s : State, s.Inv → s.phase = .collect → 2 ≤ s.nLeaves → 2 ^ s.cfg.freqW ≤ leafSum s.node →
    ∃ (m : Memory) (q : List Nat),
      exec .build s = .next { s with
        node := s.node ++ m, pq := q, err := some .freqOverflow, phase := .failed,
        channel := .offered 0x3300000000000000#64 } ∧
      mergeLoop m.length s = .ok (.complete { s with node := s.node ++ m, pq := q }) ∧
      mergeStep { s with node := s.node ++ m, pq := q } = .ok .overflow ∧
      m.length + q.length = s.nLeaves ∧ 2 ≤ q.length ∧
      State.ForestInv { s with node := s.node ++ m, pq := q } ∧ s.rootValid = false

/-- The tree that `BUILD` makes is optimal: over all binary trees with the same leaf frequencies in which every internal
node has two children, its weighted path length is least (40_builder_commands.md section 5, its rule R127), for the
tie-break of R31, which log entry 15 takes. -/
def Obligations.BuildMakesOptimalTree : Prop :=
  ∀ s t : State, s.Inv → s.phase = .collect → exec .build s = .next t → t.phase = .built →
    ∃ tree : CodeTree, treeFrom t.node t.node.length t.root = some tree ∧
      tree.leaves.Perm (s.node.map NodeRec.freq) ∧
      ∀ other : CodeTree, other.leaves.Perm tree.leaves → tree.weightedLength 0 ≤ other.weightedLength 0

/-! ### Phases (10_state.md section 7) -/

/-- R43: a command not admitted in the phase is refused `BAD_PHASE`; one that is admitted is never refused `BAD_PHASE` and
leads to the phase of the table, `CLEAR` with all state at its reset values; a word that is no command, and whatever is
refused for any cause, leaves the phase. -/
def Obligations.PhaseTable : Prop :=
  (∀ (i : Instr) (s : State), admits s.phase i = false →
    exec i s = .next (afterRefusal s .badPhase 0x4300000000000000#64)) ∧
  (∀ (i : Instr) (s t : State), admits s.phase i = true → exec i s = .next t →
    phaseAfter s i t.phase t.err = true ∧
    (∃ r, t.channel = .offered r ∧ r ≠ 0x4300000000000000#64 ∧ (respKind r = 4 → t.phase = s.phase)) ∧
    (i = .clear →
      t = { State.resetIn s.cfg with channel := t.channel, inbox := s.inbox, outbox := s.outbox })) ∧
  (∀ (w : Word) (s t : State) (cause : Cause), decode s.cfg w = .error cause → runWord w s = .next t →
    t.phase = s.phase)

/-- R234: up to and including its first fault, a sequence of commands is never refused `BAD_PHASE` if and only if it is in
the legal order. Any other order is no error: every command is answered and the sequence goes on. -/
def Obligations.LegalOrderExactlyNeverBadPhase : Prop :=
  ∀ (is : List Instr) (s : State), s.Inv → (∀ i ∈ is, i.WellFormed s.cfg = true) →
    ∃ (t : State) (rs : List Word), commands (is.map encode) s = .next t ∧ t.outbox = s.outbox ++ rs ∧
      rs.length = is.length ∧
      ((∀ r ∈ rs.takeWhile (fun r => respKind r ≠ 3), r ≠ 0x4300000000000000#64) ↔
        LegalOrder s.phase (is.take ((rs.takeWhile fun r => respKind r ≠ 3).length + 1)))

/-! ### The decoder (41_decoder_commands.md) -/

/-- `DEC_START` in `BUILT` opens a session at the root; nothing else changes (41_decoder_commands.md section 2). -/
def Obligations.DecStartOpensSession : Prop :=
  ∀ s : State, s.phase = .built →
    exec .decStart s = .next { s with
      cur := s.root, cursor := 0, emitCnt := 0, phase := .decoding, channel := .offered 0x0000000000000000#64 }

/-- R134: on a one-leaf tree every `DEC_BIT` emits the root's symbol, whatever the digit, and `cur` stays at the root. -/
def Obligations.DecBitOneLeafEmits : Prop :=
  (∀ (b : Bool) (s : State) (sym : Symbol) (f : Nat), s.phase = .decoding → s.cursor ≠ 2 ^ s.cfg.cntW - 1 →
    s.node[s.root]? = some (.leaf sym f) →
    exec (.decBit b) s = .next { s with
      cursor := s.cursor + 1, emitCnt := s.emitCnt + 1,
      channel := .offered (respWord 2 0 (sym.setWidth 56)) }) ∧
  (∀ s : State, s.Inv → s.phase = .decoding → s.node[s.root]?.map NodeRec.isLeaf = some true → s.cur = s.root)

/-- R135: when the root is Internal, `DEC_BIT` moves to the left child on 0 and to the right child on 1; at a Leaf it emits
the symbol and the position is the root again, else the child becomes `cur`. The child is always a written record. A
symbol whose path has `k` digits is emitted by the last of them, and the `k - 1` before it answer `OK`. -/
def Obligations.DecBitFollowsDigit : Prop :=
  (∀ (b : Bool) (s : State) (f g l r fr lr rr : Nat), s.phase = .decoding → s.cursor ≠ 2 ^ s.cfg.cntW - 1 →
    s.node[s.root]? = some (.internal fr lr rr) → s.node[s.cur]? = some (.internal f l r) →
    (∀ sym : Symbol, s.node[if b then r else l]? = some (.leaf sym g) →
      exec (.decBit b) s = .next { s with
        cursor := s.cursor + 1, emitCnt := s.emitCnt + 1, cur := s.root,
        channel := .offered (respWord 2 0 (sym.setWidth 56)) }) ∧
    (∀ l' r' : Nat, s.node[if b then r else l]? = some (.internal g l' r') →
      exec (.decBit b) s = .next { s with
        cursor := s.cursor + 1, cur := if b then r else l, channel := .offered 0x0000000000000000#64 })) ∧
  (∀ s : State, s.Inv → s.phase = .decoding → s.node[s.root]?.map NodeRec.isLeaf ≠ some true →
    ∃ fr lr rr f l r, s.node[s.root]? = some (.internal fr lr rr) ∧ s.node[s.cur]? = some (.internal f l r) ∧
      l < s.node.length ∧ r < s.node.length) ∧
  (∀ (s : State) (path : List Bool) (i : Nat) (sym : Symbol) (f : Nat), s.Inv → s.phase = .decoding →
    s.channel = .idle → s.cur = s.root → s.node[s.root]?.map NodeRec.isLeaf ≠ some true →
    walk s.node s.root path = some i → s.node[i]? = some (.leaf sym f) →
    s.cursor + path.length ≤ 2 ^ s.cfg.cntW - 1 →
    commands ((decBits path).map encode) s = .next { s with
      cursor := s.cursor + path.length, emitCnt := s.emitCnt + 1,
      outbox := s.outbox ++ (List.replicate (path.length - 1) 0x0000000000000000#64 ++
        [respWord 2 0 (sym.setWidth 56)]) })

/-- R136: at the greatest value of `cursor` a `DEC_BIT` is refused `LIMIT`, the session stays open and `DEC_END` still ends
it; no command takes `cursor` or `emit_cnt` past that value. -/
def Obligations.DecBitAtLimitRefused : Prop :=
  (∀ (b : Bool) (s : State), s.phase = .decoding → s.cursor = 2 ^ s.cfg.cntW - 1 →
    exec (.decBit b) s = .next (afterRefusal s .limit 0x4600000000000000#64) ∧
    ∃ t, exec .decEnd (afterRefusal s .limit 0x4600000000000000#64) = .next t ∧ t.phase ≠ .decoding ∧
      t.rcause = (afterRefusal s .limit 0x4600000000000000#64).rcause) ∧
  (∀ (w : Word) (s t : State), s.Inv → runWord w s = .next t →
    t.cursor ≤ 2 ^ t.cfg.cntW - 1 ∧ t.emitCnt ≤ 2 ^ t.cfg.cntW - 1)

/-- `DEC_END` at the root closes the session; nothing else changes (41_decoder_commands.md section 4). -/
def Obligations.DecEndClosesSession : Prop :=
  ∀ s : State, s.phase = .decoding → s.cur = s.root →
    exec .decEnd s = .next { s with phase := .built, channel := .offered 0x0000000000000000#64 }

/-- R138, R203: `DEC_END` raises `CORRUPT_DATA` exactly when `cur` is not the root, writing only the fault; with a one-leaf
tree it never does. -/
def Obligations.DecEndOffRootFails : Prop :=
  (∀ s : State, s.phase = .decoding → s.cur ≠ s.root →
    exec .decEnd s = .next
      { s with err := some .corruptData, phase := .failed, channel := .offered 0x3200000000000000#64 }) ∧
  (∀ s : State, s.phase = .decoding →
    (exec .decEnd s = .next (s.raiseFault .corruptData) ↔ s.cur ≠ s.root)) ∧
  (∀ s : State, s.Inv → s.phase = .decoding → s.node[s.root]?.map NodeRec.isLeaf = some true → s.cur = s.root)

/-- R142: the empty session is legal: two `OK` responses, no symbol, both counters 0. -/
def Obligations.EmptySessionCompletes : Prop :=
  ∀ s : State, s.phase = .built →
    commands [encode .decStart, encode .decEnd] s = .next { s with
      cur := s.root, cursor := 0, emitCnt := 0, channel := .idle,
      outbox := s.outbox ++ [0x0000000000000000#64, 0x0000000000000000#64] }

/-- Any sequence of bits decodes: one response for each, `OK` or the symbol of a leaf of the tree; `cursor` counts the bits
and `emit_cnt` the symbols; nothing else but `cur` changes (41_decoder_commands.md section 5). -/
def Obligations.AnyBitsDecode : Prop :=
  ∀ (bits : List Bool) (s : State), s.Inv → s.phase = .decoding → s.channel = .idle →
    s.cursor + bits.length ≤ 2 ^ s.cfg.cntW - 1 →
    ∃ (rs : List Word) (i : Nat),
      commands ((decBits bits).map encode) s = .next { s with
        cur := i, cursor := s.cursor + bits.length, emitCnt := s.emitCnt + (emitted rs).length,
        outbox := s.outbox ++ rs } ∧
      rs.length = bits.length ∧ i < s.node.length ∧
      ∀ r ∈ rs, r = 0x0000000000000000#64 ∨ ∃ sym ∈ leafSymbols s.node, r = respWord 2 0 (sym.setWidth 56)

/-- R140: the concatenation of the codes of symbols of the tree decodes to those symbols, in order, and `DEC_END` answers
`OK`; `cursor` is then the number of bits and `emit_cnt` the number of symbols. -/
def Obligations.CodesDecodeToText : Prop :=
  ∀ (s : State) (text : List Symbol) (bits : List Bool), s.Inv → s.phase = .built → s.channel = .idle →
    codeText (buildCodes s.node s.root) text = some bits → bits.length ≤ 2 ^ s.cfg.cntW - 1 →
    ∃ t, decodeBits bits s = .ok (text, t) ∧ t.phase = .built ∧ t.cursor = bits.length ∧ t.emitCnt = text.length ∧
      t.outbox.getLast? = some 0x0000000000000000#64

/-- R144: a valid encoding cut by its last bit, on a tree with two leaves or more. The symbols before the last are all
emitted; if the last code has two digits or more the session ends inside it, on its path, and `DEC_END` faults; if it has
one digit, what is left decodes. -/
def Obligations.TruncationByOneBit : Prop :=
  ∀ (s : State) (text : List Symbol) (z : Symbol) (bits code : List Bool), s.Inv → s.phase = .built →
    s.channel = .idle → 2 ≤ s.nLeaves → codeText (buildCodes s.node s.root) text = some bits →
    codeOf (buildCodes s.node s.root) z = some code → bits.length + code.length ≤ 2 ^ s.cfg.cntW - 1 →
    (∃ t, commands ((.decStart :: decBits (bits ++ code.dropLast)).map encode) s = .next t ∧
      emitted (t.outbox.drop s.outbox.length) = text ∧ walk s.node s.root code.dropLast = some t.cur ∧
      (2 ≤ code.length → t.node[t.cur]?.map NodeRec.isLeaf = some false ∧ t.cur ≠ t.root)) ∧
    (2 ≤ code.length → decodeBits (bits ++ code.dropLast) s = .error (.failed .corruptData)) ∧
    (code.length = 1 → ∃ t, decodeBits (bits ++ code.dropLast) s = .ok (text, t) ∧ t.phase = .built)

/-! ### Faults and refusals (60_exceptions.md) -/

/-- R209: a command whose response is `REFUSED` has changed nothing but the refusal record. -/
def Obligations.RefusalChangesOnlyItsRecord : Prop :=
  ∀ (w : Word) (s t : State) (r : Word), runWord w s = .next t → t.channel = .offered r → respKind r = 4 →
    ∃ cause, r = respWord 4 (causeCode cause) 0 ∧ t = afterRefusal s cause r

/-- R23: the refusal record keeps the first refusal's cause; it is written by refusals only, which change nothing else but
offer their response, and cleared by `CLEAR` and reset only. -/
def Obligations.RefusalRecordKeepsFirstCause : Prop :=
  (∀ (w : Word) (s t : State) (r : Word), runWord w s = .next t → t.channel = .offered r →
    (respKind r = 4 → s.rfs = false → t.rfs = true ∧
      ∃ cause, t.rcause = some cause ∧ respCode r = causeCode cause ∧ t = afterRefusal s cause r) ∧
    (respKind r = 4 → s.rfs = true → t.rfs = true ∧ t.rcause = s.rcause ∧ t = { s with channel := .offered r }) ∧
    (respKind r ≠ 4 → decode s.cfg w ≠ .ok .clear → t.rfs = s.rfs ∧ t.rcause = s.rcause) ∧
    (decode s.cfg w = .ok .clear → t.rfs = false ∧ t.rcause = none)) ∧
  (∀ s : State, s.assertReset.rfs = false ∧ s.assertReset.rcause = none)

/-- R206: a command whose response is `FAULT` has recorded that code and entered `FAILED`; the raise writes nothing else,
and the writes made before it stand: for `DEC_END` none, for `BUILD` those of the merge steps completed, which is the state
the merge loop overflows in; the loop adds records and changes `pq`, and nothing else. -/
def Obligations.FaultRecordsItsCode : Prop :=
  ∀ (w : Word) (s t : State) (r : Word), runWord w s = .next t → t.channel = .offered r → respKind r = 3 →
    ∃ f : FaultCode, r = respWord 3 f.code 0 ∧
      ((f = .corruptData ∧ decode s.cfg w = .ok .decEnd ∧
          t = { s with err := some f, phase := .failed, channel := .offered r }) ∨
       (f = .invalidInput ∧ decode s.cfg w = .ok .build ∧ s.pq = [] ∧
          t = { s with err := some f, phase := .failed, channel := .offered r }) ∨
       (f = .freqOverflow ∧ decode s.cfg w = .ok .build ∧
          ∃ u, mergeLoop s.pq.length s = .ok (.overflow u) ∧
            s.node <+: u.node ∧ u = { s with node := u.node, pq := u.pq } ∧
            t = { u with err := some f, phase := .failed, channel := .offered r }))

/-- R211: in `FAILED` the commands `CLEAR`, `RD_REG` and `RD_NODE` are accepted, every other command is refused
`BAD_PHASE`, and until a `CLEAR` nothing but the refusal record changes. -/
def Obligations.FailedAdmitsOnlyReadsAndClear : Prop :=
  (∀ s : State, s.phase = .failed →
    (∃ t, exec .clear s = .next t ∧ t.channel = .offered 0x0000000000000000#64 ∧ t.phase = .collect ∧ t.err = none) ∧
    (∀ n, exec (.rdReg n) s = .next { s with channel := .offered (respWord 1 0 (s.csr n)) }) ∧
    (∀ (i : BitVec 32) (r : NodeRec), s.node[i.toNat]? = some r →
      exec (.rdNode i) s = .next { s with channel := .offered (respWord 1 0 (recordLayout r)) })) ∧
  ∀ (w : Word) (s t : State), s.phase = .failed → runWord w s = .next t → decode s.cfg w ≠ .ok .clear →
    t = { s with rfs := t.rfs, rcause := t.rcause, channel := t.channel } ∧
    ∀ i, decode s.cfg w = .ok i → (∃ n, i = .rdReg n) ∨ (∃ k, i = .rdNode k) ∨
      t = afterRefusal s .badPhase 0x4300000000000000#64

/-- R213: no second fault occurs while one is recorded, `BUILD` and `DEC_END` being refused then; `err` keeps its value
until a `CLEAR`, and so does the first refusal's cause. -/
def Obligations.NoSecondFault : Prop :=
  ∀ (w : Word) (s t : State) (r : Word), s.Inv → s.err ≠ none → runWord w s = .next t → t.channel = .offered r →
    respKind r ≠ 3 ∧ (decode s.cfg w ≠ .ok .clear → t.err = s.err ∧ (s.rfs = true → t.rcause = s.rcause)) ∧
    (decode s.cfg w = .ok .build ∨ decode s.cfg w = .ok .decEnd → t = afterRefusal s .badPhase r ∧
      r = 0x4300000000000000#64)

/-! ### The node memory (20_memory.md) -/

/-- Only `PUSH_LEAF` and `BUILD`, in `COLLECT`, write the node memory, and they only add records at its end
(20_memory.md section 1). -/
def Obligations.NodeMemoryWriters : Prop :=
  ∀ (w : Word) (s t : State), runWord w s = .next t → decode s.cfg w ≠ .ok .clear →
    s.node <+: t.node ∧
    (t.node ≠ s.node → s.phase = .collect ∧
      ((∃ sym freq, decode s.cfg w = .ok (.pushLeaf sym freq) ∧ t.node = s.node ++ [.leaf sym freq.toNat]) ∨
       decode s.cfg w = .ok .build))

/-- R38: from the end of `BUILD` until reset or `CLEAR` no command writes `node[]`, `n_nodes`, `n_leaves`, `root` or
`root_valid`. -/
def Obligations.TreeImmutableOnceBuilt : Prop :=
  ∀ (w : Word) (s t : State), s.Inv → s.rootValid = true → runWord w s = .next t → decode s.cfg w ≠ .ok .clear →
    t.node = s.node ∧ t.nNodes = s.nNodes ∧ t.nLeaves = s.nLeaves ∧ t.root = s.root ∧ t.rootValid = true

/-! ### The whole machine -/

/-- A step runs the decoded command: when the next thing the host does is to present a word that decodes, the step is
`exec` of the command, then the transfer of its response (00_scope.md section 7, 30_encoding.md section 6); and so is the
step at a word placed for it. The model's own choice: that the host's words stand in `inbox` (log entry 3), that one step
is the whole command up to the transfer (log entry 4), and that placing a word sets the response channel idle, which
drops a response still pending (log entry 17). -/
def Obligations.StepRunsDecodedCommand : Prop :=
  (∀ (w : Word) (rest : List HostEvent) (i : Instr) (s : State), s.channel = .idle → s.inbox = .command w :: rest →
    decode s.cfg w = .ok i →
    step s = (match exec i { s with inbox := rest } with
      | .next t => .next t.deliver
      | .fault e => .fault e
      | .refused r => .refused r)) ∧
  (∀ (nbits w : Nat) (i : Instr) (s : State), decode s.cfg (tableWord nbits w) = .ok i →
    step (s.withFetchWord nbits w) = (match exec i { s with channel := .idle } with
      | .next t => .next t.deliver
      | .fault e => .fault e
      | .refused r => .refused r))

/-- The reset state of every legal configuration meets the invariant of R55. -/
def Obligations.ResetMeetsInvariant : Prop :=
  (∀ c : Config, c.Legal → (State.resetIn c).Inv) ∧ State.reset.Inv

/-- The invariant of R55 is kept by every step (10_state.md section 10). -/
def Obligations.StepKeepsInvariant : Prop :=
  ∀ s t : State, s.Inv → step s = .next t → t.Inv

/-- Every command accepted has exactly one response, a refused one too, in order; and the block never speaks unasked
(30_encoding.md section 4). A response still pending is transferred, once, before anything else happens (30_encoding.md
section 1, 70_reset_and_hazards.md section 3). In particular no step of a state that meets the invariant stops. The
model's own choice: what the host does stands in `inbox` and the responses in `outbox` (log entry 3), one step is the whole
command up to the transfer, and a transfer left over a step of its own (log entry 4), and a reset is an event between
commands (log entry 19). -/
def Obligations.EveryCommandAnswersOnce : Prop :=
  (∀ (s : State) (r : Word), s.channel = .offered r ∨ s.channel = .executing r →
    step s = .next { s with channel := .idle, outbox := s.outbox ++ [r] }) ∧
  ∀ s : State, s.Inv → s.channel = .idle →
    (∀ (w : Word) (rest : List HostEvent), s.inbox = .command w :: rest →
      ∃ t r, step s = .next t ∧ t.outbox = s.outbox ++ [r] ∧ t.channel = .idle ∧ t.inbox = rest ∧
        (respKind r).toNat ≤ 4 ∧ (∀ cause, decode s.cfg w = .error cause → respKind r = 4)) ∧
    (∀ rest : List HostEvent, s.inbox = .reset :: rest →
      ∃ t, step s = .next t ∧ t.outbox = s.outbox ∧ t.channel = .idle ∧ t.inbox = rest) ∧
    (s.inbox = [] → step s = .next s)

/-- The effect of a command depends on the parameters and the tuple of R20 alone: the response channel and the host's side
play no part (00_scope.md section 7, 10_state.md section 1). -/
def Obligations.EffectDependsOnArchitecturalState : Prop :=
  ∀ (i : Instr) (s : State) (ch : Channel) (ib : List HostEvent) (ob : List Word),
    exec i { s with channel := ch, inbox := ib, outbox := ob } =
      (match exec i s with
        | .next t => .next { t with inbox := ib, outbox := ob }
        | .fault e => .fault e
        | .refused r => .refused r)

/-! ### The ports (30_encoding.md section 1, 70_reset_and_hazards.md) -/

/-- One command in flight: from an acceptance until the response is transferred no word is accepted; the offered word is
held and transferred once; the channel is free again exactly then; an acceptance makes `cmd_ready` 0 (30_encoding.md
section 1). The model's own choice: a command's state changes are all made at the edge that accepts it, so that nothing but
the channel and the host's record of responses changes later (log entry 9; R82 only says that they are made when
`rsp_valid` rises), and `done` says at which edge it rises (log entry 10). -/
def Obligations.PortOneCommandInFlight : Prop :=
  ∀ (p : Pins) (s t : State), p.rst = false → edge p s = .next t →
    (s.cmdReady false = false →
      t = { s with channel := t.channel, outbox := t.outbox } ∧ acceptedWords [p] s = [] ∧
      (t.cmdReady false = true ↔ (s.rspOut false).isSome = true ∧ p.rspReady = true) ∧
      (∀ r, s.channel = .executing r →
        t.outbox = s.outbox ∧ t.channel = if p.done then .offered r else .executing r) ∧
      (∀ r, s.rspOut false = some r → p.rspReady = false → t.rspOut false = some r ∧ t.outbox = s.outbox) ∧
      (∀ r, s.rspOut false = some r → p.rspReady = true → t.outbox = s.outbox ++ [r])) ∧
    (s.cmdReady false = true → p.cmdValid = true →
      t.cmdReady false = false ∧ t.outbox = s.outbox ∧ acceptedWords [p] s = [p.cmd]) ∧
    (s.cmdReady false = true → p.cmdValid = false → t = s)

/-- R230: an edge with `rst = 1` gives the reset state whatever command is in execution, which has no response; the
outputs are 0 meanwhile, and the block is ready afterwards. -/
def Obligations.PortResetAbandonsCommand : Prop :=
  ∀ (p : Pins) (s : State), p.rst = true →
    edge p s = .next
      { cfg := s.cfg, phase := .collect, err := none, rfs := false, rcause := none, node := [], nLeaves := 0, pq := [],
        rootValid := false, root := 0, cur := 0, cursor := 0, emitCnt := 0,
        channel := .idle, inbox := s.inbox, outbox := s.outbox } ∧
    s.cmdReady true = false ∧ s.rspOut true = none ∧ acceptedWords [p] s = [] ∧
    (∀ t, edge p s = .next t → t.cmdReady false = true ∧ t.phase = .collect)

/-- Whatever the latencies and the host's readiness, a sequence of clock edges without reset does what the accepted words
do one after another as whole commands, up to the response still pending (30_encoding.md section 1, 20_memory.md
section 5). The model's own choice: the whole command (log entry 4), the state changes at acceptance, on which the state
before a pending response rests (log entry 9), and the edges a command takes as an input (log entry 10). -/
def Obligations.PortRefinesCommands : Prop :=
  ∀ (ps : List Pins) (s t : State), (∀ p ∈ ps, p.rst = false) → s.channel = .idle → edges ps s = .next t →
    commands (acceptedWords ps s) s = .next t.deliver

/-! ### The host's functions over the block (43_reference_functions.md) -/

/-- R171: the frequency map has each distinct symbol of the text exactly once, with its number of occurrences; the empty
text has the empty map. -/
def Obligations.FrequencyMapCounts : Prop :=
  (∀ text : List Symbol, ((frequencyMap text).map Prod.fst).Nodup ∧
    (∀ (sym : Symbol) (n : Nat), (sym, n) ∈ frequencyMap text ↔ sym ∈ text ∧ n = text.count sym) ∧
    (∀ e ∈ frequencyMap text, 1 ≤ e.2)) ∧
  frequencyMap [] = []

/-- Reading the tree out after a `BUILD` gives exactly the block's records and root (42_system_commands.md section 4). -/
def Obligations.ReadOutGivesTree : Prop :=
  ∀ s : State, s.Inv → s.phase = .built →
    ∃ rs : List Word, readOut s = .ok (⟨s.node, s.root⟩, { s with channel := .idle, outbox := s.outbox ++ rs }) ∧
      rs.length = s.node.length + 3

/-- R176, R182: in the code table of a finished tree every symbol has exactly one code, no code is empty, none is a prefix
of another symbol's; with two leaves or more a code is the path from the root to its symbol's leaf and has at most
`L - 1` digits. -/
def Obligations.CodesArePrefixFree : Prop :=
  ∀ s : State, s.Inv → s.rootValid = true →
    ((buildCodes s.node s.root).map Prod.fst).Perm (leafSymbols s.node) ∧
    (∀ e ∈ buildCodes s.node s.root, e.2 ≠ []) ∧
    (∀ e ∈ buildCodes s.node s.root, ∀ f ∈ buildCodes s.node s.root, e.1 ≠ f.1 → ¬ e.2 <+: f.2) ∧
    (2 ≤ s.nLeaves → ∀ e ∈ buildCodes s.node s.root, e.2.length ≤ s.nLeaves - 1 ∧
      ∃ i f, walk s.node s.root e.2 = some i ∧ s.node[i]? = some (.leaf e.1 f))

/-- R175: the one symbol of a one-leaf tree has the code `1`. -/
def Obligations.OneLeafCodeIsOne : Prop :=
  ∀ s : State, s.Inv → s.rootValid = true → s.nLeaves = 1 →
    ∃ sym, leafSymbols s.node = [sym] ∧ buildCodes s.node s.root = [(sym, [true])]

/-- R187: encoding the empty text fails with `InvalidInput`. -/
def Obligations.EmptyTextFails : Prop :=
  ∀ s : State, encodeText [] s = .error (.failed .invalidInput)

/-- Frequency conservation: after a text is encoded the root's frequency is the sum of the leaves' and the length of the
text (43_reference_functions.md section 4). -/
def Obligations.FrequencyConservation : Prop :=
  ∀ (s : State) (order text : List Symbol) (bits : List Bool) (t : State), s.cfg.Legal →
    order.Perm (firstOccurrences text) → encodeInOrder order text s = .ok (bits, t) →
    t.node[t.root]?.map NodeRec.freq = some (leafSum t.node) ∧ leafSum t.node = text.length

/-- Round trip: every non-empty text within bounds encodes, for every order in which the map is presented, and its bits
decode to it on the tree left in the block (43_reference_functions.md section 4). The model's own choice: the tie-break of
log entry 15, and that a text whose bits are more than the counter can count is still encoded, the bound being on the
decode alone (log entry 20). -/
def Obligations.RoundTrip : Prop :=
  ∀ (s : State) (order text : List Symbol), s.cfg.Legal → text ≠ [] → WithinBounds s.cfg text →
    order.Perm (firstOccurrences text) →
    ∃ bits t, encodeInOrder order text s = .ok (bits, t) ∧
      (bits.length ≤ 2 ^ s.cfg.cntW - 1 → ∃ u, decodeBits bits t = .ok (text, u))
end

