-- ==== Sys2Proof/Laws/State.lean ====
section
/-! SUPPORT. One lemma per field and update of the state, so that no later proof unfolds a record update. -/

namespace Sys2Proof.Machine

/-! ### `respond` -/

@[simp] theorem State.respond_cfg (r : Word) (s : State) : (s.respond r).cfg = s.cfg := rfl
@[simp] theorem State.respond_phase (r : Word) (s : State) : (s.respond r).phase = s.phase := rfl
@[simp] theorem State.respond_err (r : Word) (s : State) : (s.respond r).err = s.err := rfl
@[simp] theorem State.respond_rfs (r : Word) (s : State) : (s.respond r).rfs = s.rfs := rfl
@[simp] theorem State.respond_rcause (r : Word) (s : State) : (s.respond r).rcause = s.rcause := rfl
@[simp] theorem State.respond_node (r : Word) (s : State) : (s.respond r).node = s.node := rfl
@[simp] theorem State.respond_nLeaves (r : Word) (s : State) : (s.respond r).nLeaves = s.nLeaves := rfl
@[simp] theorem State.respond_pq (r : Word) (s : State) : (s.respond r).pq = s.pq := rfl
@[simp] theorem State.respond_rootValid (r : Word) (s : State) : (s.respond r).rootValid = s.rootValid := rfl
@[simp] theorem State.respond_root (r : Word) (s : State) : (s.respond r).root = s.root := rfl
@[simp] theorem State.respond_cur (r : Word) (s : State) : (s.respond r).cur = s.cur := rfl
@[simp] theorem State.respond_cursor (r : Word) (s : State) : (s.respond r).cursor = s.cursor := rfl
@[simp] theorem State.respond_emitCnt (r : Word) (s : State) : (s.respond r).emitCnt = s.emitCnt := rfl
@[simp] theorem State.respond_channel (r : Word) (s : State) : (s.respond r).channel = .offered r := rfl
@[simp] theorem State.respond_inbox (r : Word) (s : State) : (s.respond r).inbox = s.inbox := rfl
@[simp] theorem State.respond_outbox (r : Word) (s : State) : (s.respond r).outbox = s.outbox := rfl

/-! ### `noteFault` -/

@[simp] theorem State.noteFault_cfg (f : FaultCode) (s : State) : (s.noteFault f).cfg = s.cfg := rfl
@[simp] theorem State.noteFault_phase (f : FaultCode) (s : State) : (s.noteFault f).phase = .failed := rfl
@[simp] theorem State.noteFault_err (f : FaultCode) (s : State) : (s.noteFault f).err = some f := rfl
@[simp] theorem State.noteFault_rfs (f : FaultCode) (s : State) : (s.noteFault f).rfs = s.rfs := rfl
@[simp] theorem State.noteFault_rcause (f : FaultCode) (s : State) : (s.noteFault f).rcause = s.rcause := rfl
@[simp] theorem State.noteFault_node (f : FaultCode) (s : State) : (s.noteFault f).node = s.node := rfl
@[simp] theorem State.noteFault_nLeaves (f : FaultCode) (s : State) : (s.noteFault f).nLeaves = s.nLeaves := rfl
@[simp] theorem State.noteFault_pq (f : FaultCode) (s : State) : (s.noteFault f).pq = s.pq := rfl
@[simp] theorem State.noteFault_rootValid (f : FaultCode) (s : State) : (s.noteFault f).rootValid = s.rootValid := rfl
@[simp] theorem State.noteFault_root (f : FaultCode) (s : State) : (s.noteFault f).root = s.root := rfl
@[simp] theorem State.noteFault_cur (f : FaultCode) (s : State) : (s.noteFault f).cur = s.cur := rfl
@[simp] theorem State.noteFault_cursor (f : FaultCode) (s : State) : (s.noteFault f).cursor = s.cursor := rfl
@[simp] theorem State.noteFault_emitCnt (f : FaultCode) (s : State) : (s.noteFault f).emitCnt = s.emitCnt := rfl
@[simp] theorem State.noteFault_channel (f : FaultCode) (s : State) : (s.noteFault f).channel = s.channel := rfl
@[simp] theorem State.noteFault_inbox (f : FaultCode) (s : State) : (s.noteFault f).inbox = s.inbox := rfl
@[simp] theorem State.noteFault_outbox (f : FaultCode) (s : State) : (s.noteFault f).outbox = s.outbox := rfl

/-! ### `raiseFault` -/

@[simp] theorem State.raiseFault_cfg (f : FaultCode) (s : State) : (s.raiseFault f).cfg = s.cfg := rfl
@[simp] theorem State.raiseFault_phase (f : FaultCode) (s : State) : (s.raiseFault f).phase = .failed := rfl
@[simp] theorem State.raiseFault_err (f : FaultCode) (s : State) : (s.raiseFault f).err = some f := rfl
@[simp] theorem State.raiseFault_rfs (f : FaultCode) (s : State) : (s.raiseFault f).rfs = s.rfs := rfl
@[simp] theorem State.raiseFault_rcause (f : FaultCode) (s : State) : (s.raiseFault f).rcause = s.rcause := rfl
@[simp] theorem State.raiseFault_node (f : FaultCode) (s : State) : (s.raiseFault f).node = s.node := rfl
@[simp] theorem State.raiseFault_nLeaves (f : FaultCode) (s : State) : (s.raiseFault f).nLeaves = s.nLeaves := rfl
@[simp] theorem State.raiseFault_pq (f : FaultCode) (s : State) : (s.raiseFault f).pq = s.pq := rfl
@[simp] theorem State.raiseFault_rootValid (f : FaultCode) (s : State) : (s.raiseFault f).rootValid = s.rootValid := rfl
@[simp] theorem State.raiseFault_root (f : FaultCode) (s : State) : (s.raiseFault f).root = s.root := rfl
@[simp] theorem State.raiseFault_cur (f : FaultCode) (s : State) : (s.raiseFault f).cur = s.cur := rfl
@[simp] theorem State.raiseFault_cursor (f : FaultCode) (s : State) : (s.raiseFault f).cursor = s.cursor := rfl
@[simp] theorem State.raiseFault_emitCnt (f : FaultCode) (s : State) : (s.raiseFault f).emitCnt = s.emitCnt := rfl
@[simp] theorem State.raiseFault_channel (f : FaultCode) (s : State) : (s.raiseFault f).channel = .offered (faultWord f) := rfl
@[simp] theorem State.raiseFault_inbox (f : FaultCode) (s : State) : (s.raiseFault f).inbox = s.inbox := rfl
@[simp] theorem State.raiseFault_outbox (f : FaultCode) (s : State) : (s.raiseFault f).outbox = s.outbox := rfl

/-! ### `clearAll` -/

@[simp] theorem State.clearAll_cfg (s : State) : (s.clearAll).cfg = s.cfg := rfl
@[simp] theorem State.clearAll_phase (s : State) : (s.clearAll).phase = .collect := rfl
@[simp] theorem State.clearAll_err (s : State) : (s.clearAll).err = none := rfl
@[simp] theorem State.clearAll_rfs (s : State) : (s.clearAll).rfs = false := rfl
@[simp] theorem State.clearAll_rcause (s : State) : (s.clearAll).rcause = none := rfl
@[simp] theorem State.clearAll_node (s : State) : (s.clearAll).node = [] := rfl
@[simp] theorem State.clearAll_nLeaves (s : State) : (s.clearAll).nLeaves = 0 := rfl
@[simp] theorem State.clearAll_pq (s : State) : (s.clearAll).pq = [] := rfl
@[simp] theorem State.clearAll_rootValid (s : State) : (s.clearAll).rootValid = false := rfl
@[simp] theorem State.clearAll_root (s : State) : (s.clearAll).root = 0 := rfl
@[simp] theorem State.clearAll_cur (s : State) : (s.clearAll).cur = 0 := rfl
@[simp] theorem State.clearAll_cursor (s : State) : (s.clearAll).cursor = 0 := rfl
@[simp] theorem State.clearAll_emitCnt (s : State) : (s.clearAll).emitCnt = 0 := rfl
@[simp] theorem State.clearAll_channel (s : State) : (s.clearAll).channel = s.channel := rfl
@[simp] theorem State.clearAll_inbox (s : State) : (s.clearAll).inbox = s.inbox := rfl
@[simp] theorem State.clearAll_outbox (s : State) : (s.clearAll).outbox = s.outbox := rfl

/-! ### `assertReset` -/

@[simp] theorem State.assertReset_cfg (s : State) : (s.assertReset).cfg = s.cfg := rfl
@[simp] theorem State.assertReset_phase (s : State) : (s.assertReset).phase = .collect := rfl
@[simp] theorem State.assertReset_err (s : State) : (s.assertReset).err = none := rfl
@[simp] theorem State.assertReset_rfs (s : State) : (s.assertReset).rfs = false := rfl
@[simp] theorem State.assertReset_rcause (s : State) : (s.assertReset).rcause = none := rfl
@[simp] theorem State.assertReset_node (s : State) : (s.assertReset).node = [] := rfl
@[simp] theorem State.assertReset_nLeaves (s : State) : (s.assertReset).nLeaves = 0 := rfl
@[simp] theorem State.assertReset_pq (s : State) : (s.assertReset).pq = [] := rfl
@[simp] theorem State.assertReset_rootValid (s : State) : (s.assertReset).rootValid = false := rfl
@[simp] theorem State.assertReset_root (s : State) : (s.assertReset).root = 0 := rfl
@[simp] theorem State.assertReset_cur (s : State) : (s.assertReset).cur = 0 := rfl
@[simp] theorem State.assertReset_cursor (s : State) : (s.assertReset).cursor = 0 := rfl
@[simp] theorem State.assertReset_emitCnt (s : State) : (s.assertReset).emitCnt = 0 := rfl
@[simp] theorem State.assertReset_channel (s : State) : (s.assertReset).channel = .idle := rfl
@[simp] theorem State.assertReset_inbox (s : State) : (s.assertReset).inbox = s.inbox := rfl
@[simp] theorem State.assertReset_outbox (s : State) : (s.assertReset).outbox = s.outbox := rfl

/-! ### `insertLeaf` -/

@[simp] theorem State.insertLeaf_cfg (sym : Symbol) (freq : Nat) (s : State) : (s.insertLeaf sym freq).cfg = s.cfg := rfl
@[simp] theorem State.insertLeaf_phase (sym : Symbol) (freq : Nat) (s : State) : (s.insertLeaf sym freq).phase = s.phase := rfl
@[simp] theorem State.insertLeaf_err (sym : Symbol) (freq : Nat) (s : State) : (s.insertLeaf sym freq).err = s.err := rfl
@[simp] theorem State.insertLeaf_rfs (sym : Symbol) (freq : Nat) (s : State) : (s.insertLeaf sym freq).rfs = s.rfs := rfl
@[simp] theorem State.insertLeaf_rcause (sym : Symbol) (freq : Nat) (s : State) : (s.insertLeaf sym freq).rcause = s.rcause := rfl
@[simp] theorem State.insertLeaf_node (sym : Symbol) (freq : Nat) (s : State) : (s.insertLeaf sym freq).node = s.node ++ [.leaf sym freq] := rfl
@[simp] theorem State.insertLeaf_nLeaves (sym : Symbol) (freq : Nat) (s : State) : (s.insertLeaf sym freq).nLeaves = s.nLeaves + 1 := rfl
@[simp] theorem State.insertLeaf_pq (sym : Symbol) (freq : Nat) (s : State) : (s.insertLeaf sym freq).pq = pqInsert s.node.length s.pq := rfl
@[simp] theorem State.insertLeaf_rootValid (sym : Symbol) (freq : Nat) (s : State) : (s.insertLeaf sym freq).rootValid = s.rootValid := rfl
@[simp] theorem State.insertLeaf_root (sym : Symbol) (freq : Nat) (s : State) : (s.insertLeaf sym freq).root = s.root := rfl
@[simp] theorem State.insertLeaf_cur (sym : Symbol) (freq : Nat) (s : State) : (s.insertLeaf sym freq).cur = s.cur := rfl
@[simp] theorem State.insertLeaf_cursor (sym : Symbol) (freq : Nat) (s : State) : (s.insertLeaf sym freq).cursor = s.cursor := rfl
@[simp] theorem State.insertLeaf_emitCnt (sym : Symbol) (freq : Nat) (s : State) : (s.insertLeaf sym freq).emitCnt = s.emitCnt := rfl
@[simp] theorem State.insertLeaf_channel (sym : Symbol) (freq : Nat) (s : State) : (s.insertLeaf sym freq).channel = s.channel := rfl
@[simp] theorem State.insertLeaf_inbox (sym : Symbol) (freq : Nat) (s : State) : (s.insertLeaf sym freq).inbox = s.inbox := rfl
@[simp] theorem State.insertLeaf_outbox (sym : Symbol) (freq : Nat) (s : State) : (s.insertLeaf sym freq).outbox = s.outbox := rfl

/-! ### `publishRoot` -/

@[simp] theorem State.publishRoot_cfg (r : Nat) (s : State) : (s.publishRoot r).cfg = s.cfg := rfl
@[simp] theorem State.publishRoot_phase (r : Nat) (s : State) : (s.publishRoot r).phase = .built := rfl
@[simp] theorem State.publishRoot_err (r : Nat) (s : State) : (s.publishRoot r).err = s.err := rfl
@[simp] theorem State.publishRoot_rfs (r : Nat) (s : State) : (s.publishRoot r).rfs = s.rfs := rfl
@[simp] theorem State.publishRoot_rcause (r : Nat) (s : State) : (s.publishRoot r).rcause = s.rcause := rfl
@[simp] theorem State.publishRoot_node (r : Nat) (s : State) : (s.publishRoot r).node = s.node := rfl
@[simp] theorem State.publishRoot_nLeaves (r : Nat) (s : State) : (s.publishRoot r).nLeaves = s.nLeaves := rfl
@[simp] theorem State.publishRoot_pq (r : Nat) (s : State) : (s.publishRoot r).pq = [] := rfl
@[simp] theorem State.publishRoot_rootValid (r : Nat) (s : State) : (s.publishRoot r).rootValid = true := rfl
@[simp] theorem State.publishRoot_root (r : Nat) (s : State) : (s.publishRoot r).root = r := rfl
@[simp] theorem State.publishRoot_cur (r : Nat) (s : State) : (s.publishRoot r).cur = r := rfl
@[simp] theorem State.publishRoot_cursor (r : Nat) (s : State) : (s.publishRoot r).cursor = s.cursor := rfl
@[simp] theorem State.publishRoot_emitCnt (r : Nat) (s : State) : (s.publishRoot r).emitCnt = s.emitCnt := rfl
@[simp] theorem State.publishRoot_channel (r : Nat) (s : State) : (s.publishRoot r).channel = s.channel := rfl
@[simp] theorem State.publishRoot_inbox (r : Nat) (s : State) : (s.publishRoot r).inbox = s.inbox := rfl
@[simp] theorem State.publishRoot_outbox (r : Nat) (s : State) : (s.publishRoot r).outbox = s.outbox := rfl

/-! ### `consumeBit` -/

@[simp] theorem State.consumeBit_cfg (s : State) : (s.consumeBit).cfg = s.cfg := rfl
@[simp] theorem State.consumeBit_phase (s : State) : (s.consumeBit).phase = s.phase := rfl
@[simp] theorem State.consumeBit_err (s : State) : (s.consumeBit).err = s.err := rfl
@[simp] theorem State.consumeBit_rfs (s : State) : (s.consumeBit).rfs = s.rfs := rfl
@[simp] theorem State.consumeBit_rcause (s : State) : (s.consumeBit).rcause = s.rcause := rfl
@[simp] theorem State.consumeBit_node (s : State) : (s.consumeBit).node = s.node := rfl
@[simp] theorem State.consumeBit_nLeaves (s : State) : (s.consumeBit).nLeaves = s.nLeaves := rfl
@[simp] theorem State.consumeBit_pq (s : State) : (s.consumeBit).pq = s.pq := rfl
@[simp] theorem State.consumeBit_rootValid (s : State) : (s.consumeBit).rootValid = s.rootValid := rfl
@[simp] theorem State.consumeBit_root (s : State) : (s.consumeBit).root = s.root := rfl
@[simp] theorem State.consumeBit_cur (s : State) : (s.consumeBit).cur = s.cur := rfl
@[simp] theorem State.consumeBit_cursor (s : State) : (s.consumeBit).cursor = s.cursor + 1 := rfl
@[simp] theorem State.consumeBit_emitCnt (s : State) : (s.consumeBit).emitCnt = s.emitCnt := rfl
@[simp] theorem State.consumeBit_channel (s : State) : (s.consumeBit).channel = s.channel := rfl
@[simp] theorem State.consumeBit_inbox (s : State) : (s.consumeBit).inbox = s.inbox := rfl
@[simp] theorem State.consumeBit_outbox (s : State) : (s.consumeBit).outbox = s.outbox := rfl

/-! ### `emit` -/

@[simp] theorem State.emit_cfg (sym : Symbol) (s : State) : (s.emit sym).cfg = s.cfg := rfl
@[simp] theorem State.emit_phase (sym : Symbol) (s : State) : (s.emit sym).phase = s.phase := rfl
@[simp] theorem State.emit_err (sym : Symbol) (s : State) : (s.emit sym).err = s.err := rfl
@[simp] theorem State.emit_rfs (sym : Symbol) (s : State) : (s.emit sym).rfs = s.rfs := rfl
@[simp] theorem State.emit_rcause (sym : Symbol) (s : State) : (s.emit sym).rcause = s.rcause := rfl
@[simp] theorem State.emit_node (sym : Symbol) (s : State) : (s.emit sym).node = s.node := rfl
@[simp] theorem State.emit_nLeaves (sym : Symbol) (s : State) : (s.emit sym).nLeaves = s.nLeaves := rfl
@[simp] theorem State.emit_pq (sym : Symbol) (s : State) : (s.emit sym).pq = s.pq := rfl
@[simp] theorem State.emit_rootValid (sym : Symbol) (s : State) : (s.emit sym).rootValid = s.rootValid := rfl
@[simp] theorem State.emit_root (sym : Symbol) (s : State) : (s.emit sym).root = s.root := rfl
@[simp] theorem State.emit_cur (sym : Symbol) (s : State) : (s.emit sym).cur = s.root := rfl
@[simp] theorem State.emit_cursor (sym : Symbol) (s : State) : (s.emit sym).cursor = s.cursor := rfl
@[simp] theorem State.emit_emitCnt (sym : Symbol) (s : State) : (s.emit sym).emitCnt = s.emitCnt + 1 := rfl
@[simp] theorem State.emit_channel (sym : Symbol) (s : State) : (s.emit sym).channel = .offered (emitWord sym) := rfl
@[simp] theorem State.emit_inbox (sym : Symbol) (s : State) : (s.emit sym).inbox = s.inbox := rfl
@[simp] theorem State.emit_outbox (sym : Symbol) (s : State) : (s.emit sym).outbox = s.outbox := rfl

/-! ### `moveTo` -/

@[simp] theorem State.moveTo_cfg (i : Nat) (s : State) : (s.moveTo i).cfg = s.cfg := rfl
@[simp] theorem State.moveTo_phase (i : Nat) (s : State) : (s.moveTo i).phase = s.phase := rfl
@[simp] theorem State.moveTo_err (i : Nat) (s : State) : (s.moveTo i).err = s.err := rfl
@[simp] theorem State.moveTo_rfs (i : Nat) (s : State) : (s.moveTo i).rfs = s.rfs := rfl
@[simp] theorem State.moveTo_rcause (i : Nat) (s : State) : (s.moveTo i).rcause = s.rcause := rfl
@[simp] theorem State.moveTo_node (i : Nat) (s : State) : (s.moveTo i).node = s.node := rfl
@[simp] theorem State.moveTo_nLeaves (i : Nat) (s : State) : (s.moveTo i).nLeaves = s.nLeaves := rfl
@[simp] theorem State.moveTo_pq (i : Nat) (s : State) : (s.moveTo i).pq = s.pq := rfl
@[simp] theorem State.moveTo_rootValid (i : Nat) (s : State) : (s.moveTo i).rootValid = s.rootValid := rfl
@[simp] theorem State.moveTo_root (i : Nat) (s : State) : (s.moveTo i).root = s.root := rfl
@[simp] theorem State.moveTo_cur (i : Nat) (s : State) : (s.moveTo i).cur = i := rfl
@[simp] theorem State.moveTo_cursor (i : Nat) (s : State) : (s.moveTo i).cursor = s.cursor := rfl
@[simp] theorem State.moveTo_emitCnt (i : Nat) (s : State) : (s.moveTo i).emitCnt = s.emitCnt := rfl
@[simp] theorem State.moveTo_channel (i : Nat) (s : State) : (s.moveTo i).channel = .offered okWord := rfl
@[simp] theorem State.moveTo_inbox (i : Nat) (s : State) : (s.moveTo i).inbox = s.inbox := rfl
@[simp] theorem State.moveTo_outbox (i : Nat) (s : State) : (s.moveTo i).outbox = s.outbox := rfl

/-! ### `present` -/

@[simp] theorem State.present_cfg (w : Word) (s : State) : (s.present w).cfg = s.cfg := rfl
@[simp] theorem State.present_phase (w : Word) (s : State) : (s.present w).phase = s.phase := rfl
@[simp] theorem State.present_err (w : Word) (s : State) : (s.present w).err = s.err := rfl
@[simp] theorem State.present_rfs (w : Word) (s : State) : (s.present w).rfs = s.rfs := rfl
@[simp] theorem State.present_rcause (w : Word) (s : State) : (s.present w).rcause = s.rcause := rfl
@[simp] theorem State.present_node (w : Word) (s : State) : (s.present w).node = s.node := rfl
@[simp] theorem State.present_nLeaves (w : Word) (s : State) : (s.present w).nLeaves = s.nLeaves := rfl
@[simp] theorem State.present_pq (w : Word) (s : State) : (s.present w).pq = s.pq := rfl
@[simp] theorem State.present_rootValid (w : Word) (s : State) : (s.present w).rootValid = s.rootValid := rfl
@[simp] theorem State.present_root (w : Word) (s : State) : (s.present w).root = s.root := rfl
@[simp] theorem State.present_cur (w : Word) (s : State) : (s.present w).cur = s.cur := rfl
@[simp] theorem State.present_cursor (w : Word) (s : State) : (s.present w).cursor = s.cursor := rfl
@[simp] theorem State.present_emitCnt (w : Word) (s : State) : (s.present w).emitCnt = s.emitCnt := rfl
@[simp] theorem State.present_channel (w : Word) (s : State) : (s.present w).channel = .idle := rfl
@[simp] theorem State.present_inbox (w : Word) (s : State) : (s.present w).inbox = .command w :: s.inbox := rfl
@[simp] theorem State.present_outbox (w : Word) (s : State) : (s.present w).outbox = s.outbox := rfl

/-! ### `noteRefusal` and `refuse`: the refusal record (R23) -/

@[simp] theorem State.noteRefusal_cfg (cause : Cause) (s : State) :
    (s.noteRefusal cause).cfg = s.cfg := by
  unfold State.noteRefusal; split <;> simp_all
@[simp] theorem State.noteRefusal_phase (cause : Cause) (s : State) :
    (s.noteRefusal cause).phase = s.phase := by
  unfold State.noteRefusal; split <;> simp_all
@[simp] theorem State.noteRefusal_err (cause : Cause) (s : State) :
    (s.noteRefusal cause).err = s.err := by
  unfold State.noteRefusal; split <;> simp_all
@[simp] theorem State.noteRefusal_rfs (cause : Cause) (s : State) :
    (s.noteRefusal cause).rfs = true := by
  unfold State.noteRefusal; split <;> simp_all
@[simp] theorem State.noteRefusal_rcause (cause : Cause) (s : State) :
    (s.noteRefusal cause).rcause = if s.rfs then s.rcause else some cause := by
  unfold State.noteRefusal; split <;> simp_all
@[simp] theorem State.noteRefusal_node (cause : Cause) (s : State) :
    (s.noteRefusal cause).node = s.node := by
  unfold State.noteRefusal; split <;> simp_all
@[simp] theorem State.noteRefusal_nLeaves (cause : Cause) (s : State) :
    (s.noteRefusal cause).nLeaves = s.nLeaves := by
  unfold State.noteRefusal; split <;> simp_all
@[simp] theorem State.noteRefusal_pq (cause : Cause) (s : State) :
    (s.noteRefusal cause).pq = s.pq := by
  unfold State.noteRefusal; split <;> simp_all
@[simp] theorem State.noteRefusal_rootValid (cause : Cause) (s : State) :
    (s.noteRefusal cause).rootValid = s.rootValid := by
  unfold State.noteRefusal; split <;> simp_all
@[simp] theorem State.noteRefusal_root (cause : Cause) (s : State) :
    (s.noteRefusal cause).root = s.root := by
  unfold State.noteRefusal; split <;> simp_all
@[simp] theorem State.noteRefusal_cur (cause : Cause) (s : State) :
    (s.noteRefusal cause).cur = s.cur := by
  unfold State.noteRefusal; split <;> simp_all
@[simp] theorem State.noteRefusal_cursor (cause : Cause) (s : State) :
    (s.noteRefusal cause).cursor = s.cursor := by
  unfold State.noteRefusal; split <;> simp_all
@[simp] theorem State.noteRefusal_emitCnt (cause : Cause) (s : State) :
    (s.noteRefusal cause).emitCnt = s.emitCnt := by
  unfold State.noteRefusal; split <;> simp_all
@[simp] theorem State.noteRefusal_channel (cause : Cause) (s : State) :
    (s.noteRefusal cause).channel = s.channel := by
  unfold State.noteRefusal; split <;> simp_all
@[simp] theorem State.noteRefusal_inbox (cause : Cause) (s : State) :
    (s.noteRefusal cause).inbox = s.inbox := by
  unfold State.noteRefusal; split <;> simp_all
@[simp] theorem State.noteRefusal_outbox (cause : Cause) (s : State) :
    (s.noteRefusal cause).outbox = s.outbox := by
  unfold State.noteRefusal; split <;> simp_all

@[simp] theorem State.refuse_cfg (cause : Cause) (s : State) :
    (s.refuse cause).cfg = s.cfg := State.noteRefusal_cfg cause s
@[simp] theorem State.refuse_phase (cause : Cause) (s : State) :
    (s.refuse cause).phase = s.phase := State.noteRefusal_phase cause s
@[simp] theorem State.refuse_err (cause : Cause) (s : State) :
    (s.refuse cause).err = s.err := State.noteRefusal_err cause s
@[simp] theorem State.refuse_rfs (cause : Cause) (s : State) :
    (s.refuse cause).rfs = true := State.noteRefusal_rfs cause s
@[simp] theorem State.refuse_rcause (cause : Cause) (s : State) :
    (s.refuse cause).rcause = if s.rfs then s.rcause else some cause := State.noteRefusal_rcause cause s
@[simp] theorem State.refuse_node (cause : Cause) (s : State) :
    (s.refuse cause).node = s.node := State.noteRefusal_node cause s
@[simp] theorem State.refuse_nLeaves (cause : Cause) (s : State) :
    (s.refuse cause).nLeaves = s.nLeaves := State.noteRefusal_nLeaves cause s
@[simp] theorem State.refuse_pq (cause : Cause) (s : State) :
    (s.refuse cause).pq = s.pq := State.noteRefusal_pq cause s
@[simp] theorem State.refuse_rootValid (cause : Cause) (s : State) :
    (s.refuse cause).rootValid = s.rootValid := State.noteRefusal_rootValid cause s
@[simp] theorem State.refuse_root (cause : Cause) (s : State) :
    (s.refuse cause).root = s.root := State.noteRefusal_root cause s
@[simp] theorem State.refuse_cur (cause : Cause) (s : State) :
    (s.refuse cause).cur = s.cur := State.noteRefusal_cur cause s
@[simp] theorem State.refuse_cursor (cause : Cause) (s : State) :
    (s.refuse cause).cursor = s.cursor := State.noteRefusal_cursor cause s
@[simp] theorem State.refuse_emitCnt (cause : Cause) (s : State) :
    (s.refuse cause).emitCnt = s.emitCnt := State.noteRefusal_emitCnt cause s
@[simp] theorem State.refuse_channel (cause : Cause) (s : State) :
    (s.refuse cause).channel = .offered (refusedWord cause) := rfl
@[simp] theorem State.refuse_inbox (cause : Cause) (s : State) :
    (s.refuse cause).inbox = s.inbox := State.noteRefusal_inbox cause s
@[simp] theorem State.refuse_outbox (cause : Cause) (s : State) :
    (s.refuse cause).outbox = s.outbox := State.noteRefusal_outbox cause s

/-! ### `deliver`, `withhold`, `offer`: only the response channel and the outbox -/

@[simp] theorem State.deliver_cfg (s : State) : s.deliver.cfg = s.cfg := by
  unfold State.deliver; split <;> rfl
@[simp] theorem State.deliver_phase (s : State) : s.deliver.phase = s.phase := by
  unfold State.deliver; split <;> rfl
@[simp] theorem State.deliver_err (s : State) : s.deliver.err = s.err := by
  unfold State.deliver; split <;> rfl
@[simp] theorem State.deliver_rfs (s : State) : s.deliver.rfs = s.rfs := by
  unfold State.deliver; split <;> rfl
@[simp] theorem State.deliver_rcause (s : State) : s.deliver.rcause = s.rcause := by
  unfold State.deliver; split <;> rfl
@[simp] theorem State.deliver_node (s : State) : s.deliver.node = s.node := by
  unfold State.deliver; split <;> rfl
@[simp] theorem State.deliver_nLeaves (s : State) : s.deliver.nLeaves = s.nLeaves := by
  unfold State.deliver; split <;> rfl
@[simp] theorem State.deliver_pq (s : State) : s.deliver.pq = s.pq := by
  unfold State.deliver; split <;> rfl
@[simp] theorem State.deliver_rootValid (s : State) : s.deliver.rootValid = s.rootValid := by
  unfold State.deliver; split <;> rfl
@[simp] theorem State.deliver_root (s : State) : s.deliver.root = s.root := by
  unfold State.deliver; split <;> rfl
@[simp] theorem State.deliver_cur (s : State) : s.deliver.cur = s.cur := by
  unfold State.deliver; split <;> rfl
@[simp] theorem State.deliver_cursor (s : State) : s.deliver.cursor = s.cursor := by
  unfold State.deliver; split <;> rfl
@[simp] theorem State.deliver_emitCnt (s : State) : s.deliver.emitCnt = s.emitCnt := by
  unfold State.deliver; split <;> rfl
@[simp] theorem State.deliver_inbox (s : State) : s.deliver.inbox = s.inbox := by
  unfold State.deliver; split <;> rfl

@[simp] theorem State.withhold_cfg (s : State) : s.withhold.cfg = s.cfg := by
  unfold State.withhold; split <;> rfl
@[simp] theorem State.withhold_phase (s : State) : s.withhold.phase = s.phase := by
  unfold State.withhold; split <;> rfl
@[simp] theorem State.withhold_err (s : State) : s.withhold.err = s.err := by
  unfold State.withhold; split <;> rfl
@[simp] theorem State.withhold_rfs (s : State) : s.withhold.rfs = s.rfs := by
  unfold State.withhold; split <;> rfl
@[simp] theorem State.withhold_rcause (s : State) : s.withhold.rcause = s.rcause := by
  unfold State.withhold; split <;> rfl
@[simp] theorem State.withhold_node (s : State) : s.withhold.node = s.node := by
  unfold State.withhold; split <;> rfl
@[simp] theorem State.withhold_nLeaves (s : State) : s.withhold.nLeaves = s.nLeaves := by
  unfold State.withhold; split <;> rfl
@[simp] theorem State.withhold_pq (s : State) : s.withhold.pq = s.pq := by
  unfold State.withhold; split <;> rfl
@[simp] theorem State.withhold_rootValid (s : State) : s.withhold.rootValid = s.rootValid := by
  unfold State.withhold; split <;> rfl
@[simp] theorem State.withhold_root (s : State) : s.withhold.root = s.root := by
  unfold State.withhold; split <;> rfl
@[simp] theorem State.withhold_cur (s : State) : s.withhold.cur = s.cur := by
  unfold State.withhold; split <;> rfl
@[simp] theorem State.withhold_cursor (s : State) : s.withhold.cursor = s.cursor := by
  unfold State.withhold; split <;> rfl
@[simp] theorem State.withhold_emitCnt (s : State) : s.withhold.emitCnt = s.emitCnt := by
  unfold State.withhold; split <;> rfl
@[simp] theorem State.withhold_inbox (s : State) : s.withhold.inbox = s.inbox := by
  unfold State.withhold; split <;> rfl
@[simp] theorem State.withhold_outbox (s : State) : s.withhold.outbox = s.outbox := by
  unfold State.withhold; split <;> rfl

@[simp] theorem State.offer_cfg (s : State) : s.offer.cfg = s.cfg := by
  unfold State.offer; split <;> rfl
@[simp] theorem State.offer_phase (s : State) : s.offer.phase = s.phase := by
  unfold State.offer; split <;> rfl
@[simp] theorem State.offer_err (s : State) : s.offer.err = s.err := by
  unfold State.offer; split <;> rfl
@[simp] theorem State.offer_rfs (s : State) : s.offer.rfs = s.rfs := by
  unfold State.offer; split <;> rfl
@[simp] theorem State.offer_rcause (s : State) : s.offer.rcause = s.rcause := by
  unfold State.offer; split <;> rfl
@[simp] theorem State.offer_node (s : State) : s.offer.node = s.node := by
  unfold State.offer; split <;> rfl
@[simp] theorem State.offer_nLeaves (s : State) : s.offer.nLeaves = s.nLeaves := by
  unfold State.offer; split <;> rfl
@[simp] theorem State.offer_pq (s : State) : s.offer.pq = s.pq := by
  unfold State.offer; split <;> rfl
@[simp] theorem State.offer_rootValid (s : State) : s.offer.rootValid = s.rootValid := by
  unfold State.offer; split <;> rfl
@[simp] theorem State.offer_root (s : State) : s.offer.root = s.root := by
  unfold State.offer; split <;> rfl
@[simp] theorem State.offer_cur (s : State) : s.offer.cur = s.cur := by
  unfold State.offer; split <;> rfl
@[simp] theorem State.offer_cursor (s : State) : s.offer.cursor = s.cursor := by
  unfold State.offer; split <;> rfl
@[simp] theorem State.offer_emitCnt (s : State) : s.offer.emitCnt = s.emitCnt := by
  unfold State.offer; split <;> rfl
@[simp] theorem State.offer_inbox (s : State) : s.offer.inbox = s.inbox := by
  unfold State.offer; split <;> rfl
@[simp] theorem State.offer_outbox (s : State) : s.offer.outbox = s.outbox := by
  unfold State.offer; split <;> rfl

@[simp] theorem State.deliver_channel (s : State) : s.deliver.channel = .idle := by
  unfold State.deliver; split <;> simp_all

theorem State.deliver_of_offered (s : State) (r : Word) (h : s.channel = .offered r) :
    s.deliver = { s with channel := .idle, outbox := s.outbox ++ [r] } := by
  simp [State.deliver, h]

theorem State.deliver_of_idle (s : State) (h : s.channel = .idle) : s.deliver = s := by
  simp [State.deliver, h]

@[simp] theorem State.deliver_withhold (s : State) : s.withhold.deliver = s.deliver := by
  unfold State.withhold; split
  · simp [State.deliver, *]
  · rfl

@[simp] theorem State.deliver_offer (s : State) : s.offer.deliver = s.deliver := by
  unfold State.offer; split
  · simp [State.deliver, *]
  · rfl

@[simp] theorem State.deliver_deliver (s : State) : s.deliver.deliver = s.deliver :=
  State.deliver_of_idle _ (State.deliver_channel s)

/-! ### The state after reset -/

@[simp] theorem State.resetIn_cfg (c : Config) : (State.resetIn c).cfg = c := rfl
@[simp] theorem State.resetIn_phase (c : Config) : (State.resetIn c).phase = .collect := rfl
@[simp] theorem State.resetIn_err (c : Config) : (State.resetIn c).err = none := rfl
@[simp] theorem State.resetIn_rfs (c : Config) : (State.resetIn c).rfs = false := rfl
@[simp] theorem State.resetIn_rcause (c : Config) : (State.resetIn c).rcause = none := rfl
@[simp] theorem State.resetIn_node (c : Config) : (State.resetIn c).node = [] := rfl
@[simp] theorem State.resetIn_nLeaves (c : Config) : (State.resetIn c).nLeaves = 0 := rfl
@[simp] theorem State.resetIn_pq (c : Config) : (State.resetIn c).pq = [] := rfl
@[simp] theorem State.resetIn_rootValid (c : Config) : (State.resetIn c).rootValid = false := rfl
@[simp] theorem State.resetIn_root (c : Config) : (State.resetIn c).root = 0 := rfl
@[simp] theorem State.resetIn_cur (c : Config) : (State.resetIn c).cur = 0 := rfl
@[simp] theorem State.resetIn_cursor (c : Config) : (State.resetIn c).cursor = 0 := rfl
@[simp] theorem State.resetIn_emitCnt (c : Config) : (State.resetIn c).emitCnt = 0 := rfl
@[simp] theorem State.resetIn_channel (c : Config) : (State.resetIn c).channel = .idle := rfl
@[simp] theorem State.resetIn_inbox (c : Config) : (State.resetIn c).inbox = [] := rfl
@[simp] theorem State.resetIn_outbox (c : Config) : (State.resetIn c).outbox = [] := rfl

end Sys2Proof.Machine
end

