-- ==== Sys2Proof/Laws/Ops.lean ====
section
/-! SUPPORT. For each shared operation, one lemma that says what it can do. -/

namespace Sys2Proof.Machine

/-! ### Node memory (R62, R64) -/

theorem nodeRead_eq_ok {m : Memory} {i : Nat} {r : NodeRec} : nodeRead m i = .ok r ↔ m[i]? = some r := by
  unfold nodeRead
  cases h : m[i]? <;> simp

theorem nodeRead_eq_error {m : Memory} {i : Nat} {e : Fault} :
    nodeRead m i = .error e ↔ m.length ≤ i ∧ e = .unwrittenNode i := by
  unfold nodeRead
  cases h : m[i]? with
  | none => simp_all [eq_comm]
  | some r =>
    have := (List.getElem?_eq_some_iff.mp h).1
    simp; omega

@[simp] theorem nodeWrite_length (m : Memory) (r : NodeRec) : (nodeWrite m r).length = m.length + 1 := by
  simp [nodeWrite]

/-- A read at the index written gives the record written. -/
theorem nodeRead_write_same (m : Memory) (r : NodeRec) : nodeRead (nodeWrite m r) m.length = .ok r := by
  simp [nodeRead_eq_ok, nodeWrite]

/-- A write leaves every other entry as it was. -/
theorem nodeRead_write_other (m : Memory) (r : NodeRec) (i : Nat) (h : i < m.length) :
    nodeRead (nodeWrite m r) i = nodeRead m i := by
  simp [nodeRead, nodeWrite, List.getElem?_append_left h]

theorem getElem?_write_of_lt {m : Memory} {r x : NodeRec} {i : Nat} (h : m[i]? = some x) : (m ++ [r])[i]? = some x := by
  rw [List.getElem?_append_left (List.getElem?_eq_some_iff.mp h).1, h]

/-- A record that is in order stays in order when the memory grows. -/
theorem recordWf_append (c : Config) (m : Memory) (r x : NodeRec) (i : Nat) (h : recordWf c m i x = true) :
    recordWf c (m ++ [r]) i x = true := by
  cases x with
  | leaf sym f => simpa [recordWf] using h
  | internal f left right =>
    simp only [recordWf, Bool.and_eq_true] at h ⊢
    refine ⟨h.1, ?_⟩
    have h2 := h.2
    cases hl : m[left]? with
    | none => simp [hl] at h2
    | some a =>
      cases hr : m[right]? with
      | none => simp [hl, hr] at h2
      | some b =>
        rw [getElem?_write_of_lt hl, getElem?_write_of_lt hr]
        simpa [hl, hr] using h2

/-- The one write there is keeps the memory's form, if there is room and the record is in order. -/
theorem Memory.wf_write (c : Config) (m : Memory) (r : NodeRec) (h : Memory.wf c m) (room : m.length < c.nodeCap)
    (hr : recordWf c m m.length r = true) : Memory.wf c (nodeWrite m r) := by
  refine ⟨by simpa [nodeWrite] using room, fun i hi => ?_⟩
  unfold nodeWrite at hi ⊢
  by_cases hlt : i < m.length
  · rw [List.getElem_append_left hlt]
    exact recordWf_append c m r _ i (h.2 i hlt)
  · have hi' : i = m.length := by simp at hi; omega
    subst hi'
    simpa using recordWf_append c m r r m.length hr

theorem Memory.wf_nil (c : Config) : Memory.wf c [] := by simp [Memory.wf]

/-! ### The set `pq` (R29) -/

@[simp] theorem mem_pqInsert (i j : Nat) (l : List Nat) : j ∈ pqInsert i l ↔ j = i ∨ j ∈ l := by
  induction l with
  | nil => simp [pqInsert]
  | cons x xs ih =>
    unfold pqInsert
    split
    · simp
    · split
      · subst_vars; simp
      · simp only [List.mem_cons, ih]; tauto

/-- Insertion keeps the canonical form. -/
theorem pqWf_insert (i : Nat) (l : List Nat) (h : pqWf l) : pqWf (pqInsert i l) := by
  induction l with
  | nil => simp [pqInsert, pqWf]
  | cons x xs ih =>
    have hx := List.pairwise_cons.mp h
    unfold pqInsert
    split
    · rename_i hlt
      refine List.pairwise_cons.mpr ⟨fun y hy => ?_, h⟩
      rcases List.mem_cons.mp hy with rfl | hy
      · exact hlt
      · exact lt_trans hlt (hx.1 y hy)
    · split
      · exact h
      · refine List.pairwise_cons.mpr ⟨fun y hy => ?_, ih hx.2⟩
        rcases (mem_pqInsert i y xs).mp hy with rfl | hy
        · omega
        · exact hx.1 y hy

theorem pqInsert_of_lt (i : Nat) (l : List Nat) (h : ∀ j ∈ l, j < i) : pqInsert i l = l ++ [i] := by
  induction l with
  | nil => rfl
  | cons x xs ih =>
    have hx := h x (by simp)
    unfold pqInsert
    rw [if_neg (by omega), if_neg (by omega), ih fun j hj => h j (by simp [hj])]
    rfl

theorem pqWf_nodup {l : List Nat} (h : pqWf l) : l.Nodup := h.imp fun hlt => Nat.ne_of_lt hlt

/-- Taking a member out of a set leaves the others. -/
theorem pqWf_erase_eq {l : List Nat} (i : Nat) (h : pqWf l) : l.erase i = l.filter (· ≠ i) := by
  rw [(pqWf_nodup h).erase_eq_filter]
  congr 1
  funext j
  by_cases hj : j = i <;> simp [bne, hj]

theorem pqWf_erase {l : List Nat} (i : Nat) (h : pqWf l) : pqWf (l.erase i) := h.sublist List.erase_sublist

/-! ### `PopMin` (R31) -/

/-- `keyLt` is the lexicographic order of R31. -/
theorem keyLt_iff (a b : Key) : keyLt a b = true ↔ a.1 < b.1 ∨ (a.1 = b.1 ∧ a.2 < b.2) := by simp [keyLt]

/-- What a member's key is. -/
theorem keysOf_ok {m : Memory} {pq : List Nat} {ks : List Key} (h : keysOf m pq = .ok ks) :
    ks.map Prod.snd = pq ∧ ∀ k ∈ ks, m[k.2]?.map NodeRec.freq = some k.1 := by
  induction pq generalizing ks with
  | nil => simp [keysOf] at h; subst h; simp
  | cons i is ih =>
    unfold keysOf at h
    cases hr : nodeRead m i with
    | error e => simp [hr] at h
    | ok r =>
      cases hk : keysOf m is with
      | error e => simp [hr, hk] at h
      | ok ks' =>
        simp [hr, hk] at h
        obtain ⟨h1, h2⟩ := ih hk
        subst h
        simp only [List.map_cons, h1, List.mem_cons, true_and]
        rintro k (rfl | hk')
        · simp [nodeRead_eq_ok.mp hr]
        · exact h2 k hk'

theorem keysOf_of_written {m : Memory} {pq : List Nat} (h : ∀ i ∈ pq, i < m.length) :
    ∃ ks, keysOf m pq = .ok ks := by
  induction pq with
  | nil => exact ⟨[], rfl⟩
  | cons i is ih =>
    obtain ⟨ks, hks⟩ := ih fun j hj => h j (by simp [hj])
    have hlt := h i (by simp)
    have hi := nodeRead_eq_ok.mpr (List.getElem?_eq_getElem hlt)
    exact ⟨(m[i].freq, i) :: ks, by simp [keysOf, hi, hks]⟩

/-- `leastKey` gives a key of the list, and no key of the list is below it. -/
theorem leastKey_spec (k : Key) (ks : List Key) :
    leastKey k ks ∈ k :: ks ∧ ∀ x ∈ k :: ks, keyLt x (leastKey k ks) = false := by
  induction ks generalizing k with
  | nil => simp [leastKey, keyLt]
  | cons x xs ih =>
    unfold leastKey
    obtain ⟨h1, h2⟩ := ih (if keyLt x k = true then x else k)
    have irr : ∀ a b c : Key, keyLt a b = false → keyLt b c = false → keyLt a c = false := by
      intro a b c hab hbc
      rw [Bool.eq_false_iff, ne_eq, keyLt_iff] at *
      omega
    have asym : keyLt x k = true → keyLt k x = false := by
      intro h
      rw [keyLt_iff] at h
      rw [Bool.eq_false_iff, ne_eq, keyLt_iff]
      omega
    split at h1 <;> rename_i hc <;> simp only [hc, if_true, if_false, Bool.false_eq_true] at h2 ⊢
    · refine ⟨by rcases List.mem_cons.mp h1 with h | h <;> simp [h], fun y hy => ?_⟩
      rcases List.mem_cons.mp hy with rfl | hy
      · exact irr _ _ _ (asym hc) (h2 x (by simp))
      · exact h2 y hy
    · refine ⟨by rcases List.mem_cons.mp h1 with h | h <;> simp [h], fun y hy => ?_⟩
      rcases List.mem_cons.mp hy with rfl | hy
      · exact h2 _ (by simp)
      · rcases List.mem_cons.mp hy with rfl | hy
        · exact irr _ _ _ (by simpa using hc) (h2 k (by simp))
        · exact h2 y (by simp [hy])

/-- `PopMin` of a set of written entries: `none` when it is empty, else its least member and the rest of it. -/
theorem popMin_spec {m : Memory} {pq : List Nat} (h : ∀ i ∈ pq, i < m.length) (ne : pq ≠ []) :
    ∃ a, popMin m pq = .ok (some (a, pq.erase a.2)) ∧ a.2 ∈ pq ∧ m[a.2]?.map NodeRec.freq = some a.1 ∧
      ∀ j ∈ pq, j ≠ a.2 → ∀ f, m[j]?.map NodeRec.freq = some f → a.1 < f ∨ (a.1 = f ∧ a.2 < j) := by
  obtain ⟨ks, hks⟩ := keysOf_of_written h
  obtain ⟨h1, h2⟩ := keysOf_ok hks
  cases ks with
  | nil => simp at h1; exact absurd h1 ne
  | cons k ks =>
    obtain ⟨hmem, hleast⟩ := leastKey_spec k ks
    refine ⟨leastKey k ks, by simp [popMin, hks], ?_, h2 _ hmem, fun j hj hne f hf => ?_⟩
    · rw [← h1]; exact List.mem_map_of_mem hmem
    · rw [← h1] at hj
      obtain ⟨x, hx, rfl⟩ := List.mem_map.mp hj
      have hxf := h2 x hx
      rw [hf] at hxf
      have hfx : f = x.1 := by simpa using hxf
      have := hleast x hx
      rw [Bool.eq_false_iff, ne_eq, keyLt_iff] at this
      omega

theorem popMin_nil (m : Memory) : popMin m [] = .ok none := rfl

/-- `PopMin` never answers `none` on a set with a member. -/
theorem popMin_eq_none {m : Memory} {pq : List Nat} (h : popMin m pq = .ok none) : pq = [] := by
  unfold popMin at h
  cases hk : keysOf m pq with
  | error e => simp [hk] at h
  | ok ks =>
    cases ks with
    | nil => have := (keysOf_ok hk).1; simpa using this.symm
    | cons k ks => simp [hk] at h

/-- Whatever `PopMin` takes out of a set was in it. -/
theorem popMin_eq_some {m : Memory} {pq rest : List Nat} {a : Key} (h : popMin m pq = .ok (some (a, rest))) :
    rest = pq.erase a.2 ∧ a.2 ∈ pq ∧ m[a.2]?.map NodeRec.freq = some a.1 := by
  unfold popMin at h
  cases hk : keysOf m pq with
  | error e => simp [hk] at h
  | ok ks =>
    cases ks with
    | nil => simp [hk] at h
    | cons k ks =>
      simp [hk] at h
      obtain ⟨h1, h2⟩ := keysOf_ok hk
      obtain ⟨rfl, rfl⟩ := h
      have hmem := (leastKey_spec k ks).1
      refine ⟨rfl, ?_, h2 _ hmem⟩
      rw [← h1]; exact List.mem_map_of_mem hmem

/-! ### The merge step and the merge loop (R116 to R118, R122) -/

/-- A merge step that merges, said once: it took two members of `pq`, wrote their Internal record and put its index into
`pq`; nothing else changed. -/
theorem mergeStep_merged {s t : State} (h : mergeStep s = .ok (.merged t)) :
    ∃ a b : Key, a.2 ∈ s.pq ∧ b.2 ∈ s.pq.erase a.2 ∧
      s.node[a.2]?.map NodeRec.freq = some a.1 ∧ s.node[b.2]?.map NodeRec.freq = some b.1 ∧
      a.1 + b.1 < s.cfg.freqLimit ∧
      t = { s with
        node := s.node ++ [.internal (a.1 + b.1) a.2 b.2],
        pq := pqInsert s.node.length ((s.pq.erase a.2).erase b.2) } := by
  unfold mergeStep at h
  split at h
  · simp at h
  · simp at h
  · rename_i a pq1 ha
    split at h
    · simp at h
    · simp at h
    · rename_i b pq2 hb
      obtain ⟨rfl, hamem, haf⟩ := popMin_eq_some ha
      obtain ⟨rfl, hbmem, hbf⟩ := popMin_eq_some hb
      split at h
      · simp at h
      · rename_i hlt
        simp only [Except.ok.injEq, MergeResult.merged.injEq] at h
        exact ⟨a, b, hamem, hbmem, haf, hbf, by omega, h.symm⟩

/-- A merge step over two written members or more answers: it merges the two keys it takes, or their sum does not fit. -/
theorem mergeStep_of_two {s : State} (h : ∀ i ∈ s.pq, i < s.node.length) (h2 : 2 ≤ s.pq.length) :
    ∃ a b : Key, a.2 ∈ s.pq ∧ b.2 ∈ s.pq.erase a.2 ∧
      s.node[a.2]?.map NodeRec.freq = some a.1 ∧ s.node[b.2]?.map NodeRec.freq = some b.1 ∧
      ((a.1 + b.1 < s.cfg.freqLimit ∧ ∃ t, mergeStep s = .ok (.merged t)) ∨
       (s.cfg.freqLimit ≤ a.1 + b.1 ∧ mergeStep s = .ok .overflow)) := by
  obtain ⟨a, ha, hamem, haf, _⟩ := popMin_spec h (by intro e; simp [e] at h2)
  have hq : s.pq.erase a.2 ≠ [] := by
    intro e
    have := List.length_erase_of_mem hamem
    simp [e] at this
    omega
  obtain ⟨b, hb, hbmem, hbf, _⟩ := popMin_spec (m := s.node) (fun i hi => h i (List.mem_of_mem_erase hi)) hq
  refine ⟨a, b, hamem, hbmem, haf, hbf, ?_⟩
  by_cases hc : s.cfg.freqLimit ≤ a.1 + b.1
  · exact .inr ⟨hc, by simp [mergeStep, ha, hb, hc]⟩
  · exact .inl ⟨by omega, _, by simp only [mergeStep, ha, hb, hc, if_false]; rfl⟩

/-- With fewer than two written members the loop is over. -/
theorem mergeStep_of_few {s : State} (h : ∀ i ∈ s.pq, i < s.node.length) (h2 : s.pq.length ≤ 1) :
    mergeStep s = .ok .finished := by
  match hq : s.pq, h2 with
  | [], _ => simp [mergeStep, hq, popMin_nil]
  | [i], _ =>
    rw [hq] at h
    obtain ⟨a, ha, hamem, haf, _⟩ := popMin_spec h (by simp)
    have : a.2 = i := by simpa using hamem
    rw [this] at ha
    simp [mergeStep, hq, ha, popMin_nil]

/-- A merge step changes nothing but the node memory and `pq`. -/
theorem mergeStep_frame {s t : State} (h : mergeStep s = .ok (.merged t)) :
    t = { s with node := t.node, pq := t.pq } := by
  obtain ⟨a, b, _, _, _, _, _, rfl⟩ := mergeStep_merged h
  rfl

/-- A merge step only adds a record. -/
theorem mergeStep_prefix {s t : State} (h : mergeStep s = .ok (.merged t)) : s.node <+: t.node := by
  obtain ⟨a, b, _, _, _, _, _, rfl⟩ := mergeStep_merged h
  exact List.prefix_append _ _

/-- What the merge loop can end in: a state that differs in the node memory and `pq` only, the memory having grown. -/
theorem mergeLoop_frame {n : Nat} {s : State} {r : BuildResult} (h : mergeLoop n s = .ok r) :
    ∃ t, (r = .complete t ∨ r = .overflow t) ∧ t = { s with node := t.node, pq := t.pq } ∧ s.node <+: t.node := by
  induction n generalizing s with
  | zero => simp [mergeLoop] at h; exact ⟨s, Or.inl h.symm, rfl, List.prefix_rfl⟩
  | succ n ih =>
    unfold mergeLoop at h
    split at h
    · simp at h
    · simp at h; exact ⟨s, Or.inl h.symm, rfl, List.prefix_rfl⟩
    · simp at h; exact ⟨s, Or.inr h.symm, rfl, List.prefix_rfl⟩
    · rename_i s' hs'
      obtain ⟨t, hr, ht, hp⟩ := ih h
      have hf := mergeStep_frame hs'
      refine ⟨t, hr, ?_, (mergeStep_prefix hs').trans hp⟩
      rw [ht, hf]

end Sys2Proof.Machine
end

