-- ==== Sys2Proof/Laws/Forest.lean ====
section
/-! SUPPORT. Laws of the forest that the node memory and `pq` form (10_state.md R27 to R29, R55): how its measures grow
with a record, and what its invariant says of sizes and indices. -/

namespace Sys2Proof.Machine

/-! ### One more record -/

theorem childIndices_append (m : Memory) (r : NodeRec) : childIndices (m ++ [r]) = childIndices m ++ r.children := by
  simp [childIndices]

theorem leafSymbols_append (m : Memory) (r : NodeRec) :
    leafSymbols (m ++ [r]) = leafSymbols m ++ (match r.sym? with | some a => [a] | none => []) := by
  cases r <;> simp [leafSymbols, NodeRec.sym?]

theorem leafSum_append (m : Memory) (r : NodeRec) :
    leafSum (m ++ [r]) = leafSum m + (if r.isLeaf then r.freq else 0) := by
  cases r <;> simp [leafSum, NodeRec.isLeaf, NodeRec.freq, List.filter_cons]

/-- A new record does not change the sum over older indices. -/
theorem freqSum_append (m : Memory) (r : NodeRec) (is : List Nat) (h : ∀ i ∈ is, i < m.length) :
    freqSum (m ++ [r]) is = freqSum m is := by
  unfold freqSum
  congr 1
  exact List.filterMap_congr fun i hi => by rw [List.getElem?_append_left (h i hi)]

/-! ### Sums over sets of indices -/

theorem freqSum_nil (m : Memory) : freqSum m [] = 0 := rfl

theorem freqSum_cons {m : Memory} {i f : Nat} (is : List Nat) (h : m[i]?.map NodeRec.freq = some f) :
    freqSum m (i :: is) = f + freqSum m is := by
  simp [freqSum, h]

theorem freqSum_perm {m : Memory} {is js : List Nat} (h : is.Perm js) : freqSum m is = freqSum m js :=
  (h.filterMap _).sum_nat

theorem freqSum_concat {m : Memory} {i f : Nat} (is : List Nat) (h : m[i]?.map NodeRec.freq = some f) :
    freqSum m (is ++ [i]) = freqSum m is + f := by
  simp [freqSum, h]

/-! ### Sizes -/

/-- Two children for each record that is no Leaf. -/
theorem childIndices_length (m : Memory) : (childIndices m).length + 2 * m.countP NodeRec.isLeaf = 2 * m.length := by
  induction m with
  | nil => rfl
  | cons r m ih =>
    cases r <;> simp [childIndices, NodeRec.children, NodeRec.isLeaf, List.countP_cons] at ih ⊢ <;> omega

/-- When the Leaf records are the first `n`, there are `n` of them. -/
theorem countP_isLeaf {m : Memory} {n : Nat} (h : ∀ i, (hi : i < m.length) → (m[i].isLeaf = true ↔ i < n))
    (hn : n ≤ m.length) : m.countP NodeRec.isLeaf = n := by
  induction m generalizing n with
  | nil => simp at hn; simp [hn]
  | cons r m ih =>
    have tail : ∀ i, (hi : i < m.length) → (m[i].isLeaf = true ↔ i + 1 < n) := fun i hi =>
      h (i + 1) (by simpa using hi)
    have head : r.isLeaf = true ↔ 0 < n := h 0 (by simp)
    have := ih (n := n - 1) (fun i hi => (tail i hi).trans (by omega)) (by simp at hn; omega)
    rw [List.countP_cons, this]
    split <;> rename_i hb <;> rw [head] at hb <;> omega

/-- A forest over `L` leaves with `k` roots has `2L - k` records. -/
theorem State.ForestInv.size {s : State} (h : s.ForestInv) : s.forestRoots.length + s.node.length = 2 * s.nLeaves := by
  obtain ⟨_, _, ⟨_, hl, _⟩, hleaf, _, hperm, _⟩ := h
  have h1 := hperm.length_eq
  have h2 := childIndices_length s.node
  rw [countP_isLeaf hleaf hl] at h2
  simp at h1
  omega

/-! ### Indices -/

theorem State.ForestInv.roots_lt {s : State} (h : s.ForestInv) : ∀ i ∈ s.forestRoots, i < s.node.length := by
  obtain ⟨_, _, _, _, _, hperm, _⟩ := h
  intro i hi
  exact List.mem_range.mp (hperm.mem_iff.mp (List.mem_append_right _ hi))

theorem State.ForestInv.pq_lt {s : State} (h : s.ForestInv) : ∀ i ∈ s.pq, i < s.node.length := by
  intro i hi
  refine h.roots_lt i ?_
  unfold State.forestRoots
  split <;> simp [hi]

/-- An index is the child of at most one record, on one side. -/
theorem State.ForestInv.children_nodup {s : State} (h : s.ForestInv) : (childIndices s.node).Nodup := by
  obtain ⟨_, _, _, _, _, hperm, _⟩ := h
  exact (List.nodup_append.mp (hperm.nodup_iff.mpr List.nodup_range)).1

/-- What a written Internal record says of its children. -/
theorem Memory.wf_internal {c : Config} {m : Memory} {i f l r : Nat} (h : Memory.wf c m)
    (hi : m[i]? = some (.internal f l r)) :
    f < c.freqLimit ∧ l < i ∧ r < i ∧ l ≠ r ∧
      ∃ a b, m[l]? = some a ∧ m[r]? = some b ∧ f = a.freq + b.freq := by
  obtain ⟨hlt, he⟩ := List.getElem?_eq_some_iff.mp hi
  have := h.2 i hlt
  rw [he] at this
  have hl : l < m.length := by simp [recordWf] at this; omega
  have hr : r < m.length := by simp [recordWf] at this; omega
  simp [recordWf, List.getElem?_eq_getElem hl, List.getElem?_eq_getElem hr] at this
  obtain ⟨⟨⟨⟨h1, h2⟩, h3⟩, h4⟩, h5⟩ := this
  exact ⟨h1, h2, h3, h4, m[l], m[r], List.getElem?_eq_getElem hl, List.getElem?_eq_getElem hr, h5⟩

/-- The index of a written child is among the children of its memory. -/
theorem mem_childIndices {m : Memory} {i f l r : Nat} (hi : m[i]? = some (.internal f l r)) (b : Bool) :
    (if b then r else l) ∈ childIndices m := by
  refine List.mem_flatMap.mpr ⟨_, List.mem_of_getElem? hi, ?_⟩
  cases b <;> simp [NodeRec.children]

end Sys2Proof.Machine
end

