-- ==== Sys2Proof/Laws/Layout.lean ====
section
/-! SUPPORT. Reading the fields of words built by concatenation: the two general facts, and the fields of a response
word (30_encoding.md R91, R92). -/

namespace Sys2Proof.Machine

/-- A field that lies in the low part of a concatenation. -/
theorem extract_append_low {n m : Nat} (x : BitVec n) (y : BitVec m) (start len : Nat) (h : start + len ≤ m) :
    (x ++ y).extractLsb' start len = y.extractLsb' start len := by
  apply BitVec.eq_of_getLsbD_eq
  intro i hi
  simp [hi, BitVec.getLsbD_append, show start + i < m by omega]

/-- A field that lies in the high part of a concatenation. -/
theorem extract_append_high {n m : Nat} (x : BitVec n) (y : BitVec m) (start len : Nat) (h : m ≤ start) :
    (x ++ y).extractLsb' start len = x.extractLsb' (start - m) len := by
  apply BitVec.eq_of_getLsbD_eq
  intro i hi
  simp [hi, BitVec.getLsbD_append, show ¬ start + i < m by omega, show start + i - m = start - m + i by omega]

/-- A field that is the whole of a vector. -/
theorem extract_all {n : Nat} (x : BitVec n) : x.extractLsb' 0 n = x := by
  apply BitVec.eq_of_getLsbD_eq
  intro i hi
  simp [hi]

@[simp] theorem respKind_respWord (k c : BitVec 4) (p : Payload) : respKind (respWord k c p) = k :=
  (extract_append_high (k ++ c) p 60 4 (by decide)).trans
    ((extract_append_high k c 4 4 (by decide)).trans (extract_all k))

@[simp] theorem respCode_respWord (k c : BitVec 4) (p : Payload) : respCode (respWord k c p) = c :=
  (extract_append_high (k ++ c) p 56 4 (by decide)).trans
    ((extract_append_low k c 0 4 (by decide)).trans (extract_all c))

@[simp] theorem respPayload_respWord (k c : BitVec 4) (p : Payload) : respPayload (respWord k c p) = p :=
  (extract_append_low (k ++ c) p 0 56 (by decide)).trans (extract_all p)

@[simp] theorem respKind_okWord : respKind okWord = 0 := respKind_respWord _ _ _

@[simp] theorem respKind_dataWord (p : Payload) : respKind (dataWord p) = 1 := respKind_respWord _ _ _

@[simp] theorem respKind_emitWord (sym : Symbol) : respKind (emitWord sym) = 2 := respKind_respWord _ _ _

@[simp] theorem respKind_faultWord (f : FaultCode) : respKind (faultWord f) = 3 := respKind_respWord _ _ _

@[simp] theorem respKind_refusedWord (c : Cause) : respKind (refusedWord c) = 4 := respKind_respWord _ _ _

@[simp] theorem respCode_refusedWord (c : Cause) : respCode (refusedWord c) = causeCode c := respCode_respWord _ _ _

@[simp] theorem respCode_faultWord (f : FaultCode) : respCode (faultWord f) = f.code := respCode_respWord _ _ _

@[simp] theorem respPayload_dataWord (p : Payload) : respPayload (dataWord p) = p := respPayload_respWord _ _ _

/-- The host reads the symbol out of an `EMIT` response (R95). -/
@[simp] theorem respSymbol_emitWord (sym : Symbol) : respSymbol (emitWord sym) = sym := by
  unfold respSymbol emitWord
  rw [respPayload_respWord]
  apply BitVec.eq_of_getLsbD_eq
  intro i hi
  simp [hi]
  omega

/-- The causes have different codes (R207). -/
theorem causeCode_injective {a b : Cause} (h : causeCode a = causeCode b) : a = b := by
  cases a <;> cases b <;> simp_all [causeCode]

end Sys2Proof.Machine
end

