-- ==== Sys2Proof/Laws/Codes.lean ====
section
/-! SUPPORT. Laws of walks, code tables, frequency maps and emitted symbols (43_reference_functions.md). -/

namespace Sys2Proof.Machine

/-- A walk goes on where its first part ends. -/
theorem walk_append (m : Memory) (p q : List Bool) (i : Nat) :
    walk m i (p ++ q) = (walk m i p).bind fun k => walk m k q := by
  induction p generalizing i with
  | nil => rfl
  | cons b p ih =>
    simp only [List.cons_append, walk]
    split
    · exact ih _
    · rfl

/-- Each entry of a code table is the walk to a leaf of its symbol, or the digit 1 when that walk is empty (R174, R175). -/
theorem codesFrom_walk (m : Memory) (n i : Nat) (path : List Bool) : ∀ e ∈ codesFrom m n i path,
    ∃ p k f, walk m i p = some k ∧ m[k]? = some (.leaf e.1 f) ∧
      e.2 = (if path ++ p = [] then [true] else path ++ p) := by
  induction n generalizing i path with
  | zero => simp [codesFrom]
  | succ n ih =>
    intro e he
    unfold codesFrom at he
    split at he <;> rename_i h
    · simp at he
    · simp at he
      subst he
      exact ⟨[], i, _, rfl, h, by simp⟩
    · simp only [List.mem_append] at he
      rcases he with he | he <;> obtain ⟨p, k, f, h1, h2, h3⟩ := ih _ _ e he
      · exact ⟨false :: p, k, f, by simp [walk, h, h1], h2, by simpa using h3⟩
      · exact ⟨true :: p, k, f, by simp [walk, h, h1], h2, by simpa using h3⟩

/-- Looking a symbol up finds an entry of the table. -/
theorem mem_of_codeOf {t : CodeTable} {a : Symbol} {code : List Bool} (h : codeOf t a = some code) : (a, code) ∈ t := by
  obtain ⟨l1, l2, h1, _⟩ := List.lookup_eq_some_iff.mp h
  simp [h1]

theorem mem_firstOccurrences (t : List Symbol) (a : Symbol) : a ∈ firstOccurrences t ↔ a ∈ t := by
  induction t with
  | nil => simp [firstOccurrences]
  | cons x t ih =>
    simp only [firstOccurrences, List.mem_cons, List.mem_filter, ih]
    by_cases h : a = x <;> simp [h]

theorem firstOccurrences_nodup (t : List Symbol) : (firstOccurrences t).Nodup := by
  induction t with
  | nil => simp [firstOccurrences]
  | cons x t ih =>
    simp only [firstOccurrences, List.nodup_cons, List.mem_filter]
    exact ⟨by simp, ih.filter _⟩

/-- Presenting a map pushes each key with its exact count, or, when some count does not fit, nothing (R172, R173). -/
theorem pushInOrder_eq (c : Config) (order text : List Symbol) :
    pushInOrder c order text =
      if ∀ s ∈ order, text.count s < c.freqLimit then
        some (order.map fun s => .pushLeaf s (BitVec.ofNat 32 (text.count s)))
      else none := by
  induction order with
  | nil => simp [pushInOrder]
  | cons s rest ih =>
    simp only [pushInOrder, pushCount, ih, List.forall_mem_cons]
    by_cases h : text.count s < c.freqLimit
    · by_cases hr : ∀ s ∈ rest, text.count s < c.freqLimit
      · rw [if_pos h, if_pos hr, if_pos ⟨h, hr⟩]
        rfl
      · rw [if_pos h, if_neg hr, if_neg fun k => hr k.2]
    · have hn : ¬(text.count s < c.freqLimit ∧ ∀ s ∈ rest, text.count s < c.freqLimit) := fun k => h k.1
      rw [if_neg h, if_neg hn]

/-- A count that is presented fits 32 bits, so the operand is the count itself (R172). -/
theorem pushCount_toNat {c : Config} {s : Symbol} {n : Nat} {i : Instr} (hc : c.Legal) (h : pushCount c s n = some i) :
    ∃ freq : BitVec 32, i = .pushLeaf s freq ∧ freq.toNat = n := by
  unfold pushCount at h
  split at h
  · rename_i hn
    have hp : 2 ^ c.freqW ≤ 2 ^ 32 := Nat.pow_le_pow_right (by decide) hc.2.1.2
    simp only [Config.freqLimit] at hn
    exact ⟨_, (Option.some.inj h).symm, by simp only [BitVec.toNat_ofNat]; omega⟩
  · cases h

theorem emitted_append (a b : List Word) : emitted (a ++ b) = emitted a ++ emitted b := by simp [emitted]

/-- `OK` responses carry no symbol. -/
theorem emitted_ok (n : Nat) : emitted (List.replicate n okWord) = [] := by
  simp [emitted]

/-- An `EMIT` response carries its symbol (R95). -/
theorem emitted_emitWord (sym : Symbol) : emitted [emitWord sym] = [sym] := by
  have h1 := respKind_emitWord sym
  have h2 := respSymbol_emitWord sym
  simp only [emitted, List.filterMap_cons, h1, if_true, h2, List.filterMap_nil]

end Sys2Proof.Machine
end

