-- ==== Sys2Proof/Laws/Decode.lean ====
section
/-! SUPPORT. The fields of a packed word, and the small facts about operands that decoding and encoding rest on. -/

namespace Sys2Proof

theorem packWord_getLsbD (op : BitVec 8) (a : BitVec 24) (b : BitVec 32) (i : Nat) :
    (packWord op a b).getLsbD i =
      if i < 32 then b.getLsbD i else if i - 32 < 24 then a.getLsbD (i - 32) else op.getLsbD (i - 32 - 24) := by
  have h1 := BitVec.getLsbD_append (x := op ++ a) (y := b) (i := i)
  have h2 := BitVec.getLsbD_append (x := op) (y := a) (i := i - 32)
  rw [h2] at h1
  exact h1

@[simp] theorem opField_pack (op : BitVec 8) (a : BitVec 24) (b : BitVec 32) : opField (packWord op a b) = op := by
  apply BitVec.eq_of_getLsbD_eq
  intro i hi
  simp [opField, packWord_getLsbD, hi, show ¬ (56 + i < 32) by omega, show ¬ (56 + i - 32 < 24) by omega,
    show 56 + i - 32 - 24 = i by omega]

@[simp] theorem aField_pack (op : BitVec 8) (a : BitVec 24) (b : BitVec 32) : aField (packWord op a b) = a := by
  apply BitVec.eq_of_getLsbD_eq
  intro i hi
  simp [aField, packWord_getLsbD, hi]

@[simp] theorem bField_pack (op : BitVec 8) (a : BitVec 24) (b : BitVec 32) : bField (packWord op a b) = b := by
  apply BitVec.eq_of_getLsbD_eq
  intro i hi
  simp [bField, packWord_getLsbD, hi]

/-- A word is its three fields (R84). -/
theorem packWord_fields (w : Word) : packWord (opField w) (aField w) (bField w) = w := by
  apply BitVec.eq_of_getLsbD_eq
  intro i hi
  rw [packWord_getLsbD]
  by_cases h1 : i < 32
  · simp [bField, h1]
  · by_cases h2 : i - 32 < 24
    · simp [aField, h1, h2, show 32 + (i - 32) = i by omega]
    · simp [opField, h1, h2, show 56 + (i - 32 - 24) = i by omega]
      omega

theorem statusRegOf_number (n : StatusReg) : statusRegOf n.number = some n := by cases n <;> rfl

theorem number_of_statusRegOf {b : BitVec 32} {n : StatusReg} (h : statusRegOf b = some n) : n.number = b := by
  unfold statusRegOf at h
  split at h <;> simp at h
  all_goals subst h; apply BitVec.eq_of_toNat_eq; simp [StatusReg.number, *]

/-- Exactly the numbers 0 to 8 name a register (R44). -/
theorem statusRegOf_eq_none {b : BitVec 32} : statusRegOf b = none ↔ 9 ≤ b.toNat := by
  unfold statusRegOf
  split <;> simp_all <;> omega

/-- A symbol operand with no reserved bit set is the whole of `A` (R86). -/
theorem symOperand_setWidth (w : Word) (h : symReserved w = 0) : (symOperand w).setWidth 24 = aField w := by
  apply BitVec.eq_of_getLsbD_eq
  intro i hi
  by_cases h1 : i < 21
  · simp [symOperand, h1, hi]
  · have := congrArg (fun x => x.getLsbD (i - 21)) h
    simp [symReserved, show i - 21 < 3 by omega, show 21 + (i - 21) = i by omega] at this
    simp [symOperand, h1, this]

theorem symOperand_toNat (w : Word) : (symOperand w).toNat = (aField w).toNat % 2 ^ 21 := by
  simp [symOperand]

theorem symReserved_toNat (w : Word) : (symReserved w).toNat = (aField w).toNat / 2 ^ 21 := by
  have := (aField w).isLt
  simp [symReserved, Nat.shiftRight_eq_div_pow]
  omega

theorem bitReserved_toNat (w : Word) : (bitReserved w).toNat = (bField w).toNat / 2 := by
  have := (bField w).isLt
  simp [bitReserved, Nat.shiftRight_eq_div_pow]
  omega

/-- A bit operand with no reserved bit set is the whole of `B` (R86). -/
theorem bitOperand_eq (w : Word) (h : bitReserved w = 0) : (if bitOperand w then 1 else 0 : BitVec 32) = bField w := by
  apply BitVec.eq_of_getLsbD_eq
  intro i hi
  by_cases h1 : i = 0
  · subst h1
    cases hb : bitOperand w <;> simp_all [bitOperand]
  · have := congrArg (fun x => x.getLsbD (i - 1)) h
    simp [bitReserved, show i - 1 < 31 by omega, show 1 + (i - 1) = i by omega] at this
    rw [this]
    cases bitOperand w <;> simp [h1]

@[simp] theorem symOperand_pack (op : BitVec 8) (sym : Symbol) (b : BitVec 32) :
    symOperand (packWord op (sym.setWidth 24) b) = sym := by
  apply BitVec.eq_of_getLsbD_eq
  intro i hi
  simp [symOperand, hi]
  omega

@[simp] theorem symReserved_pack (op : BitVec 8) (sym : Symbol) (b : BitVec 32) :
    symReserved (packWord op (sym.setWidth 24) b) = 0 := by
  apply BitVec.eq_of_getLsbD_eq
  intro i hi
  simp [symReserved]

/-- The opcode of a command's word (R85). -/
@[simp] theorem opField_encode (i : Instr) : opField (encode i) = i.opcode := by
  cases i <;> simp [encode, Instr.opcode]

end Sys2Proof
end

