-- ==== Sys2Proof/Laws/Exec.lean ====
section
/-! SUPPORT. For each meaning, one lemma that says everything it can do when it answers a next state; then the same of a
command word, from which statements about every command follow. -/

namespace Sys2Proof.Machine

theorem execPushLeaf_cases {sym : Symbol} {freq : BitVec 32} {s t : State}
    (h : execPushLeaf sym freq s = .next t) :
    (s.phase ≠ .collect ∧ t = s.refuse .badPhase) ∨
    (s.phase = .collect ∧ hasSymbol s.node sym = true ∧ t = s.refuse .dupSymbol) ∨
    (s.phase = .collect ∧ hasSymbol s.node sym = false ∧ s.nLeaves = s.cfg.maxLeaves ∧ t = s.refuse .capacity) ∨
    (s.phase = .collect ∧ hasSymbol s.node sym = false ∧ s.nLeaves ≠ s.cfg.maxLeaves ∧
      t = (s.insertLeaf sym freq.toNat).respond okWord) := by
  unfold execPushLeaf at h
  split at h
  · simp_all
  · split at h
    · simp_all
    · split at h <;> simp_all

theorem execBuild_cases {s t : State} (h : execBuild s = .next t) :
    (s.phase ≠ .collect ∧ t = s.refuse .badPhase) ∨
    (s.phase = .collect ∧ s.pq = [] ∧ t = s.raiseFault .invalidInput) ∨
    (∃ u, s.phase = .collect ∧ s.pq ≠ [] ∧ mergeLoop s.pq.length s = .ok (.overflow u) ∧
      t = u.raiseFault .freqOverflow) ∨
    (∃ u r, s.phase = .collect ∧ s.pq ≠ [] ∧ mergeLoop s.pq.length s = .ok (.complete u) ∧
      t = (u.publishRoot r).respond okWord) := by
  unfold execBuild at h
  split at h
  · simp_all
  · rename_i hp
    simp only [ne_eq, Decidable.not_not] at hp
    split at h
    · simp_all
    · rename_i first rest hpq
      split at h
      · simp at h
      · rename_i u hu
        simp only [Host.Outcome.next.injEq] at h
        exact .inr (.inr (.inl ⟨u, hp, by simp [hpq], hu, h.symm⟩))
      · rename_i u hu
        simp only [Host.Outcome.next.injEq] at h
        exact .inr (.inr (.inr ⟨u, _, hp, by simp [hpq], hu, h.symm⟩))

theorem execDecStart_cases {s t : State} (h : execDecStart s = .next t) :
    (s.phase ≠ .built ∧ t = s.refuse .badPhase) ∨
    (s.phase = .built ∧
      t = { s with cur := s.root, cursor := 0, emitCnt := 0, phase := .decoding, channel := .offered okWord }) := by
  unfold execDecStart at h
  split at h <;> simp_all [State.respond]

theorem childOf_eq_ok {m : Memory} {i n : Nat} {b : Bool} (h : childOf m i b = .ok n) :
    ∃ f l r, m[i]? = some (.internal f l r) ∧ n = if b then r else l := by
  unfold childOf at h
  split at h
  · simp at h
  · simp at h
  · rename_i f l r hr
    exact ⟨f, l, r, nodeRead_eq_ok.mp hr, by simpa using h.symm⟩

theorem execDecBit_cases {b : Bool} {s t : State} (h : execDecBit b s = .next t) :
    (s.phase ≠ .decoding ∧ t = s.refuse .badPhase) ∨
    (s.phase = .decoding ∧ s.cursor = s.cfg.cntMax ∧ t = s.refuse .limit) ∨
    (s.phase = .decoding ∧ s.cursor ≠ s.cfg.cntMax ∧
      ((∃ sym f, s.node[s.root]? = some (.leaf sym f) ∧
          t = { s with cursor := s.cursor + 1, emitCnt := s.emitCnt + 1, channel := .offered (emitWord sym) }) ∨
       (∃ fr lr rr f l r, s.node[s.root]? = some (.internal fr lr rr) ∧ s.node[s.cur]? = some (.internal f l r) ∧
          ((∃ sym g, s.node[if b then r else l]? = some (.leaf sym g) ∧
              t = { s with cursor := s.cursor + 1, emitCnt := s.emitCnt + 1, cur := s.root,
                           channel := .offered (emitWord sym) }) ∨
           (∃ g l' r', s.node[if b then r else l]? = some (.internal g l' r') ∧
              t = { s with cursor := s.cursor + 1, cur := if b then r else l, channel := .offered okWord }))))) := by
  unfold execDecBit at h
  split at h
  · simp_all
  · rename_i hp
    simp only [ne_eq, Decidable.not_not] at hp
    split at h
    · simp_all
    · rename_i hc
      refine .inr (.inr ⟨hp, hc, ?_⟩)
      split at h
      · simp at h
      · rename_i sym f hr
        simp only [Host.Outcome.next.injEq] at h
        exact .inl ⟨sym, f, nodeRead_eq_ok.mp hr, h.symm⟩
      · rename_i fr lr rr hr
        unfold walkBit at h
        split at h
        · simp at h
        · rename_i nxt hn
          obtain ⟨f, l, r, hcur, rfl⟩ := childOf_eq_ok hn
          refine .inr ⟨fr, lr, rr, f, l, r, nodeRead_eq_ok.mp hr, hcur, ?_⟩
          split at h
          · simp at h
          · rename_i sym g hx
            simp only [Host.Outcome.next.injEq] at h
            exact .inl ⟨sym, g, nodeRead_eq_ok.mp hx, h.symm⟩
          · rename_i g l' r' hx
            simp only [Host.Outcome.next.injEq] at h
            exact .inr ⟨g, l', r', nodeRead_eq_ok.mp hx, h.symm⟩

theorem execDecEnd_cases {s t : State} (h : execDecEnd s = .next t) :
    (s.phase ≠ .decoding ∧ t = s.refuse .badPhase) ∨
    (s.phase = .decoding ∧ s.cur ≠ s.root ∧ t = s.raiseFault .corruptData) ∨
    (s.phase = .decoding ∧ s.cur = s.root ∧ t = { s with phase := .built, channel := .offered okWord }) := by
  unfold execDecEnd at h
  split at h
  · simp_all
  · split at h <;> simp_all [State.respond]

theorem execRdNode_cases {i : BitVec 32} {s t : State} (h : execRdNode i s = .next t) :
    (s.node.length ≤ i.toNat ∧ t = s.refuse .unwritten) ∨
    (∃ r, s.node[i.toNat]? = some r ∧ t = s.respond (dataWord (recordLayout r))) := by
  unfold execRdNode at h
  split at h
  · rename_i hn
    simp only [Host.Outcome.next.injEq] at h
    exact .inl ⟨List.getElem?_eq_none_iff.mp hn, h.symm⟩
  · rename_i r hr
    simp only [Host.Outcome.next.injEq] at h
    exact .inr ⟨r, hr, h.symm⟩

/-- A command word that answers: refused by the static decode, or the command it decodes to. -/
theorem runWord_cases {w : Word} {s t : State} (h : runWord w s = .next t) :
    (∃ cause, decode s.cfg w = .error cause ∧ t = s.refuse cause) ∨
    (∃ i, decode s.cfg w = .ok i ∧ exec i s = .next t) := by
  unfold runWord at h
  split at h
  · rename_i cause hd
    simp only [Host.Outcome.next.injEq] at h
    exact .inl ⟨cause, hd, h.symm⟩
  · rename_i i hd
    exact .inr ⟨i, hd, h⟩

/-- Everything a command word can do. -/
inductive Effect (w : Word) (s : State) : State → Prop
  /-- A refusal. -/
  | refused (cause : Cause) (hd : decode s.cfg w ≠ .ok .clear) : Effect w s (s.refuse cause)
  /-- `CLEAR`. -/
  | cleared (hd : decode s.cfg w = .ok .clear) : Effect w s (s.clearAll.respond okWord)
  /-- `PUSH_LEAF`. -/
  | pushed (sym : Symbol) (freq : BitVec 32) (hd : decode s.cfg w = .ok (.pushLeaf sym freq))
      (hp : s.phase = .collect) (hs : hasSymbol s.node sym = false) (hn : s.nLeaves ≠ s.cfg.maxLeaves) :
      Effect w s ((s.insertLeaf sym freq.toNat).respond okWord)
  /-- `BUILD` of nothing. -/
  | buildEmpty (hd : decode s.cfg w = .ok .build) (hp : s.phase = .collect) (hq : s.pq = []) :
      Effect w s (s.raiseFault .invalidInput)
  /-- `BUILD` that overflows. -/
  | buildOverflow (u : State) (hd : decode s.cfg w = .ok .build) (hp : s.phase = .collect) (hq : s.pq ≠ [])
      (hm : mergeLoop s.pq.length s = .ok (.overflow u)) : Effect w s (u.raiseFault .freqOverflow)
  /-- `BUILD` that completes. -/
  | built (u : State) (r : Nat) (hd : decode s.cfg w = .ok .build) (hp : s.phase = .collect) (hq : s.pq ≠ [])
      (hm : mergeLoop s.pq.length s = .ok (.complete u)) : Effect w s ((u.publishRoot r).respond okWord)
  /-- `DEC_START`. -/
  | started (hd : decode s.cfg w = .ok .decStart) (hp : s.phase = .built) :
      Effect w s { s with cur := s.root, cursor := 0, emitCnt := 0, phase := .decoding, channel := .offered okWord }
  /-- `DEC_BIT` that emits; `i` is where the position is afterwards. -/
  | emitted (b : Bool) (sym : Symbol) (i : Nat) (hd : decode s.cfg w = .ok (.decBit b)) (hp : s.phase = .decoding)
      (hc : s.cursor ≠ s.cfg.cntMax) (hi : i = s.cur ∨ i = s.root) :
      Effect w s { s with cursor := s.cursor + 1, emitCnt := s.emitCnt + 1, cur := i, channel := .offered (emitWord sym) }
  /-- `DEC_BIT` that moves. -/
  | moved (b : Bool) (i : Nat) (hd : decode s.cfg w = .ok (.decBit b)) (hp : s.phase = .decoding)
      (hc : s.cursor ≠ s.cfg.cntMax) (hi : i < s.node.length) :
      Effect w s { s with cursor := s.cursor + 1, cur := i, channel := .offered okWord }
  /-- `DEC_END` off the root. -/
  | corrupt (hd : decode s.cfg w = .ok .decEnd) (hp : s.phase = .decoding) (hc : s.cur ≠ s.root) :
      Effect w s (s.raiseFault .corruptData)
  /-- `DEC_END` at the root. -/
  | ended (hd : decode s.cfg w = .ok .decEnd) (hp : s.phase = .decoding) (hc : s.cur = s.root) :
      Effect w s { s with phase := .built, channel := .offered okWord }
  /-- `RD_REG`, `RD_NODE`. -/
  | read (p : Payload) (hd : (∃ n, decode s.cfg w = .ok (.rdReg n)) ∨ ∃ k, decode s.cfg w = .ok (.rdNode k)) :
      Effect w s (s.respond (dataWord p))

/-- What a command word does is one of the effects. -/
theorem runWord_effect {w : Word} {s t : State} (h : runWord w s = .next t) : Effect w s t := by
  rcases runWord_cases h with ⟨cause, hd, rfl⟩ | ⟨i, hd, he⟩
  · exact .refused cause (by simp [hd])
  · cases i with
    | clear =>
      simp only [exec, execClear, Host.Outcome.next.injEq] at he
      exact he ▸ .cleared hd
    | pushLeaf sym freq =>
      rcases execPushLeaf_cases he with ⟨_, rfl⟩ | ⟨_, _, rfl⟩ | ⟨_, _, _, rfl⟩ | ⟨hp, hs, hn, rfl⟩
      · exact .refused _ (by simp [hd])
      · exact .refused _ (by simp [hd])
      · exact .refused _ (by simp [hd])
      · exact .pushed sym freq hd hp hs hn
    | build =>
      rcases execBuild_cases he with ⟨_, rfl⟩ | ⟨hp, hq, rfl⟩ | ⟨u, hp, hq, hm, rfl⟩ | ⟨u, r, hp, hq, hm, rfl⟩
      · exact .refused _ (by simp [hd])
      · exact .buildEmpty hd hp hq
      · exact .buildOverflow u hd hp hq hm
      · exact .built u r hd hp hq hm
    | decStart =>
      rcases execDecStart_cases he with ⟨_, rfl⟩ | ⟨hp, rfl⟩
      · exact .refused _ (by simp [hd])
      · exact .started hd hp
    | decBit b =>
      rcases execDecBit_cases he with ⟨_, rfl⟩ | ⟨_, _, rfl⟩ | ⟨hp, hc, h⟩
      · exact .refused _ (by simp [hd])
      · exact .refused _ (by simp [hd])
      · rcases h with ⟨sym, f, _, rfl⟩ | ⟨fr, lr, rr, f, l, r, _, _, ⟨sym, g, _, rfl⟩ | ⟨g, l', r', hx, rfl⟩⟩
        · exact .emitted b sym s.cur hd hp hc (.inl rfl)
        · exact .emitted b sym s.root hd hp hc (.inr rfl)
        · exact .moved b _ hd hp hc (List.getElem?_eq_some_iff.mp hx).1
    | decEnd =>
      rcases execDecEnd_cases he with ⟨_, rfl⟩ | ⟨hp, hc, rfl⟩ | ⟨hp, hc, rfl⟩
      · exact .refused _ (by simp [hd])
      · exact .corrupt hd hp hc
      · exact .ended hd hp hc
    | rdReg n =>
      simp only [exec, execRdReg, Host.Outcome.next.injEq] at he
      exact he ▸ .read _ (.inl ⟨n, hd⟩)
    | rdNode k =>
      rcases execRdNode_cases he with ⟨_, rfl⟩ | ⟨r, _, rfl⟩
      · exact .refused _ (by simp [hd])
      · exact .read _ (.inr ⟨k, hd⟩)

/-- Every command that answers leaves its response offered (R82, R90). -/
theorem runWord_offers {w : Word} {s t : State} (h : runWord w s = .next t) : ∃ r, t.channel = .offered r := by
  cases runWord_effect h <;> exact ⟨_, rfl⟩

/-- No command changes the parameters or the host's side (R42). -/
theorem runWord_frame {w : Word} {s t : State} (h : runWord w s = .next t) :
    t.cfg = s.cfg ∧ t.inbox = s.inbox ∧ t.outbox = s.outbox := by
  cases runWord_effect h with
  | buildOverflow u _ _ _ hm =>
    obtain ⟨v, hv, hf, _⟩ := mergeLoop_frame hm
    obtain rfl : u = v := by simpa using hv
    rw [hf]; exact ⟨rfl, rfl, rfl⟩
  | built u r _ _ _ hm =>
    obtain ⟨v, hv, hf, _⟩ := mergeLoop_frame hm
    obtain rfl : u = v := by simpa using hv
    rw [hf]; exact ⟨rfl, rfl, rfl⟩
  | _ => simp

end Sys2Proof.Machine
end

