-- ==== Sys2Proof/Laws/Command.lean ====
section
/-! SUPPORT. Laws of whole commands and of sequences of them: the response each one adds, and what the host makes of it. -/

namespace Sys2Proof.Machine

/-- A response on offer is transferred. -/
theorem State.deliver_offered {s : State} {r : Word} (h : s.channel = .offered r) :
    s.deliver = { s with channel := .idle, outbox := s.outbox ++ [r] } := by simp [State.deliver, h]

/-- The whole command whose word decodes and whose meaning answers. -/
theorem command_of_exec {i : Instr} {w : Word} {s t : State} {r : Word} (hd : decode s.cfg w = .ok i)
    (h : exec i s = .next t) (hr : t.channel = .offered r) :
    command w s = .next { t with channel := .idle, outbox := t.outbox ++ [r] } := by
  simp only [command, runWord, hd, h, State.deliver_offered hr]

/-- A command adds one response and leaves the parameters and the inbox. -/
theorem command_next {w : Word} {s t : State} (h : command w s = .next t) :
    ∃ u r, runWord w s = .next u ∧ u.channel = .offered r ∧ t = { u with channel := .idle, outbox := s.outbox ++ [r] } ∧
      t.cfg = s.cfg ∧ t.inbox = s.inbox := by
  unfold command at h
  split at h
  · rename_i u hu
    obtain ⟨r, hr⟩ := runWord_offers hu
    obtain ⟨f1, f2, f3⟩ := runWord_frame hu
    rw [State.deliver_offered hr] at h
    simp only [Host.Outcome.next.injEq] at h
    subst h
    exact ⟨u, r, hu, hr, by rw [f3], f1, f2⟩
  · simp at h
  · simp at h

/-- A sequence is run piece after piece. -/
theorem commands_append (xs ys : List Word) (s : State) :
    commands (xs ++ ys) s = (match commands xs s with
      | .next t => commands ys t
      | .fault e => .fault e
      | .refused r => .refused r) := by
  induction xs generalizing s with
  | nil => rfl
  | cons x xs ih =>
    simp only [List.cons_append, commands]
    cases command x s with
    | next t => exact ih t
    | fault e => rfl
    | refused r => rfl

/-- A sequence adds one response for each of its words. -/
theorem commands_outbox (ws : List Word) {s t : State} (h : commands ws s = .next t) :
    ∃ rs, t.outbox = s.outbox ++ rs ∧ rs.length = ws.length := by
  induction ws generalizing s with
  | nil =>
    simp only [commands, Host.Outcome.next.injEq] at h
    exact ⟨[], by simp [h], rfl⟩
  | cons w ws ih =>
    simp only [commands] at h
    split at h
    · rename_i u hu
      obtain ⟨rs, h1, h2⟩ := ih h
      obtain ⟨v, r, _, _, hv, _⟩ := command_next hu
      exact ⟨r :: rs, by rw [h1, hv]; simp, by simp [h2]⟩
    · simp at h
    · simp at h

/-! ### The host's side -/

/-- The host takes a response that is no failure. -/
theorem issue_ok {i : Instr} {s u : State} {r : Word} (h : command (encode i) s = .next u)
    (ho : u.outbox = s.outbox ++ [r]) (hr : failureOf r = none) : issue i s = .ok (r, u) := by
  simp [issue, h, ho, hr]

/-- The host takes a response that is a failure. -/
theorem issue_failed {i : Instr} {s u : State} {r : Word} {e : HostError} (h : command (encode i) s = .next u)
    (ho : u.outbox = s.outbox ++ [r]) (hr : failureOf r = some e) : issue i s = .error e := by
  simp [issue, h, ho, hr]

theorem issueAll_append (xs ys : List Instr) (s : State) :
    issueAll (xs ++ ys) s = (match issueAll xs s with
      | .error e => .error e
      | .ok (rs, t) =>
        match issueAll ys t with
        | .error e => .error e
        | .ok (rs', u) => .ok (rs ++ rs', u)) := by
  induction xs generalizing s with
  | nil => simp only [issueAll, List.nil_append]; cases issueAll ys s <;> rfl
  | cons x xs ih =>
    simp only [issueAll, List.cons_append, ih]
    cases issue x s with
    | error e => rfl
    | ok p =>
      obtain ⟨r, t⟩ := p
      simp only []
      cases issueAll xs t with
      | error e => rfl
      | ok q =>
        obtain ⟨rs, u⟩ := q
        simp only []
        cases issueAll ys u <;> rfl

/-- Commands that all answer without failure, as the host issues them. -/
theorem issueAll_ok (is : List Instr) {s t : State} {rs : List Word} (h : commands (is.map encode) s = .next t)
    (ho : t.outbox = s.outbox ++ rs) (hr : ∀ r ∈ rs, failureOf r = none) : issueAll is s = .ok (rs, t) := by
  induction is generalizing s rs with
  | nil =>
    simp only [List.map_nil, commands, Host.Outcome.next.injEq] at h
    subst h
    simp at ho
    subst ho
    rfl
  | cons i is ih =>
    simp only [List.map_cons, commands] at h
    split at h
    · rename_i u hu
      obtain ⟨v, r, _, _, hv, _⟩ := command_next hu
      have o1 : u.outbox = s.outbox ++ [r] := by rw [hv]
      obtain ⟨r2, o2, _⟩ := commands_outbox _ h
      rw [o2, o1] at ho
      simp at ho
      subst ho
      simp at hr
      simp only [issueAll, issue_ok hu o1 hr.1, ih h o2 hr.2]
    · simp at h
    · simp at h

end Sys2Proof.Machine
end

