-- ==== Sys2Proof/Laws/Invariant.lean ====
section
/-! SUPPORT. What the invariant of R55 says of the state in each phase, said once, and that it does not look at the
response channel or the host's side. -/

namespace Sys2Proof.Machine

/-- The invariant looks at the architectural state only, and at the refusal record only through R23. -/
theorem State.Inv.congr {s t : State} (h : s.Inv)
    (e : t = { s with
      channel := t.channel, inbox := t.inbox, outbox := t.outbox, rfs := t.rfs, rcause := t.rcause })
    (hr : t.rcause ≠ none ↔ t.rfs = true) : t.Inv := by
  obtain ⟨h1, h2, h3, h4, h5, h6⟩ := h
  rw [e]
  exact ⟨h1, h2, ⟨h3.1, hr⟩, h4, h5, h6⟩

/-- No fault is recorded outside `FAILED` (R22). -/
theorem State.Inv.err_none {s : State} (h : s.Inv) (hp : s.phase ≠ .failed) : s.err = none := by
  by_contra he
  exact hp (h.2.2.1.1.mp he)

/-- In `BUILT` and `DECODING` there is a root (R33). -/
theorem State.Inv.root_valid {s : State} (h : s.Inv) (hp : s.phase = .built ∨ s.phase = .decoding) :
    s.rootValid = true :=
  h.2.2.2.1.1.mpr (by rcases hp with h | h <;> simp [h])

/-- In `COLLECT` there is no root and no fault, and every record is a pushed leaf, all of them in `pq` (R30). -/
theorem State.Inv.collect {s : State} (h : s.Inv) (hp : s.phase = .collect) :
    s.rootValid = false ∧ s.err = none ∧ s.node.length = s.nLeaves ∧ s.pq.length = s.nLeaves ∧ s.root = 0 ∧ s.cur = 0 := by
  have he := h.err_none (by simp [hp])
  obtain ⟨_, hf, hr, hroot, hph, _⟩ := h
  have hv : s.rootValid = false := by
    rw [Bool.eq_false_iff]
    intro hv
    rcases hroot.1.mp hv with h | h | h <;> simp [hp] at h
  have hsize := hf.size
  have := hph.1 hp
  refine ⟨hv, he, this, ?_, (hroot.2.2 hv).1, (hroot.2.2 hv).2.1⟩
  simp [State.forestRoots, hv] at hsize
  omega

/-- With a valid root the tree is finished, the root is its last record, and the position is a written index (R27, R33). -/
theorem State.Inv.rooted {s : State} (h : s.Inv) (hv : s.rootValid = true) :
    s.node.length = 2 * s.nLeaves - 1 ∧ s.root + 1 = s.node.length ∧ s.cur < s.node.length ∧ s.pq = [] ∧
      1 ≤ s.nLeaves := by
  obtain ⟨a, b, c, d⟩ := h.2.2.2.1.2.1 hv
  exact ⟨b, c, d, a, by omega⟩

/-- The root is a Leaf exactly when the tree has one leaf. -/
theorem State.Inv.root_isLeaf {s : State} (h : s.Inv) (hv : s.rootValid = true) :
    s.node[s.root]?.map NodeRec.isLeaf = some true ↔ s.nLeaves = 1 := by
  obtain ⟨f1, f2, _, _, _⟩ := h.rooted hv
  have hlt : s.root < s.node.length := by omega
  have := h.2.1.2.2.2.1 s.root hlt
  rw [List.getElem?_eq_getElem hlt]
  simp only [Option.map_some, Option.some.injEq]
  rw [this]
  omega

/-- There are at most 2047 records, so an index fits its 11 bits (R6, R25). -/
theorem State.Inv.length_le {s : State} (h : s.Inv) : s.node.length ≤ 2047 := by
  have h1 := h.2.1.1.1
  have h2 := h.1.2.2.1.2.2
  simp [Config.nodeCap] at h1
  omega

end Sys2Proof.Machine
end

