-- ==== Sys2Proof/Laws/PerInstr.lean ====
section
/-! SUPPORT. A statement about every command as syntax, one lemma per constructor: its word matches its row of
spec/opcode_table.json, and every field the row says must be zero is zero. -/

namespace Sys2Proof.Laws.TableRow

/-- The number in bits 63 to 56 of the row's `match`. -/
def rowOpcode : Instr → Nat
  | .clear => 0x01
  | .pushLeaf _ _ => 0x02
  | .build => 0x03
  | .decStart => 0x04
  | .decBit _ => 0x05
  | .decEnd => 0x06
  | .rdReg _ => 0x07
  | .rdNode _ => 0x08

/-- The fields the row says must be zero, in the word `w`. -/
def mustBeZero (w : Word) : Instr → Prop
  | .clear => aField w = 0 ∧ bField w = 0
  | .pushLeaf _ _ => symReserved w = 0
  | .build => aField w = 0 ∧ bField w = 0
  | .decStart => aField w = 0 ∧ bField w = 0
  | .decBit _ => aField w = 0 ∧ bitReserved w = 0
  | .decEnd => aField w = 0 ∧ bField w = 0
  | .rdReg _ => aField w = 0 ∧ (bField w).toNat ≤ 8
  | .rdNode _ => aField w = 0

/-- The command's word has its row's opcode, and zero in every field the row says must be zero. -/
def Statement (i : Instr) : Prop := (opField (encode i)).toNat = rowOpcode i ∧ mustBeZero (encode i) i

theorem clear : Statement .clear := by simp [Statement, rowOpcode, mustBeZero, encode]

theorem pushLeaf (sym : Symbol) (freq : BitVec 32) : Statement (.pushLeaf sym freq) := by
  simp [Statement, rowOpcode, mustBeZero, encode]

theorem build : Statement .build := by simp [Statement, rowOpcode, mustBeZero, encode]

theorem decStart : Statement .decStart := by simp [Statement, rowOpcode, mustBeZero, encode]

theorem decBit (b : Bool) : Statement (.decBit b) := by
  cases b <;> simp [Statement, rowOpcode, mustBeZero, encode, bitReserved]

theorem decEnd : Statement .decEnd := by simp [Statement, rowOpcode, mustBeZero, encode]

theorem rdReg (n : StatusReg) : Statement (.rdReg n) := by
  cases n <;> simp [Statement, rowOpcode, mustBeZero, encode, StatusReg.number]

theorem rdNode (i : BitVec 32) : Statement (.rdNode i) := by
  simp [Statement, rowOpcode, mustBeZero, encode]

end Sys2Proof.Laws.TableRow
end

