-- ==== Sys2Proof/Tests/Slice0.lean ====
section
/-! SUPPORT. Tests on fixed values, whose expected results are taken from the spec's own examples and vectors
(95_test_vectors.md) or worked out by hand from its rules, and a witness for each statement that has hypotheses. -/

namespace Sys2Proof.Tests

open Sys2Proof Sys2Proof.Machine Sys2Proof.Claims

/-! ### Small states -/

/-- The state of a next-state outcome. -/
def nextOf : Host.Outcome State Fault Refusal → State
  | .next t => t
  | .fault _ => State.reset
  | .refused _ => State.reset

/-- The response word a command's outcome offers. -/
def answer : Host.Outcome State Fault Refusal → Option Word
  | .next t => (match t.channel with | .offered r => some r | .executing _ => none | .idle => none)
  | .fault _ => none
  | .refused _ => none

/-- The bits of an encode that succeeds. -/
def encodedBits : Except HostError (List Bool × State) → Option (List Bool)
  | .ok (bits, _) => some bits
  | .error _ => none

/-- A configuration with for a symbol, a frequency and a counter, and room for two leaves. -/
def tinyConfig : Config := { symW := 1, freqW := 1, maxLeaves := 2, cntW := 1 }

/-- `COLLECT` with the leaf `a` of frequency 4 (vector V2). -/
def oneLeaf : State := { State.reset with node := [.leaf 0x61 4], nLeaves := 1, pq := [0] }

/-- `COLLECT` with three leaves `a`, `b`, `c` of frequencies 1, 1, 3. -/
def threeLeaves : State :=
  { State.reset with node := [.leaf 0x61 1, .leaf 0x62 1, .leaf 0x63 3], nLeaves := 3, pq := [0, 1, 2] }

/-- The same after the first merge. -/
def merged3 : State :=
  { threeLeaves with node := [.leaf 0x61 1, .leaf 0x62 1, .leaf 0x63 3, .internal 2 0 1], pq := [2, 3] }

/-- `COLLECT` with two leaves that fill the tiny configuration, whose sum does not fit. -/
def tinyTwo : State :=
  { State.resetIn tinyConfig with node := [.leaf 0 1, .leaf 1 1], nLeaves := 2, pq := [0, 1] }

/-- `BUILT` with the one-leaf tree of `aaaa` (program P1). -/
def built1 : State := { oneLeaf with pq := [], rootValid := true, phase := .built }

/-- `BUILT` with the tree of the three leaves: codes `a` 00, `b` 01, `c` 1. -/
def built3 : State :=
  { threeLeaves with
    node := [.leaf 0x61 1, .leaf 0x62 1, .leaf 0x63 3, .internal 2 0 1, .internal 5 3 2],
    pq := [], rootValid := true, root := 4, cur := 4, phase := .built }

/-- A session open on the one-leaf tree. -/
def session1 : State := { built1 with phase := .decoding }

/-- A session open on the three-leaf tree, at the root. -/
def session3 : State := { built3 with phase := .decoding }

/-- The same one digit down the path of `a`. -/
def midway3 : State := { session3 with cur := 3, cursor := 1 }

/-- A session at the counter's limit in the tiny configuration. -/
def limited : State :=
  { State.resetIn tinyConfig with
    node := [.leaf 0 1], nLeaves := 1, rootValid := true, phase := .decoding, cursor := 1, emitCnt := 1 }

/-- `FAILED` after a session ended midway. -/
def failed3 : State := { midway3 with err := some .corruptData, phase := .failed }

/-- `FAILED` after an earlier refusal too. -/
def failedRefused : State := { failed3 with rfs := true, rcause := some .dupSymbol }

theorem inv_reset : State.reset.Inv := ⟨by decide, by decide, by decide, by decide, by decide, by decide⟩
theorem inv_oneLeaf : oneLeaf.Inv := ⟨by decide, by decide, by decide, by decide, by decide, by decide⟩
theorem inv_threeLeaves : threeLeaves.Inv := ⟨by decide, by decide, by decide, by decide, by decide, by decide⟩
theorem inv_tinyTwo : tinyTwo.Inv := ⟨by decide, by decide, by decide, by decide, by decide, by decide⟩
theorem inv_built1 : built1.Inv := ⟨by decide, by decide, by decide, by decide, by decide, by decide⟩
theorem inv_built3 : built3.Inv := ⟨by decide, by decide, by decide, by decide, by decide, by decide⟩
theorem inv_session1 : session1.Inv := ⟨by decide, by decide, by decide, by decide, by decide, by decide⟩
theorem inv_session3 : session3.Inv := ⟨by decide, by decide, by decide, by decide, by decide, by decide⟩
theorem inv_midway3 : midway3.Inv := ⟨by decide, by decide, by decide, by decide, by decide, by decide⟩
theorem inv_limited : limited.Inv := ⟨by decide, by decide, by decide, by decide, by decide, by decide⟩
theorem inv_failed3 : failed3.Inv := ⟨by decide, by decide, by decide, by decide, by decide, by decide⟩
theorem inv_failedRefused : failedRefused.Inv := ⟨by decide, by decide, by decide, by decide, by decide, by decide⟩

/-- The invariant says something: a tree whose `pq` still holds a child does not meet it. -/
theorem inv_refuses_shared_child : ¬ ({ merged3 with pq := [0, 2, 3] } : State).ForestInv := by decide

/-! ### WellFormed: an ill-formed command for each check of R86 -/

theorem test_wellFormed_symbol_too_wide : (Instr.pushLeaf 0x100 1).WellFormed Config.reference = false := by decide
theorem test_wellFormed_frequency_too_wide : (Instr.pushLeaf 0x61 256).WellFormed Config.reference = false := by decide
theorem test_wellFormed_greatest : (Instr.pushLeaf 0xFF 255).WellFormed Config.reference = true := by decide
theorem test_wellFormed_zero_frequency : (Instr.pushLeaf 0 0).WellFormed tinyConfig = true := by decide

/-! ### Decoding: words written out field by field, `op` (8), `A` (24), `B` (32), from R84 to R86 -/

theorem test_decode_clear :
    decode Config.reference
      0b00000001_000000000000000000000000_00000000000000000000000000000000#64 = .ok .clear := by rfl
theorem test_decode_pushLeaf :
    decode Config.reference
      0b00000010_000000000000000001100001_00000000000000000000000000000100#64 = .ok (.pushLeaf 0x61 4) := by rfl
theorem test_decode_build :
    decode Config.reference
      0b00000011_000000000000000000000000_00000000000000000000000000000000#64 = .ok .build := by rfl
theorem test_decode_decStart :
    decode Config.reference
      0b00000100_000000000000000000000000_00000000000000000000000000000000#64 = .ok .decStart := by rfl
theorem test_decode_decBit :
    decode Config.reference
      0b00000101_000000000000000000000000_00000000000000000000000000000001#64 = .ok (.decBit true) := by rfl
theorem test_decode_decEnd :
    decode Config.reference
      0b00000110_000000000000000000000000_00000000000000000000000000000000#64 = .ok .decEnd := by rfl
theorem test_decode_rdReg :
    decode Config.reference
      0b00000111_000000000000000000000000_00000000000000000000000000001000#64 = .ok (.rdReg .emitCnt) := by rfl
theorem test_decode_rdNode :
    decode Config.reference
      0b00001000_000000000000000000000000_11111111111111111111111111111111#64 = .ok (.rdNode 0xFFFFFFFF) := by rfl

/-- R88: the all-zero word is no command. -/
theorem test_decode_zero_word : decode Config.reference 0#64 = .error .illegalOpcode := by rfl
/-- R87's examples of refused words. -/
theorem test_decode_clear_operand : decode Config.reference 0x0100000000000001#64 = .error .badOperand := by rfl
theorem test_decode_bit_two : decode Config.reference 0x0500000000000002#64 = .error .badOperand := by rfl
theorem test_decode_symbol_256 : decode Config.reference 0x0200010000000001#64 = .error .badOperand := by rfl
theorem test_decode_frequency_256 : decode Config.reference 0x0200006100000100#64 = .error .badOperand := by rfl
/-- R152: register 9 does not exist. -/
theorem test_decode_register_nine : decode Config.reference 0x0700000000000009#64 = .error .badOperand := by rfl

/-- A table row's bits above `nbits` are zero. -/
theorem test_tableWord : decodeTableWord 64 0x0500000000000001 = some (.decBit true) := by rfl

/-! ### Single commands -/

/-- The first leaf of program P1 (`PUSH_LEAF 'a', 4`), and the answer of R92. -/
theorem test_pushLeaf_writes_leaf :
    (nextOf (exec (.pushLeaf 0x61 4) State.reset)).node = [.leaf 0x61 4] ∧
      answer (exec (.pushLeaf 0x61 4) State.reset) = some 0x0000000000000000#64 := by decide
/-- R112: a symbol already pushed is refused (code 4) and the first cause is recorded (R23). -/
theorem test_pushLeaf_duplicate :
    answer (exec (.pushLeaf 0x61 9) oneLeaf) = some 0x4400000000000000#64 ∧
      (nextOf (exec (.pushLeaf 0x61 9) oneLeaf)).rcause = some .dupSymbol := by decide
/-- R117: the lower-keyed member is the left child; by hand on frequencies 1, 1, 3. -/
theorem test_build_merges :
    (nextOf (exec .build threeLeaves)).node.drop 3 = [.internal 2 0 1, .internal 5 3 2] ∧
      (nextOf (exec .build threeLeaves)).root = 4 := by decide
/-- R118: 1 + 1 does not fit one bit. -/
theorem test_build_overflow :
    answer (exec .build tinyTwo) = some 0x3300000000000000#64 ∧ (nextOf (exec .build tinyTwo)).pq = [0, 1] := by decide
/-- R132: a session starts at the root with the counters at 0. -/
theorem test_decStart :
    (nextOf (exec .decStart { built3 with cursor := 7, emitCnt := 3 })).cursor = 0 ∧
      (nextOf (exec .decStart built3)).phase = .decoding := by decide
/-- R134: on a one-leaf tree either digit emits the symbol (R95's example word). -/
theorem test_decBit_one_leaf :
    answer (exec (.decBit false) session1) = some 0x2000000000000061#64 ∧
      answer (exec (.decBit true) session1) = some 0x2000000000000061#64 := by decide
/-- R135: the digit 1 follows the right child. -/
theorem test_decBit_right_child :
    answer (exec (.decBit true) session3) = some 0x2000000000000063#64 ∧
      answer (exec (.decBit false) session3) = some 0x0000000000000000#64 := by decide
/-- R138: part way down a path `DEC_END` faults (code 2). -/
theorem test_decEnd_midway :
    answer (exec .decEnd midway3) = some 0x3200000000000000#64 ∧
      (nextOf (exec .decEnd midway3)).err = some .corruptData := by decide
/-- R137: at the root it closes the session. -/
theorem test_decEnd_at_root : (nextOf (exec .decEnd session3)).phase = .built := by decide
/-- R45: the value of `CONFIG` in the reference configuration, in a `DATA` response (R92). -/
theorem test_rdReg_config : answer (exec (.rdReg .config) State.reset) = some 0x1000000008080108#64 := by decide
/-- R46: `STATUS` in `BUILT` is phase 1 with `root_valid` set. -/
theorem test_rdReg_status : answer (exec (.rdReg .status) built3) = some 0x1000000000000009#64 := by decide
/-- R96: the layout of `Leaf('a', 4)`. -/
theorem test_rdNode_leaf : answer (exec (.rdNode 0) oneLeaf) = some 0x1000000002000061#64 := by decide
/-- R153: an index past the records is refused (code 7), the top of the field included. -/
theorem test_rdNode_unwritten :
    answer (exec (.rdNode 1) oneLeaf) = some 0x4700000000000000#64 ∧
      answer (exec (.rdNode 0xFFFFFFFF) oneLeaf) = some 0x4700000000000000#64 := by decide
/-- R151, R212: `CLEAR` leaves `FAILED`. -/
theorem test_clear_failed : nextOf (exec .clear failedRefused) = { State.reset with channel := .offered 0 } := by decide

/-- One step: the word placed for the fetch runs first, and its response is transferred (vector V2). -/
theorem test_step_withFetchWord :
    (nextOf (step (State.reset.withFetchWord 64 0x0200006100000004))).node = [.leaf 0x61 4] ∧
      (nextOf (step (State.reset.withFetchWord 64 0x0200006100000004))).outbox = [0x0000000000000000#64] := by decide

/-- R81, R235: a response pending is transferred before the next word is accepted. -/
theorem test_step_pending :
    let s := { built3 with channel := .offered 7#64, inbox := [.command (encode .decStart)] }
    (nextOf (step s)).outbox = [7#64] ∧ (nextOf (step s)).inbox = [.command (encode .decStart)] ∧
      (nextOf (step s)).phase = .built := by decide

/-- R230: reset between commands. -/
theorem test_step_reset :
    nextOf (step { failed3 with inbox := [.reset] }) = State.reset := by decide

/-! ### The host's functions on the spec's small texts -/

/-- R171: the map of `aab`. -/
theorem test_frequencyMap : frequencyMap [0x61, 0x61, 0x62] = [(0x61, 2), (0x62, 1)] := by decide
/-- R99: `PUSH_TEXT "aab"`, and `PUSH_TEXT ""`. -/
theorem test_pushText :
    pushText Config.reference [0x61, 0x61, 0x62] = some [.pushLeaf 0x61 2, .pushLeaf 0x62 1] ∧
      pushText Config.reference [] = some [] := by decide
/-- R172: two occurrences do not fit a frequency of one bit; nothing is pushed and nothing is wrapped. -/
theorem test_pushText_count_too_great :
    pushText tinyConfig [1, 0, 0] = none ∧ SourceLine.expand tinyConfig (.pushText [0, 0]) = none ∧
      encodedBits (encodeText [1, 0, 0] (State.resetIn tinyConfig)) = none := by decide
/-- R99: the digits in string order, and a string with another character. -/
theorem test_decBits :
    SourceLine.expand Config.reference (.decBits ['1', '0']) = some [0x0500000000000001#64, 0x0500000000000000#64] ∧
      SourceLine.expand Config.reference (.decBits ['1', '2']) = none := by decide
/-- R175: the code of the one-leaf tree. -/
theorem test_codes_one_leaf : buildCodes built1.node built1.root = [(0x61, [true])] := by decide
/-- R174: left is 0 and right is 1; by hand on the three-leaf tree. -/
theorem test_codes_three_leaves :
    buildCodes built3.node built3.root = [(0x61, [false, false]), (0x62, [false, true]), (0x63, [true])] := by decide

/-- R154: the host expects a finished tree. -/
theorem test_readOut_not_built : readOut State.reset = .error .notBuilt := by rfl

/-- R127: the weighted path length of the three-leaf tree, by hand 3 * 1 + 1 * 2 + 1 * 2. -/
theorem test_treeFrom :
    (treeFrom built3.node 5 4).map (fun tree => (tree.leaves, tree.weightedLength 0)) = some ([1, 1, 3], 7) := by decide

/-! ### Witnesses: the hypotheses of each statement are met together -/

theorem witness_DecodeOfEncode :
    (Instr.pushLeaf 0xFF 255).WellFormed Config.reference = true ∧ (Instr.rdNode 0xFFFFFFFF).WellFormed tinyConfig = true := by
  decide

theorem witness_EncodeOfDecode :
    decode Config.reference 0x020000FF000000FF#64 = .ok (.pushLeaf 0xFF 255) ∧
      decode tinyConfig 0x0200000100000001#64 = .ok (.pushLeaf 1 1) := ⟨rfl, rfl⟩

theorem witness_UnassignedOpcodeRefused :
    opField 0x0000000000000000#64 = 0 ∧ 9 ≤ (opField 0x0900000000000000#64).toNat ∧
      9 ≤ (opField 0xFF00000000000000#64).toNat := by decide

/-- Each clause of the check, at the first value past its range. -/
theorem witness_StaticOperandCheck_bad :
    (opField 0x0100000000000001#64 = 1 ∧ bField 0x0100000000000001#64 ≠ 0) ∧
    (opField 0x0300000100000000#64 = 3 ∧ aField 0x0300000100000000#64 ≠ 0) ∧
    (opField 0x0400000000000001#64 = 4 ∧ bField 0x0400000000000001#64 ≠ 0) ∧
    (opField 0x0680000000000000#64 = 6 ∧ aField 0x0680000000000000#64 ≠ 0) ∧
    (opField 0x0220000000000000#64 = 2 ∧ 2 ^ 21 ≤ (aField 0x0220000000000000#64).toNat) ∧
    (2 ^ Config.reference.symW ≤ (aField 0x0200010000000001#64).toNat % 2 ^ 21) ∧
    (2 ^ Config.reference.freqW ≤ (bField 0x0200006100000100#64).toNat) ∧
    (opField 0x0500000000000002#64 = 5 ∧ 2 ≤ (bField 0x0500000000000002#64).toNat) ∧
    (opField 0x0700000000000009#64 = 7 ∧ 9 ≤ (bField 0x0700000000000009#64).toNat) ∧
    (opField 0x0800000100000000#64 = 8 ∧ aField 0x0800000100000000#64 ≠ 0) := by decide

/-- The same fields at the last value within their range. -/
theorem witness_StaticOperandCheck_good :
    decode Config.reference 0x020000FF000000FF#64 = .ok (.pushLeaf 0xFF 255) ∧
    decode Config.reference 0x0500000000000001#64 = .ok (.decBit true) ∧
    decode Config.reference 0x0700000000000008#64 = .ok (.rdReg .emitCnt) ∧
    decode Config.reference 0x08000000FFFFFFFF#64 = .ok (.rdNode 0xFFFFFFFF) := ⟨rfl, rfl, rfl, rfl⟩

/-- The greatest frequency and the greatest child indices. -/
theorem witness_PayloadLayouts :
    recordOfLayout (recordLayout (.leaf 0x1FFFFF 0xFFFFFFFF)) = .leaf 0x1FFFFF 0xFFFFFFFF ∧
      recordOfLayout (recordLayout (.internal 0xFFFFFFFF 2047 2046)) = .internal 0xFFFFFFFF 2047 2046 := by decide

theorem witness_ConfigRegister :
    Config.reference.Legal ∧ tinyConfig.Legal ∧
      ({ symW := 21, freqW := 32, maxLeaves := 1024, cntW := 56 } : Config).Legal ∧
      runWord (encode .build) oneLeaf = .next (nextOf (runWord (encode .build) oneLeaf)) :=
  ⟨by decide, by decide, by decide, rfl⟩

theorem witness_StatusRegister :
    (oneLeaf.Inv ∧ oneLeaf.rfs = false) ∧ (failedRefused.Inv ∧ failedRefused.rfs = true) :=
  ⟨⟨inv_oneLeaf, rfl⟩, inv_failedRefused, rfl⟩

theorem witness_IndexRegisters :
    (midway3.Inv ∧ midway3.root = 4 ∧ midway3.cur = 3) ∧ (threeLeaves.Inv ∧ threeLeaves.rootValid = false) :=
  ⟨⟨inv_midway3, rfl, rfl⟩, inv_threeLeaves, rfl⟩

theorem witness_CounterRegisters : limited.Inv ∧ limited.cursor = 2 ^ limited.cfg.cntW - 1 := ⟨inv_limited, rfl⟩

theorem witness_ReadNodeAnswersRecord : (2#32).toNat < threeLeaves.node.length := by decide

theorem witness_ReadNodeUnwrittenRefused :
    threeLeaves.node.length ≤ (3#32).toNat ∧ threeLeaves.Inv := ⟨by decide, inv_threeLeaves⟩

theorem witness_ClearAndResetReachResetState :
    let s := { failed3 with inbox := [.reset] }
    s.channel = .idle ∧ s.inbox = .reset :: [] := by decide

theorem witness_PushLeafCompletes :
    oneLeaf.phase = .collect ∧ (∀ r ∈ oneLeaf.node, r.sym? ≠ some 0x62) ∧ oneLeaf.nLeaves ≠ oneLeaf.cfg.maxLeaves := by
  decide

/-- With room left, and in a full block. -/
theorem witness_PushLeafIndexIsPushCount :
    (threeLeaves.Inv ∧ threeLeaves.phase = .collect ∧ 0x64 ∉ leafSymbols threeLeaves.node ∧
      threeLeaves.nLeaves < threeLeaves.cfg.maxLeaves) ∧
    (tinyTwo.Inv ∧ tinyTwo.phase = .collect ∧ tinyTwo.nLeaves = tinyTwo.cfg.maxLeaves) :=
  ⟨⟨inv_threeLeaves, by decide, by decide, by decide⟩, inv_tinyTwo, by decide, by decide⟩

/-- A symbol that is new, and no room: the room of a legal configuration can be less than its symbols. -/
theorem witness_PushLeafRefusals :
    built3.phase ≠ .collect ∧
    (oneLeaf.phase = .collect ∧ ∃ r ∈ oneLeaf.node, r.sym? = some 0x61) ∧
    (let s := { oneLeaf with cfg := { Config.reference with maxLeaves := 1 } }
     s.Inv ∧ s.phase = .collect ∧ (∀ r ∈ s.node, r.sym? ≠ some 0x62) ∧ s.nLeaves = s.cfg.maxLeaves) :=
  ⟨by decide, by decide, ⟨by decide, by decide, by decide, by decide, by decide, by decide⟩, by decide, by decide,
    by decide⟩

theorem witness_PopMinTakesLeastKey :
    pqWf merged3.pq ∧ (∀ i ∈ merged3.pq, i < merged3.node.length) ∧ merged3.pq ≠ [] := by decide

/-- Both ends of a merge step: it merges, and it overflows. -/
theorem witness_MergeStepMergesTwoLeast :
    (pqWf merged3.pq ∧ (∀ i ∈ merged3.pq, i < merged3.node.length) ∧ 2 ≤ merged3.pq.length ∧
      3 + 2 < 2 ^ merged3.cfg.freqW) ∧
    (pqWf tinyTwo.pq ∧ (∀ i ∈ tinyTwo.pq, i < tinyTwo.node.length) ∧ 2 ≤ tinyTwo.pq.length ∧
      2 ^ tinyTwo.cfg.freqW ≤ 1 + 1) := by decide

theorem witness_MergeStepKeepsForest :
    threeLeaves.ForestInv ∧ threeLeaves.rootValid = false ∧ mergeStep threeLeaves = .ok (.merged merged3) :=
  ⟨inv_threeLeaves.2.1, rfl, rfl⟩

theorem witness_BuildOfNothingFails : State.reset.Inv ∧ State.reset.phase = .collect ∧ State.reset.pq = [] :=
  ⟨inv_reset, rfl, rfl⟩

theorem witness_BuildOfOneLeaf : oneLeaf.Inv ∧ oneLeaf.phase = .collect ∧ oneLeaf.nLeaves = 1 := ⟨inv_oneLeaf, rfl, rfl⟩

/-- With one leaf, and with several whose sum fits. -/
theorem witness_BuildCompletes :
    (oneLeaf.Inv ∧ oneLeaf.phase = .collect ∧ oneLeaf.nLeaves = 1) ∧
    (threeLeaves.Inv ∧ threeLeaves.phase = .collect ∧ 1 ≤ threeLeaves.nLeaves ∧
      leafSum threeLeaves.node < 2 ^ threeLeaves.cfg.freqW) :=
  ⟨⟨inv_oneLeaf, rfl, rfl⟩, inv_threeLeaves, rfl, by decide, by decide⟩

/-- The sum that just does not fit, and one that fits. -/
theorem witness_BuildOverflowsExactlyWhen :
    (tinyTwo.Inv ∧ tinyTwo.phase = .collect ∧ 2 ≤ tinyTwo.nLeaves ∧ leafSum tinyTwo.node = 2 ^ tinyTwo.cfg.freqW) ∧
    (threeLeaves.Inv ∧ threeLeaves.phase = .collect ∧ leafSum threeLeaves.node < 2 ^ threeLeaves.cfg.freqW) :=
  ⟨⟨inv_tinyTwo, rfl, by decide, by decide⟩, inv_threeLeaves, rfl, by decide⟩

theorem witness_BuildOverflowKeepsForest :
    tinyTwo.Inv ∧ tinyTwo.phase = .collect ∧ 2 ≤ tinyTwo.nLeaves ∧ 2 ^ tinyTwo.cfg.freqW ≤ leafSum tinyTwo.node :=
  ⟨inv_tinyTwo, rfl, by decide, by decide⟩

theorem witness_BuildMakesOptimalTree :
    threeLeaves.Inv ∧ threeLeaves.phase = .collect ∧
      exec .build threeLeaves = .next (nextOf (exec .build threeLeaves)) ∧
      (nextOf (exec .build threeLeaves)).phase = .built ∧
      (CodeTree.node (.leaf 3) (.node (.leaf 1) (.leaf 1))).leaves.Perm [1, 1, 3] :=
  ⟨inv_threeLeaves, rfl, rfl, by decide, by decide⟩

/-- A command out of place, a command in place, `CLEAR`, one in place refused for another cause, and a word that is no command. -/
theorem witness_PhaseTable :
    admits built3.phase .build = false ∧
    (admits threeLeaves.phase .build = true ∧ exec .build threeLeaves = .next (nextOf (exec .build threeLeaves))) ∧
    (admits failed3.phase .clear = true ∧ exec .clear failed3 = .next (nextOf (exec .clear failed3))) ∧
    (admits built3.phase (.rdNode 5) = true ∧ answer (exec (.rdNode 5) built3) = some 0x4700000000000000#64) ∧
    (decode built3.cfg 0#64 = .error .illegalOpcode ∧ runWord 0#64 built3 = .next (nextOf (runWord 0#64 built3))) :=
  ⟨rfl, ⟨rfl, rfl⟩, ⟨rfl, rfl⟩, ⟨rfl, by decide⟩, rfl, rfl⟩

/-- A sequence in the legal order, and one that is not. -/
theorem witness_LegalOrderExactlyNeverBadPhase :
    State.reset.Inv ∧ (∀ i ∈ [Instr.pushLeaf 0x61 4, .build, .decStart], i.WellFormed State.reset.cfg = true) ∧
      (∀ i ∈ [Instr.decStart], i.WellFormed State.reset.cfg = true) := ⟨inv_reset, by decide, by decide⟩

theorem witness_DecStartOpensSession : built3.phase = .built := rfl

theorem witness_DecBitOneLeafEmits :
    session1.phase = .decoding ∧ session1.cursor ≠ 2 ^ session1.cfg.cntW - 1 ∧
      session1.node[session1.root]? = some (.leaf 0x61 4) ∧ session1.Inv ∧
      session1.node[session1.root]?.map NodeRec.isLeaf = some true :=
  ⟨rfl, by decide, rfl, inv_session1, rfl⟩

/-- The child is a Leaf on 1, an Internal on 0. -/
theorem witness_DecBitFollowsDigit :
    session3.phase = .decoding ∧ session3.cursor ≠ 2 ^ session3.cfg.cntW - 1 ∧
      session3.node[session3.root]? = some (.internal 5 3 2) ∧ session3.node[session3.cur]? = some (.internal 5 3 2) ∧
      session3.node[2]? = some (.leaf 0x63 3) ∧ session3.node[3]? = some (.internal 2 0 1) ∧ session3.Inv ∧
      session3.node[session3.root]?.map NodeRec.isLeaf ≠ some true :=
  ⟨rfl, by decide, rfl, rfl, rfl, rfl, inv_session3, by decide⟩

theorem witness_DecBitFollowsDigit_path :
    session3.Inv ∧ session3.phase = .decoding ∧ session3.channel = .idle ∧ session3.cur = session3.root ∧
      session3.node[session3.root]?.map NodeRec.isLeaf ≠ some true ∧
      walk session3.node session3.root [false, true] = some 1 ∧ session3.node[1]? = some (.leaf 0x62 1) ∧
      session3.cursor + [false, true].length ≤ 2 ^ session3.cfg.cntW - 1 :=
  ⟨inv_session3, rfl, rfl, rfl, by decide, rfl, rfl, by decide⟩

theorem witness_DecBitAtLimitRefused :
    limited.phase = .decoding ∧ limited.cursor = 2 ^ limited.cfg.cntW - 1 ∧ limited.Inv ∧
      runWord (encode (.decBit true)) limited = .next (nextOf (runWord (encode (.decBit true)) limited)) :=
  ⟨rfl, rfl, inv_limited, rfl⟩

theorem witness_DecEndClosesSession : session3.phase = .decoding ∧ session3.cur = session3.root := ⟨rfl, rfl⟩

theorem witness_DecEndOffRootFails :
    (midway3.phase = .decoding ∧ midway3.cur ≠ midway3.root) ∧
      (session1.Inv ∧ session1.phase = .decoding ∧ session1.node[session1.root]?.map NodeRec.isLeaf = some true) :=
  ⟨by decide, inv_session1, rfl, rfl⟩

theorem witness_EmptySessionCompletes : built3.phase = .built := rfl

/-- The number of bits is the most the counter allows. -/
theorem witness_AnyBitsDecode :
    (session3.Inv ∧ session3.phase = .decoding ∧ session3.channel = .idle ∧
      session3.cursor + [true, false, false].length ≤ 2 ^ session3.cfg.cntW - 1) ∧
    (limited.Inv ∧ limited.phase = .decoding ∧ limited.channel = .idle ∧
      limited.cursor + ([] : List Bool).length = 2 ^ limited.cfg.cntW - 1) :=
  ⟨⟨inv_session3, rfl, rfl, by decide⟩, inv_limited, rfl, rfl, rfl⟩

theorem witness_CodesDecodeToText :
    (built3.Inv ∧ built3.phase = .built ∧ built3.channel = .idle ∧
      codeText (buildCodes built3.node built3.root) [0x63, 0x61] = some [true, false, false] ∧
      [true, false, false].length ≤ 2 ^ built3.cfg.cntW - 1) ∧
    (built1.Inv ∧ built1.phase = .built ∧ codeText (buildCodes built1.node built1.root) [0x61] = some [true]) :=
  ⟨⟨inv_built3, rfl, rfl, by decide, by decide⟩, inv_built1, rfl, by decide⟩

/-- The last code of two digits, and of one. -/
theorem witness_TruncationByOneBit :
    built3.Inv ∧ built3.phase = .built ∧ built3.channel = .idle ∧ 2 ≤ built3.nLeaves ∧
      codeText (buildCodes built3.node built3.root) [0x63] = some [true] ∧
      codeOf (buildCodes built3.node built3.root) 0x62 = some [false, true] ∧
      codeOf (buildCodes built3.node built3.root) 0x63 = some [true] ∧
      [true].length + [false, true].length ≤ 2 ^ built3.cfg.cntW - 1 :=
  ⟨inv_built3, rfl, rfl, by decide, by decide, by decide, by decide, by decide⟩

theorem witness_RefusalChangesOnlyItsRecord :
    runWord 0#64 built3 = .next (nextOf (runWord 0#64 built3)) ∧
      (nextOf (runWord 0#64 built3)).channel = .offered 0x4100000000000000#64 ∧
      respKind 0x4100000000000000#64 = 4 := ⟨rfl, by decide, by decide⟩

/-- A first refusal, a second one, a command that is neither a refusal nor `CLEAR`, and `CLEAR`. -/
theorem witness_RefusalRecordKeepsFirstCause :
    (runWord 0#64 built3 = .next (nextOf (runWord 0#64 built3)) ∧ built3.rfs = false ∧
      (nextOf (runWord 0#64 built3)).channel = .offered 0x4100000000000000#64) ∧
    (runWord 0#64 failedRefused = .next (nextOf (runWord 0#64 failedRefused)) ∧ failedRefused.rfs = true) ∧
    (decode built3.cfg (encode .decStart) ≠ .ok .clear ∧
      runWord (encode .decStart) built3 = .next (nextOf (runWord (encode .decStart) built3)) ∧
      (nextOf (runWord (encode .decStart) built3)).channel = .offered 0#64 ∧ respKind 0#64 ≠ 4) ∧
    decode built3.cfg (encode .clear) = .ok .clear :=
  ⟨⟨rfl, rfl, by decide⟩, ⟨rfl, rfl⟩, ⟨nofun, rfl, by decide, by decide⟩, rfl⟩

/-- One of each fault, and an overflow after a merge that stands (by hand: 1 + 1 fits two bits, 2 + 3 does not). -/
theorem witness_FaultRecordsItsCode :
    (runWord (encode .decEnd) midway3 = .next (nextOf (runWord (encode .decEnd) midway3)) ∧
      (nextOf (runWord (encode .decEnd) midway3)).channel = .offered 0x3200000000000000#64) ∧
    (runWord (encode .build) tinyTwo = .next (nextOf (runWord (encode .build) tinyTwo)) ∧
      (nextOf (runWord (encode .build) tinyTwo)).channel = .offered 0x3300000000000000#64) ∧
    (runWord (encode .build) State.reset = .next (nextOf (runWord (encode .build) State.reset)) ∧
      (nextOf (runWord (encode .build) State.reset)).channel = .offered 0x3100000000000000#64) ∧
    (let s := { threeLeaves with cfg := { Config.reference with freqW := 2 } }
     runWord (encode .build) s = .next (nextOf (runWord (encode .build) s)) ∧
       (nextOf (runWord (encode .build) s)).channel = .offered 0x3300000000000000#64 ∧
       (nextOf (runWord (encode .build) s)).node = s.node ++ [.internal 2 0 1] ∧
       (nextOf (runWord (encode .build) s)).pq = [2, 3]) ∧
    respKind 0x3100000000000000#64 = 3 :=
  ⟨⟨rfl, by decide⟩, ⟨rfl, by decide⟩, ⟨rfl, by decide⟩, ⟨rfl, by decide, by decide, by decide⟩, by decide⟩

theorem witness_FailedAdmitsOnlyReadsAndClear :
    failed3.phase = .failed ∧ failed3.node[(4#32).toNat]? = some (.internal 5 3 2) ∧
      runWord (encode .decStart) failed3 = .next (nextOf (runWord (encode .decStart) failed3)) ∧
      decode failed3.cfg (encode .decStart) ≠ .ok .clear := ⟨rfl, rfl, rfl, nofun⟩

theorem witness_NoSecondFault :
    failedRefused.Inv ∧ failedRefused.err ≠ none ∧
      runWord (encode .decEnd) failedRefused = .next (nextOf (runWord (encode .decEnd) failedRefused)) ∧
      (nextOf (runWord (encode .decEnd) failedRefused)).channel = .offered 0x4300000000000000#64 ∧
      failedRefused.rfs = true ∧ decode failedRefused.cfg (encode .decEnd) = .ok .decEnd :=
  ⟨inv_failedRefused, by decide, rfl, by decide, rfl, rfl⟩

theorem witness_NodeMemoryWriters :
    runWord (encode .build) threeLeaves = .next (nextOf (runWord (encode .build) threeLeaves)) ∧
      decode threeLeaves.cfg (encode .build) ≠ .ok .clear ∧
      (nextOf (runWord (encode .build) threeLeaves)).node ≠ threeLeaves.node := ⟨rfl, nofun, by decide⟩

theorem witness_TreeImmutableOnceBuilt :
    session3.Inv ∧ session3.rootValid = true ∧
      runWord (encode (.decBit true)) session3 = .next (nextOf (runWord (encode (.decBit true)) session3)) ∧
      decode session3.cfg (encode (.decBit true)) ≠ .ok .clear := ⟨inv_session3, rfl, rfl, nofun⟩

theorem witness_StepRunsDecodedCommand :
    let s := { State.reset with inbox := [.command 0x0200006100000004#64] }
    s.channel = .idle ∧ s.inbox = .command 0x0200006100000004#64 :: [] ∧
      decode s.cfg 0x0200006100000004#64 = .ok (.pushLeaf 0x61 4) ∧
      decode s.cfg (tableWord 64 0x0200006100000004) = .ok (.pushLeaf 0x61 4) := ⟨rfl, rfl, rfl, rfl⟩

theorem witness_ResetMeetsInvariant : tinyConfig.Legal := by decide

theorem witness_StepKeepsInvariant :
    threeLeaves.Inv ∧ step (threeLeaves.present (encode .build)) =
      .next (nextOf (step (threeLeaves.present (encode .build)))) := ⟨inv_threeLeaves, rfl⟩

/-- A response pending, offered and in execution; a word that is no command, a reset, and nothing to do. -/
theorem witness_EveryCommandAnswersOnce :
    (State.channel { built3 with channel := .offered 7#64 } = .offered 7#64 ∧
      State.channel { built3 with channel := .executing 7#64 } = .executing 7#64) ∧
    (State.Inv { built3 with inbox := [.command 0#64] } ∧ decode built3.cfg 0#64 = .error .illegalOpcode) ∧
    State.Inv { built3 with inbox := [.reset] } ∧
    (built3.Inv ∧ built3.channel = .idle ∧ built3.inbox = []) :=
  ⟨⟨rfl, rfl⟩, ⟨inv_built3, rfl⟩, inv_built3, inv_built3, rfl, rfl⟩

/-- A response pending and taken, a response pending and not taken, a word accepted, no word offered, and a command in
execution that is done and one that is not. -/
theorem witness_PortOneCommandInFlight :
    let pin := { rst := false, cmdValid := true, cmd := encode .build, rspReady := true, done := true : Pins }
    let idlePin := { rst := false, cmdValid := false, cmd := 0, rspReady := false, done := false : Pins }
    let waiting := { built3 with channel := .offered 7#64 }
    (edge pin waiting = .next (nextOf (edge pin waiting)) ∧ waiting.cmdReady false = false ∧
      waiting.rspOut false = some 7#64) ∧
    edge idlePin waiting = .next (nextOf (edge idlePin waiting)) ∧
    (edge pin threeLeaves = .next (nextOf (edge pin threeLeaves)) ∧ threeLeaves.cmdReady false = true) ∧
    edge idlePin threeLeaves = .next (nextOf (edge idlePin threeLeaves)) ∧
    (let busy := { built3 with channel := .executing 7#64 }
     busy.cmdReady false = false ∧ edge pin busy = .next { busy with channel := .offered 7#64 } ∧
       edge idlePin busy = .next busy) :=
  ⟨⟨rfl, by decide, by decide⟩, rfl, ⟨rfl, by decide⟩, rfl, by decide, rfl, rfl⟩

theorem witness_PortResetAbandonsCommand :
    let pin := { rst := true, cmdValid := true, cmd := 0, rspReady := true, done := true : Pins }
    pin.rst = true ∧
      edge pin { built3 with channel := .executing 7#64 } =
        .next (nextOf (edge pin { built3 with channel := .executing 7#64 })) := ⟨rfl, rfl⟩

theorem witness_PortRefinesCommands :
    let pin := { rst := false, cmdValid := true, cmd := encode .build, rspReady := true, done := false : Pins }
    let last := { pin with done := true }
    (∀ p ∈ [pin, last, last], p.rst = false) ∧ threeLeaves.channel = .idle ∧
      edges [pin, last, last] threeLeaves = .next (nextOf (edges [pin, last, last] threeLeaves)) ∧
      acceptedWords [pin, last, last] threeLeaves = [encode .build] := ⟨by decide, rfl, rfl, by decide⟩

theorem witness_ReadOutGivesTree : built3.Inv ∧ built3.phase = .built := ⟨inv_built3, rfl⟩

theorem witness_CodesArePrefixFree : failed3.Inv ∧ failed3.rootValid = true ∧ 2 ≤ failed3.nLeaves :=
  ⟨inv_failed3, rfl, by decide⟩

theorem witness_OneLeafCodeIsOne : built1.Inv ∧ built1.rootValid = true ∧ built1.nLeaves = 1 := ⟨inv_built1, rfl, rfl⟩

/-- The text `ab`, its symbols presented in either order. -/
theorem witness_FrequencyConservation :
    State.reset.cfg.Legal ∧ [0x62, 0x61].Perm (firstOccurrences [0x61, 0x62]) ∧
      encodedBits (encodeInOrder [0x62, 0x61] [0x61, 0x62] State.reset) = some [true, false] :=
  ⟨by decide, by decide, by decide⟩

theorem witness_RoundTrip :
    State.reset.cfg.Legal ∧ ([0x61, 0x62] : List Symbol) ≠ [] ∧ WithinBounds State.reset.cfg [0x61, 0x62] ∧
      ([0x62, 0x61] : List Symbol).Perm (firstOccurrences [0x61, 0x62]) :=
  ⟨by decide, by decide, ⟨by simp [Config.symLimit, State.reset, State.resetIn, Config.reference], by decide, by decide⟩,
    by decide⟩

end Sys2Proof.Tests
end

section
/-! The statements of 10_state.md about the status registers, `PopMin`, the phase table, the refusal record and the
finished tree, each settled from the laws of the model and the lemmas in front of it. -/

namespace Sys2Proof.Machine

open Sys2Proof.Claims

/-! ### Reading the fields of a register -/

theorem toNat_ofNat_of_lt {w n : Nat} (h : n < 2 ^ w) : (BitVec.ofNat w n).toNat = n := by
  rw [BitVec.toNat_ofNat, Nat.mod_eq_of_lt h]

/-- A bit is the field of width 1 at its place. -/
theorem getLsbD_of_extract_ofBool {n start : Nat} {x : BitVec n} {b : Bool}
    (h : x.extractLsb' start 1 = BitVec.ofBool b) : x.getLsbD start = b := by
  have h0 : (x.extractLsb' start 1).getLsbD 0 = (BitVec.ofBool b).getLsbD 0 := by rw [h]
  simpa using h0

/-! ### `CONFIG` (R45) -/

/-- The fields of `CONFIG`, each cut to its width. -/
theorem configReg_extract (c : Config) :
    (configReg c).extractLsb' 0 5 = BitVec.ofNat 5 c.symW ∧ (configReg c).extractLsb' 5 6 = BitVec.ofNat 6 c.freqW ∧
      (configReg c).extractLsb' 11 11 = BitVec.ofNat 11 c.maxLeaves ∧
      (configReg c).extractLsb' 22 6 = BitVec.ofNat 6 c.cntW ∧ (configReg c).extractLsb' 28 28 = 0 := by
  unfold configReg
  refine ⟨BitVec.extractLsb'_append_eq_right, ?_, ?_, ?_, ?_⟩
  · rw [extract_append_high (m := 5) _ _ 5 6 (by decide)]
    exact BitVec.extractLsb'_append_eq_right
  · rw [extract_append_high (m := 5) _ _ 11 11 (by decide), extract_append_high (m := 6) _ _ 6 11 (by decide)]
    exact BitVec.extractLsb'_append_eq_right
  · rw [extract_append_high (m := 5) _ _ 22 6 (by decide), extract_append_high (m := 6) _ _ 17 6 (by decide),
      extract_append_high (m := 11) _ _ 11 6 (by decide)]
    exact BitVec.extractLsb'_append_eq_right
  · rw [extract_append_high (m := 5) _ _ 28 28 (by decide), extract_append_high (m := 6) _ _ 23 28 (by decide),
      extract_append_high (m := 11) _ _ 17 28 (by decide), extract_append_high (m := 6) _ _ 6 28 (by decide)]
    exact extract_all _

/-- In a legal configuration every parameter fits its field of `CONFIG` (R6). -/
theorem configFields_of_legal {c : Config} (h : c.Legal) :
    c.symW < 2 ^ 5 ∧ c.freqW < 2 ^ 6 ∧ c.maxLeaves < 2 ^ 11 ∧ c.cntW < 2 ^ 6 := by
  obtain ⟨⟨_, hsym⟩, ⟨_, hfreq⟩, ⟨_, _, hleaves⟩, ⟨_, hcnt⟩⟩ := h
  omega

/-- Settles O7: `CONFIG` is a function of the parameters, which every legal configuration fits into its fields and no
command and no reset changes. -/
theorem configRegister : Obligations.ConfigRegister := by
  refine ⟨fun s hlegal => ?_, fun w s t h => ?_, fun s => rfl, by decide⟩
  · obtain ⟨hsym, hfreq, hleaves, hcnt⟩ := configFields_of_legal hlegal
    obtain ⟨symField, freqField, leavesField, cntField, zeroField⟩ := configReg_extract s.cfg
    simp only [State.csr, symField, freqField, leavesField, cntField, zeroField]
    exact ⟨toNat_ofNat_of_lt hsym, toNat_ofNat_of_lt hfreq, toNat_ofNat_of_lt hleaves, toNat_ofNat_of_lt hcnt,
      trivial⟩
  · obtain ⟨hcfg, _, _⟩ := runWord_frame h
    simp only [State.csr, hcfg]

/-! ### `STATUS` (R46) -/

/-- The fields of `STATUS`. -/
theorem statusReg_extract (s : State) :
    (statusReg s).extractLsb' 0 3 = s.phase.code ∧ (statusReg s).extractLsb' 3 1 = BitVec.ofBool s.rootValid ∧
      (statusReg s).extractLsb' 4 4 = errCode s.err ∧ (statusReg s).extractLsb' 8 1 = BitVec.ofBool s.rfs ∧
      (statusReg s).extractLsb' 9 4 = rcauseCode s.rcause ∧ (statusReg s).extractLsb' 13 43 = 0 := by
  unfold statusReg
  refine ⟨BitVec.extractLsb'_append_eq_right, ?_, ?_, ?_, ?_, ?_⟩
  · rw [extract_append_high (m := 3) _ _ 3 1 (by decide)]
    exact BitVec.extractLsb'_append_eq_right
  · rw [extract_append_high (m := 3) _ _ 4 4 (by decide), extract_append_high (m := 1) _ _ 1 4 (by decide)]
    exact BitVec.extractLsb'_append_eq_right
  · rw [extract_append_high (m := 3) _ _ 8 1 (by decide), extract_append_high (m := 1) _ _ 5 1 (by decide),
      extract_append_high (m := 4) _ _ 4 1 (by decide)]
    exact BitVec.extractLsb'_append_eq_right
  · rw [extract_append_high (m := 3) _ _ 9 4 (by decide), extract_append_high (m := 1) _ _ 6 4 (by decide),
      extract_append_high (m := 4) _ _ 5 4 (by decide), extract_append_high (m := 1) _ _ 1 4 (by decide)]
    exact BitVec.extractLsb'_append_eq_right
  · rw [extract_append_high (m := 3) _ _ 13 43 (by decide), extract_append_high (m := 1) _ _ 10 43 (by decide),
      extract_append_high (m := 4) _ _ 9 43 (by decide), extract_append_high (m := 1) _ _ 5 43 (by decide),
      extract_append_high (m := 4) _ _ 4 43 (by decide)]
    exact extract_all _

theorem statusReg_rfs (s : State) : (statusReg s).getLsbD 8 = s.rfs := by
  obtain ⟨_, _, _, hrfs, _, _⟩ := statusReg_extract s
  exact getLsbD_of_extract_ofBool hrfs

theorem statusReg_rootValid (s : State) : (statusReg s).getLsbD 3 = s.rootValid := by
  obtain ⟨_, hroot, _, _, _, _⟩ := statusReg_extract s
  exact getLsbD_of_extract_ofBool hroot

/-- No refusal cause has the code 0 (R207). -/
theorem rcauseCode_toNat_eq_zero (r : Option Cause) : (rcauseCode r).toNat = 0 ↔ r = none := by
  cases r with
  | none => simp [rcauseCode]
  | some cause => cases cause <;> simp [rcauseCode, causeCode]

/-- While `rcause` is 0 no refusal is recorded, and the other way round (R23). -/
theorem State.Inv.rcause_eq_none_iff {s : State} (h : s.Inv) : s.rcause = none ↔ s.rfs = false := by
  obtain ⟨_, _, ⟨_, hrec⟩, _, _, _⟩ := h
  rw [← not_iff_not, Bool.not_eq_false]
  exact hrec

theorem statusReg_resetIn (c : Config) : statusReg (State.resetIn c) = 0 := by
  simp only [statusReg, State.resetIn_phase, State.resetIn_rootValid, State.resetIn_err, State.resetIn_rfs,
    State.resetIn_rcause]
  decide

/-- Settles O8: the fields of `STATUS` are the codes of the state's records. -/
theorem statusRegister : Obligations.StatusRegister := by
  refine ⟨fun s => ?_, fun s hinv => ?_, statusReg_resetIn⟩
  · obtain ⟨hphase, _, herr, _, hcause, hzero⟩ := statusReg_extract s
    simp only [State.csr, hphase, herr, hcause, statusReg_rfs, statusReg_rootValid]
    refine ⟨?_, trivial, ?_, trivial, ?_, hzero⟩
    · cases s.phase <;> rfl
    · rcases s.err with _ | _ | _ | _ <;> rfl
    · rcases s.rcause with _ | cause
      · rfl
      · cases cause <;> rfl
  · obtain ⟨_, _, _, _, hcause, _⟩ := statusReg_extract s
    simp only [State.csr, hcause, statusReg_rfs]
    exact (rcauseCode_toNat_eq_zero s.rcause).trans hinv.rcause_eq_none_iff

/-! ### The registers of counts, indices and counters (R47 to R53) -/

theorem indexReg_toNat {n : Nat} (h : n < 2 ^ 11) : (indexReg n).toNat = n := by
  have hwide : n < 2 ^ 56 := by omega
  rw [indexReg, BitVec.toNat_setWidth, toNat_ofNat_of_lt h, Nat.mod_eq_of_lt hwide]

theorem counterReg_toNat {c : Config} {n : Nat} (hc : c.Legal) (h : n < 2 ^ c.cntW) : (counterReg c n).toNat = n := by
  obtain ⟨_, _, _, ⟨_, hcnt⟩⟩ := hc
  have hwide : 2 ^ c.cntW ≤ 2 ^ 56 := Nat.pow_le_pow_right (by decide) hcnt
  rw [counterReg, Nat.mod_eq_of_lt h, toNat_ofNat_of_lt (by omega)]

theorem rootReg_of_invalid {s : State} (h : s.rootValid = false) : rootReg s = 0 := by simp [rootReg, h]

/-- A forest has no more roots than records, and `pq` holds roots only (R29). -/
theorem State.ForestInv.pq_length_le {s : State} (h : s.ForestInv) : s.pq.length ≤ s.node.length := by
  have hroots : s.pq.length ≤ s.forestRoots.length := by
    unfold State.forestRoots
    split <;> simp
  obtain ⟨_, _, _, _, _, hperm, _⟩ := h
  have hlen := hperm.length_eq
  simp only [List.length_append, List.length_range] at hlen
  omega

/-- The root and the position are written indices, or 0 before anything is written. -/
theorem State.Inv.root_cur_le {s : State} (h : s.Inv) : s.root ≤ s.node.length ∧ s.cur ≤ s.node.length := by
  by_cases hv : s.rootValid = true
  · obtain ⟨_, hroot, hcur, _, _⟩ := h.rooted hv
    omega
  · obtain ⟨_, _, _, ⟨_, _, hinvalid⟩, _, _⟩ := h
    obtain ⟨hroot, hcur, _, _⟩ := hinvalid (by simpa using hv)
    omega

theorem State.Inv.nLeaves_le {s : State} (h : s.Inv) : s.nLeaves ≤ 1024 := by
  obtain ⟨⟨_, _, ⟨_, _, hmax⟩, _⟩, ⟨_, _, ⟨hn, _, _⟩, _⟩, _⟩ := h
  omega

/-- What `ROOT` reads under the invariant: the root, which is 0 while it is not valid (R33, R50). -/
theorem State.Inv.rootReg_eq {s : State} (h : s.Inv) : rootReg s = indexReg s.root := by
  unfold rootReg
  split
  · rfl
  · next hv =>
    obtain ⟨_, _, _, ⟨_, _, hinvalid⟩, _, _⟩ := h
    obtain ⟨hroot, _⟩ := hinvalid (by simpa using hv)
    rw [hroot]
    rfl

/-- Settles O9: there are at most 2047 records, so every count and index fits its 11 bits. -/
theorem indexRegisters : Obligations.IndexRegisters := by
  refine ⟨fun s h => ?_, fun s hv => rootReg_of_invalid hv, fun c => ⟨rfl, rfl, rfl, rfl, rfl⟩⟩
  have hnode := h.length_le
  have hleaves := h.nLeaves_le
  have ⟨_, hforest, _⟩ := h
  have hpq := State.ForestInv.pq_length_le hforest
  obtain ⟨hroot, hcur⟩ := h.root_cur_le
  have bnode : s.node.length < 2 ^ 11 := by omega
  have bleaves : s.nLeaves < 2 ^ 11 := by omega
  have bpq : s.pq.length < 2 ^ 11 := by omega
  have broot : s.root < 2 ^ 11 := by omega
  have bcur : s.cur < 2 ^ 11 := by omega
  simp only [State.csr, h.rootReg_eq]
  exact ⟨indexReg_toNat bnode, indexReg_toNat bleaves, indexReg_toNat bpq, indexReg_toNat broot, indexReg_toNat bcur,
    bnode, bleaves, bpq, broot, bcur⟩

/-- Settles O10: the counters never pass `2 ^ CNT_W - 1` (R36). -/
theorem counterRegisters : Obligations.CounterRegisters := by
  refine ⟨fun s h => ?_, fun c => ⟨?_, ?_⟩⟩
  · obtain ⟨hlegal, _, _, _, _, ⟨hemit, hcursor⟩⟩ := h
    have hpos : 0 < 2 ^ s.cfg.cntW := Nat.two_pow_pos _
    rw [Config.cntMax] at hcursor
    have bcursor : s.cursor < 2 ^ s.cfg.cntW := by omega
    have bemit : s.emitCnt < 2 ^ s.cfg.cntW := by omega
    exact ⟨counterReg_toNat hlegal bcursor, bcursor, counterReg_toNat hlegal bemit, bemit⟩
  · simp [State.csr, counterReg]
  · simp [State.csr, counterReg]

/-! ### `PopMin` (R31) -/

/-- Settles O18: `popMin_spec`, with the set that is left as the members other than the one taken. -/
theorem popMinTakesLeastKey : Obligations.PopMinTakesLeastKey := by
  intro m pq hwf hwritten hne
  obtain ⟨⟨f, i⟩, hpop, hmem, hfreq, hleast⟩ := popMin_spec hwritten hne
  obtain ⟨r, hr, rfl⟩ := Option.map_eq_some_iff.mp hfreq
  refine ⟨i, r, hmem, hr, by rw [hpop, pqWf_erase_eq i hwf], fun j hj hji x hx => ?_⟩
  exact hleast j hj hji x.freq (by rw [hx]; rfl)

/-! ### Refusals (R23, R209) -/

/-- A refusal while one is recorded already only answers. -/
theorem State.refuse_of_rfs {s : State} (cause : Cause) (h : s.rfs = true) :
    s.refuse cause = { s with channel := .offered (refusedWord cause) } := by
  simp [State.refuse, State.noteRefusal, State.respond, h]

/-- What a refusal writes is the refusal record and the response. -/
theorem State.refuse_eq_afterRefusal (s : State) (cause : Cause) :
    s.refuse cause = afterRefusal s cause (refusedWord cause) := by
  cases h : s.rfs with
  | false => simp [State.refuse, State.noteRefusal, State.respond, afterRefusal, h]
  | true => simp [State.refuse_of_rfs, afterRefusal, h]

/-- A command word is answered `REFUSED` only by a refusal (R209). -/
theorem runWord_refused {w : Word} {s t : State} {r : Word} (h : runWord w s = .next t) (hr : t.channel = .offered r)
    (hk : respKind r = 4) : ∃ cause, t = s.refuse cause ∧ r = refusedWord cause := by
  cases runWord_effect h with
  | refused cause hd =>
    simp only [State.refuse_channel, Channel.offered.injEq] at hr
    exact ⟨cause, rfl, hr.symm⟩
  | _ =>
    obtain rfl : _ = r := by simpa using hr
    simp at hk

/-- However the merge loop ends, only the node memory and `pq` are others. -/
theorem mergeLoop_result_frame {n : Nat} {s u : State}
    (h : mergeLoop n s = .ok (.complete u) ∨ mergeLoop n s = .ok (.overflow u)) :
    u = { s with node := u.node, pq := u.pq } := by
  rcases h with h | h
  all_goals
    obtain ⟨v, hv, hf, _⟩ := mergeLoop_frame h
    obtain rfl : u = v := by simpa using hv
    exact hf

/-- A command word that is neither refused nor `CLEAR` leaves the refusal record. -/
theorem runWord_keeps_refusal_record {w : Word} {s t : State} {r : Word} (h : runWord w s = .next t)
    (hr : t.channel = .offered r) (hk : respKind r ≠ 4) (hd : decode s.cfg w ≠ .ok .clear) :
    t.rfs = s.rfs ∧ t.rcause = s.rcause := by
  cases runWord_effect h with
  | refused cause hd =>
    simp only [State.refuse_channel, Channel.offered.injEq] at hr
    subst hr
    exact absurd (respKind_refusedWord cause) hk
  | cleared hclear => exact absurd hclear hd
  | buildOverflow u _ _ _ hm => rw [mergeLoop_result_frame (.inr hm)]; exact ⟨rfl, rfl⟩
  | built u _ _ _ _ hm => rw [mergeLoop_result_frame (.inl hm)]; exact ⟨rfl, rfl⟩
  | _ => exact ⟨rfl, rfl⟩

theorem runWord_clear {w : Word} {s t : State} (h : runWord w s = .next t) (hd : decode s.cfg w = .ok .clear) :
    t = s.clearAll.respond okWord := by
  simp only [runWord, hd, exec, execClear, Host.Outcome.next.injEq] at h
  exact h.symm

/-- Settles O40: a refusal is `State.refuse`, and only it and `CLEAR` write the refusal record. -/
theorem refusalRecordKeepsFirstCause : Obligations.RefusalRecordKeepsFirstCause := by
  refine ⟨fun w s t r h hr => ⟨fun hk hrfs => ?_, fun hk hrfs => ?_, runWord_keeps_refusal_record h hr, fun hd => ?_⟩,
    fun s => ⟨rfl, rfl⟩⟩
  · obtain ⟨cause, rfl, rfl⟩ := runWord_refused h hr hk
    exact ⟨s.refuse_rfs cause, cause, by simp [hrfs], respCode_refusedWord cause, s.refuse_eq_afterRefusal cause⟩
  · obtain ⟨cause, rfl, rfl⟩ := runWord_refused h hr hk
    exact ⟨s.refuse_rfs cause, by simp [hrfs], s.refuse_of_rfs cause hrfs⟩
  · rw [runWord_clear h hd]
    exact ⟨rfl, rfl⟩

/-! ### The finished tree (R38) -/

/-- Settles O45: the only writers of the tree beside `CLEAR` run in `COLLECT`, where no root is valid. -/
theorem treeImmutableOnceBuilt : Obligations.TreeImmutableOnceBuilt := by
  intro w s t hinv hv h hd
  have hphase : s.phase ≠ .collect := by
    intro hp
    obtain ⟨hinvalid, _⟩ := hinv.collect hp
    exact absurd (hinvalid.symm.trans hv) (by decide)
  cases runWord_effect h with
  | refused cause hd => exact ⟨by simp, by simp [State.nNodes], by simp, by simp, by simpa using hv⟩
  | cleared hclear => exact absurd hclear hd
  | pushed _ _ _ hp => exact absurd hp hphase
  | buildEmpty _ hp => exact absurd hp hphase
  | buildOverflow _ _ hp => exact absurd hp hphase
  | built _ _ _ hp => exact absurd hp hphase
  | _ => exact ⟨rfl, rfl, rfl, rfl, hv⟩

/-! ### The phase table (R43) -/

/-- What the table of R43 asks of the state after an admitted command: the phase and the fault record of its row, and a
response that is no `BAD_PHASE` refusal and, when it is another refusal, leaves the phase. -/
def FollowsTable (s : State) (i : Instr) (t : State) : Prop :=
  phaseAfter s i t.phase t.err = true ∧
    ∃ r, t.channel = .offered r ∧ r ≠ 0x4300000000000000#64 ∧ (respKind r = 4 → t.phase = s.phase)

/-- A command that is not refused has only its row of the table to follow. -/
theorem followsTable_of_accepted {s t : State} {i : Instr} {r : Word} (hr : t.channel = .offered r)
    (hk : respKind r ≠ 4) (h : phaseAfter s i t.phase t.err = true) : FollowsTable s i t := by
  refine ⟨h, r, hr, ?_, fun h4 => absurd h4 hk⟩
  rintro rfl
  exact hk (respKind_refusedWord .badPhase)

/-- A refusal for another cause than the phase follows the table where the table allows the phase as it is. -/
theorem followsTable_of_refused {s : State} {i : Instr} {cause : Cause} (hc : cause ≠ .badPhase)
    (h : phaseAfter s i s.phase s.err = true) : FollowsTable s i (s.refuse cause) := by
  refine ⟨by simpa using h, refusedWord cause, rfl, fun hw => hc ?_, fun _ => s.refuse_phase cause⟩
  have hcode : respCode (refusedWord cause) = respCode (refusedWord .badPhase) := congrArg respCode hw
  simpa using causeCode_injective (by simpa using hcode)

theorem followsTable_pushLeaf {sym : Symbol} {freq : BitVec 32} {s t : State} (hp : s.phase = .collect)
    (h : execPushLeaf sym freq s = .next t) : FollowsTable s (.pushLeaf sym freq) t := by
  rcases execPushLeaf_cases h with ⟨hn, _⟩ | ⟨_, _, rfl⟩ | ⟨_, _, _, rfl⟩ | ⟨_, _, _, rfl⟩
  · exact absurd hp hn
  · exact followsTable_of_refused (by decide) (by simp [phaseAfter, hp])
  · exact followsTable_of_refused (by decide) (by simp [phaseAfter, hp])
  · exact followsTable_of_accepted rfl (by simp) (by simp [phaseAfter, hp])

theorem followsTable_build {s t : State} (hp : s.phase = .collect) (h : execBuild s = .next t) :
    FollowsTable s .build t := by
  rcases execBuild_cases h with ⟨hn, _⟩ | ⟨_, hq, rfl⟩ | ⟨u, _, hq, _, rfl⟩ | ⟨u, r, _, hq, hm, rfl⟩
  · exact absurd hp hn
  · exact followsTable_of_accepted rfl (by simp) (by simp [phaseAfter, hq])
  · exact followsTable_of_accepted rfl (by simp) (by simp [phaseAfter, hq])
  · have herr : u.err = s.err := by rw [mergeLoop_result_frame (.inl hm)]
    exact followsTable_of_accepted rfl (by simp) (by simp [phaseAfter, hq, herr])

theorem followsTable_decStart {s t : State} (hp : s.phase = .built) (h : execDecStart s = .next t) :
    FollowsTable s .decStart t := by
  rcases execDecStart_cases h with ⟨hn, _⟩ | ⟨_, rfl⟩
  · exact absurd hp hn
  · exact followsTable_of_accepted rfl (by simp) (by simp [phaseAfter])

theorem followsTable_decBit {b : Bool} {s t : State} (hp : s.phase = .decoding) (h : execDecBit b s = .next t) :
    FollowsTable s (.decBit b) t := by
  have hsame : phaseAfter s (.decBit b) s.phase s.err = true := by simp [phaseAfter, hp]
  rcases execDecBit_cases h with ⟨hn, _⟩ | ⟨_, _, rfl⟩ | ⟨_, _, hwalk⟩
  · exact absurd hp hn
  · exact followsTable_of_refused (by decide) hsame
  · rcases hwalk with ⟨sym, f, _, rfl⟩ | ⟨_, _, _, _, _, _, _, _, ⟨sym, g, _, rfl⟩ | ⟨_, _, _, _, rfl⟩⟩
    · exact followsTable_of_accepted rfl (by simp) hsame
    · exact followsTable_of_accepted rfl (by simp) hsame
    · exact followsTable_of_accepted rfl (by simp) hsame

theorem followsTable_decEnd {s t : State} (hp : s.phase = .decoding) (h : execDecEnd s = .next t) :
    FollowsTable s .decEnd t := by
  rcases execDecEnd_cases h with ⟨hn, _⟩ | ⟨_, hc, rfl⟩ | ⟨_, hc, rfl⟩
  · exact absurd hp hn
  · exact followsTable_of_accepted rfl (by simp) (by simp [phaseAfter, hc])
  · exact followsTable_of_accepted rfl (by simp) (by simp [phaseAfter, hc])

theorem followsTable_rdNode {k : BitVec 32} {s t : State} (h : execRdNode k s = .next t) :
    FollowsTable s (.rdNode k) t := by
  rcases execRdNode_cases h with ⟨_, rfl⟩ | ⟨r, _, rfl⟩
  · exact followsTable_of_refused (by decide) (by simp [phaseAfter])
  · exact followsTable_of_accepted rfl (by simp) (by simp [phaseAfter])

/-- Every admitted command that answers follows its row of the table. -/
theorem exec_followsTable {i : Instr} {s t : State} (ha : admits s.phase i = true) (h : exec i s = .next t) :
    FollowsTable s i t := by
  cases i with
  | clear =>
    obtain rfl : s.clearAll.respond okWord = t := by simpa [exec, execClear] using h
    exact followsTable_of_accepted rfl (by simp) (by simp [phaseAfter])
  | pushLeaf sym freq => exact followsTable_pushLeaf (by simpa [admits] using ha) h
  | build => exact followsTable_build (by simpa [admits] using ha) h
  | decStart => exact followsTable_decStart (by simpa [admits] using ha) h
  | decBit b => exact followsTable_decBit (by simpa [admits] using ha) h
  | decEnd => exact followsTable_decEnd (by simpa [admits] using ha) h
  | rdReg n =>
    obtain rfl : s.respond (dataWord (s.csr n)) = t := by simpa [exec, execRdReg] using h
    exact followsTable_of_accepted rfl (by simp) (by simp [phaseAfter])
  | rdNode k => exact followsTable_rdNode h

/-- A command out of its phase is refused `BAD_PHASE` (R43). -/
theorem exec_of_not_admitted {i : Instr} {s : State} (h : admits s.phase i = false) :
    exec i s = .next (s.refuse .badPhase) := by
  cases i with
  | clear => simp [admits] at h
  | pushLeaf sym freq => exact if_pos (by simpa [admits] using h)
  | build => exact if_pos (by simpa [admits] using h)
  | decStart => exact if_pos (by simpa [admits] using h)
  | decBit b => exact if_pos (by simpa [admits] using h)
  | decEnd => exact if_pos (by simpa [admits] using h)
  | rdReg n => simp [admits] at h
  | rdNode k => simp [admits] at h

/-- Settles O27: each row of the table of R43, by the command. -/
theorem phaseTable : Obligations.PhaseTable := by
  refine ⟨fun i s ha => ?_, fun i s t ha h => ?_, fun w s t cause hd h => ?_⟩
  · rw [exec_of_not_admitted ha, State.refuse_eq_afterRefusal]
    rfl
  · obtain ⟨hphase, hanswer⟩ := exec_followsTable ha h
    refine ⟨hphase, hanswer, ?_⟩
    rintro rfl
    obtain rfl : s.clearAll.respond okWord = t := by simpa [exec, execClear] using h
    rfl
  · simp only [runWord, hd, Host.Outcome.next.injEq] at h
    rw [← h, State.refuse_phase]

end Sys2Proof.Machine
end

section
/-! The statements of 30_encoding.md about refused words, the static operand check and the payload layouts, each settled
from what the decoder does with a word of each opcode and from the fields of a layout. -/

namespace Sys2Proof.Machine

open Sys2Proof.Claims

/-! ### What a command word does, by what it decodes to -/

/-- A word that is no command changes the refusal record and nothing else of the block (R83, R209). -/
theorem runWord_of_error {w : Word} {s : State} {cause : Cause} (h : decode s.cfg w = .error cause) :
    runWord w s = .next (afterRefusal s cause (refusedWord cause)) := by
  rw [runWord, h, ← State.refuse_eq_afterRefusal]

/-- Any other word has the meaning of its command (R100). -/
theorem runWord_of_ok {w : Word} {s : State} {i : Instr} (h : decode s.cfg w = .ok i) : runWord w s = exec i s := by
  rw [runWord, h]

/-! ### Unassigned opcodes (R88) -/

theorem decode_of_unassigned {w : Word} (c : Config) (h : opField w = 0 ∨ 9 ≤ (opField w).toNat) :
    decode c w = .error .illegalOpcode := by
  have hrange : (opField w).toNat = 0 ∨ 9 ≤ (opField w).toNat := h.imp_left fun h0 => by rw [h0]; rfl
  unfold decode
  split
  case h_9 => rfl
  all_goals omega

/-- Settles O4: the decoder reads no other field of such a word, and the state enters by the refusal record only. -/
theorem unassignedOpcodeRefused : Obligations.UnassignedOpcodeRefused := by
  intro w s h
  exact runWord_of_error (decode_of_unassigned s.cfg h)

/-! ### The static operand check (R86, R87) -/

/-- A result of decoding is the refusal `BAD_OPERAND` when `bad` holds, and a command when it does not. -/
def ChecksOperands (bad : Prop) (r : Except Cause Instr) : Prop :=
  (bad → r = .error .badOperand) ∧ (¬ bad → ∃ i, r = .ok i)

theorem ChecksOperands.of_iff {bad bad' : Prop} {r : Except Cause Instr} (h : ChecksOperands bad r)
    (hiff : bad' ↔ bad) : ChecksOperands bad' r := by
  rwa [hiff]

theorem checksOperands_ite (bad : Prop) [Decidable bad] (i : Instr) :
    ChecksOperands bad (if bad then .error .badOperand else .ok i) :=
  ⟨fun h => if_pos h, fun h => ⟨i, if_neg h⟩⟩

theorem decodeBare_checks (i : Instr) (w : Word) :
    ChecksOperands (aField w ≠ 0 ∨ bField w ≠ 0) (decodeBare i w) :=
  checksOperands_ite _ i

/-- The reserved bits of `PUSH_LEAF` are 0 exactly when `A` is below `2 ^ 21`. -/
theorem symReserved_ne_zero_iff (w : Word) : symReserved w ≠ 0 ↔ 2 ^ 21 ≤ (aField w).toNat := by
  rw [ne_eq, ← BitVec.toNat_inj, symReserved_toNat, BitVec.ofNat_eq_ofNat, BitVec.toNat_zero]
  omega

/-- The reserved bits of `DEC_BIT` are 0 exactly when `B` is a digit. -/
theorem bitReserved_ne_zero_iff (w : Word) : bitReserved w ≠ 0 ↔ 2 ≤ (bField w).toNat := by
  rw [ne_eq, ← BitVec.toNat_inj, bitReserved_toNat, BitVec.ofNat_eq_ofNat, BitVec.toNat_zero]
  omega

theorem decodePushLeaf_checks (c : Config) (w : Word) :
    ChecksOperands (2 ^ 21 ≤ (aField w).toNat ∨ 2 ^ c.symW ≤ (aField w).toNat % 2 ^ 21 ∨
      2 ^ c.freqW ≤ (bField w).toNat) (decodePushLeaf c w) := by
  refine (checksOperands_ite _ _).of_iff ?_
  rw [symReserved_ne_zero_iff, symOperand_toNat, Config.symLimit, Config.freqLimit]

theorem decodeDecBit_checks (w : Word) :
    ChecksOperands (aField w ≠ 0 ∨ 2 ≤ (bField w).toNat) (decodeDecBit w) := by
  refine (checksOperands_ite _ _).of_iff ?_
  rw [bitReserved_ne_zero_iff]

theorem decodeRdReg_checks (w : Word) :
    ChecksOperands (aField w ≠ 0 ∨ 9 ≤ (bField w).toNat) (decodeRdReg w) := by
  rw [← statusRegOf_eq_none]
  unfold decodeRdReg
  cases statusRegOf (bField w) with
  | none => simp [ChecksOperands]
  | some n => exact (checksOperands_ite _ (.rdReg n)).of_iff (by simp)

theorem decodeRdNode_checks (w : Word) : ChecksOperands (aField w ≠ 0) (decodeRdNode w) :=
  checksOperands_ite _ _

/-- The words with an assigned opcode that R87 refuses: a nonzero must-be-zero field or an operand out of range. -/
def BadOperand (c : Config) (w : Word) : Prop :=
  (opField w = 1 ∨ opField w = 3 ∨ opField w = 4 ∨ opField w = 6) ∧ (aField w ≠ 0 ∨ bField w ≠ 0) ∨
  opField w = 2 ∧ (2 ^ 21 ≤ (aField w).toNat ∨ 2 ^ c.symW ≤ (aField w).toNat % 2 ^ 21 ∨
    2 ^ c.freqW ≤ (bField w).toNat) ∨
  opField w = 5 ∧ (aField w ≠ 0 ∨ 2 ≤ (bField w).toNat) ∨
  opField w = 7 ∧ (aField w ≠ 0 ∨ 9 ≤ (bField w).toNat) ∨
  opField w = 8 ∧ aField w ≠ 0

/-- Each row of the opcode table makes its own check and no other row's. -/
theorem decode_checks (c : Config) (w : Word) (h1 : 1 ≤ (opField w).toNat) (h8 : (opField w).toNat ≤ 8) :
    ChecksOperands (BadOperand c w) (decode c w) := by
  have hop (k : Nat) (hk : (opField w).toNat = k) : opField w = BitVec.ofNat 8 k := by
    rw [← hk, BitVec.ofNat_toNat, BitVec.setWidth_eq]
  unfold decode
  split
  case h_1 hk => exact (decodeBare_checks .clear w).of_iff (by simp [BadOperand, hop 1 hk])
  case h_2 hk => exact (decodePushLeaf_checks c w).of_iff (by simp [BadOperand, hop 2 hk])
  case h_3 hk => exact (decodeBare_checks .build w).of_iff (by simp [BadOperand, hop 3 hk])
  case h_4 hk => exact (decodeBare_checks .decStart w).of_iff (by simp [BadOperand, hop 4 hk])
  case h_5 hk => exact (decodeDecBit_checks w).of_iff (by simp [BadOperand, hop 5 hk])
  case h_6 hk => exact (decodeBare_checks .decEnd w).of_iff (by simp [BadOperand, hop 6 hk])
  case h_7 hk => exact (decodeRdReg_checks w).of_iff (by simp [BadOperand, hop 7 hk])
  case h_8 hk => exact (decodeRdNode_checks w).of_iff (by simp [BadOperand, hop 8 hk])
  case h_9 => simp only [imp_false] at *; omega

/-- Settles O5: `decode_checks`, made before the state is looked at. -/
theorem staticOperandCheck : Obligations.StaticOperandCheck := by
  intro w s h1 h8
  obtain ⟨hbad, hgood⟩ := decode_checks s.cfg w h1 h8
  refine ⟨fun h => runWord_of_error (hbad h), fun h => ?_⟩
  obtain ⟨i, hi⟩ := hgood h
  exact ⟨i, hi, runWord_of_ok hi⟩

/-! ### The payload layouts (R95, R96) -/

/-- Above its symbol the payload of an `EMIT` response is zero. -/
theorem emitPayload_high (sym : Symbol) : (respPayload (emitWord sym)).extractLsb' 21 35 = 0 := by
  rw [emitWord, respPayload_respWord]
  apply BitVec.eq_of_getLsbD_eq
  intro i hi
  simp [hi]

/-- The fields of a Leaf record, the frequency cut to its width. -/
theorem leafLayout_extract (sym : Symbol) (f : Nat) :
    (recordLayout (.leaf sym f)).extractLsb' 55 1 = BitVec.ofBool false ∧
      (recordLayout (.leaf sym f)).extractLsb' 23 32 = BitVec.ofNat 32 f ∧
      (recordLayout (.leaf sym f)).extractLsb' 21 2 = 0 ∧ (recordLayout (.leaf sym f)).extractLsb' 0 21 = sym := by
  unfold recordLayout
  refine ⟨?_, ?_, ?_, BitVec.extractLsb'_append_eq_right⟩
  · rw [extract_append_high (m := 21) _ _ 55 1 (by decide), extract_append_high (m := 2) _ _ 34 1 (by decide),
      extract_append_high (m := 32) _ _ 32 1 (by decide)]
    exact extract_all _
  · rw [extract_append_high (m := 21) _ _ 23 32 (by decide), extract_append_high (m := 2) _ _ 2 32 (by decide)]
    exact BitVec.extractLsb'_append_eq_right
  · rw [extract_append_high (m := 21) _ _ 21 2 (by decide)]
    exact BitVec.extractLsb'_append_eq_right

/-- The fields of an Internal record, the frequency and the children cut to their widths. -/
theorem internalLayout_extract (f l r : Nat) :
    (recordLayout (.internal f l r)).extractLsb' 55 1 = BitVec.ofBool true ∧
      (recordLayout (.internal f l r)).extractLsb' 23 32 = BitVec.ofNat 32 f ∧
      (recordLayout (.internal f l r)).extractLsb' 22 1 = 0 ∧
      (recordLayout (.internal f l r)).extractLsb' 11 11 = BitVec.ofNat 11 l ∧
      (recordLayout (.internal f l r)).extractLsb' 0 11 = BitVec.ofNat 11 r := by
  unfold recordLayout
  refine ⟨?_, ?_, ?_, ?_, BitVec.extractLsb'_append_eq_right⟩
  · rw [extract_append_high (m := 11) _ _ 55 1 (by decide), extract_append_high (m := 11) _ _ 44 1 (by decide),
      extract_append_high (m := 1) _ _ 33 1 (by decide), extract_append_high (m := 32) _ _ 32 1 (by decide)]
    exact extract_all _
  · rw [extract_append_high (m := 11) _ _ 23 32 (by decide), extract_append_high (m := 11) _ _ 12 32 (by decide),
      extract_append_high (m := 1) _ _ 1 32 (by decide)]
    exact BitVec.extractLsb'_append_eq_right
  · rw [extract_append_high (m := 11) _ _ 22 1 (by decide), extract_append_high (m := 11) _ _ 11 1 (by decide)]
    exact BitVec.extractLsb'_append_eq_right
  · rw [extract_append_high (m := 11) _ _ 11 11 (by decide)]
    exact BitVec.extractLsb'_append_eq_right

/-- The host reads a Leaf record back when its frequency fits 32 bits. -/
theorem recordOfLayout_leaf (sym : Symbol) {f : Nat} (hf : f < 2 ^ 32) :
    recordOfLayout (recordLayout (.leaf sym f)) = .leaf sym f := by
  obtain ⟨htag, hfreq, _, hsym⟩ := leafLayout_extract sym f
  rw [recordOfLayout, getLsbD_of_extract_ofBool htag, hfreq, hsym, toNat_ofNat_of_lt hf]
  rfl

/-- The host reads an Internal record back when its frequency fits 32 bits and its children 11. -/
theorem recordOfLayout_internal {f l r : Nat} (hf : f < 2 ^ 32) (hl : l < 2 ^ 11) (hr : r < 2 ^ 11) :
    recordOfLayout (recordLayout (.internal f l r)) = .internal f l r := by
  obtain ⟨htag, hfreq, _, hleft, hright⟩ := internalLayout_extract f l r
  rw [recordOfLayout, getLsbD_of_extract_ofBool htag, hfreq, hleft, hright, toNat_ofNat_of_lt hf,
    toNat_ofNat_of_lt hl, toNat_ofNat_of_lt hr]
  rfl

/-- Settles O6: the extracted fields, none of them cut when the values fit, and the host's reading of them. -/
theorem payloadLayouts : Obligations.PayloadLayouts := by
  refine ⟨fun sym => ?_, fun sym f hf => ?_, fun f l r hf hl hr => ?_, by decide, by decide, by decide, by decide⟩
  · exact ⟨respSymbol_emitWord sym, emitPayload_high sym, respKind_emitWord sym, respCode_respWord _ _ _⟩
  · obtain ⟨htag, hfreq, hzero, hsym⟩ := leafLayout_extract sym f
    exact ⟨getLsbD_of_extract_ofBool htag, by rw [hfreq, toNat_ofNat_of_lt hf], hzero, hsym,
      recordOfLayout_leaf sym hf⟩
  · obtain ⟨htag, hfreq, hzero, hleft, hright⟩ := internalLayout_extract f l r
    exact ⟨getLsbD_of_extract_ofBool htag, by rw [hfreq, toNat_ofNat_of_lt hf], hzero,
      by rw [hleft, toNat_ofNat_of_lt hl], by rw [hright, toNat_ofNat_of_lt hr], recordOfLayout_internal hf hl hr⟩

end Sys2Proof.Machine
end

section
/-! The statements of 40_builder_commands.md about the merge step and `BUILD`. A merge step merges the two least members
of `pq` and keeps the forest; `Merges` runs such steps one after another; what `BUILD` answers follows from how many of
them there are before the loop ends. -/

namespace Sys2Proof.Machine

/-! ### One merge step (R116 to R118) -/

/-- The write of R117: the Internal record with the children `i` and `j`, which leave `pq` to its index. -/
def State.mergePair (f i j : Nat) (s : State) : State :=
  { s with node := s.node ++ [.internal f i j], pq := (s.pq.erase i).erase j ++ [s.node.length] }

theorem pqInsert_erase_erase {s : State} (h : ∀ i ∈ s.pq, i < s.node.length) (i j : Nat) :
    pqInsert s.node.length ((s.pq.erase i).erase j) = (s.pq.erase i).erase j ++ [s.node.length] :=
  pqInsert_of_lt _ _ fun k hk => h k (List.mem_of_mem_erase (List.mem_of_mem_erase hk))

theorem pqWf_erase_erase_eq {l : List Nat} (h : pqWf l) (i j : Nat) :
    (l.erase i).erase j = l.filter (fun k => k ≠ i ∧ k ≠ j) := by
  rw [pqWf_erase_eq j (pqWf_erase i h), pqWf_erase_eq i h, List.filter_filter]
  exact List.filter_congr fun k _ => by simp [Bool.and_comm]

/-- In the form of R29 the members taken are filtered out. -/
theorem State.mergePair_eq_filter {s : State} (h : pqWf s.pq) (f i j : Nat) :
    s.mergePair f i j = { s with
      node := s.node ++ [.internal f i j],
      pq := s.pq.filter (fun k => k ≠ i ∧ k ≠ j) ++ [s.node.length] } := by
  rw [State.mergePair, pqWf_erase_erase_eq h]

/-- A merge step that merges is the write of R117 for two different members of `pq`. -/
theorem mergeStep_eq_mergePair {s t : State} (hlt : ∀ i ∈ s.pq, i < s.node.length)
    (h : mergeStep s = .ok (.merged t)) :
    ∃ a b : Key, a.2 ∈ s.pq ∧ b.2 ∈ s.pq.erase a.2 ∧
      s.node[a.2]?.map NodeRec.freq = some a.1 ∧ s.node[b.2]?.map NodeRec.freq = some b.1 ∧
      a.1 + b.1 < s.cfg.freqLimit ∧ t = s.mergePair (a.1 + b.1) a.2 b.2 := by
  obtain ⟨a, b, ha, hb, haf, hbf, hfit, ht⟩ := mergeStep_merged h
  rw [pqInsert_erase_erase hlt] at ht
  exact ⟨a, b, ha, hb, haf, hbf, hfit, ht⟩

/-- The merge step by the two keys that `PopMin` takes (R115). -/
theorem mergeStep_of_popMin {s : State} {a b : Key} (hlt : ∀ i ∈ s.pq, i < s.node.length)
    (ha : popMin s.node s.pq = .ok (some (a, s.pq.erase a.2)))
    (hb : popMin s.node (s.pq.erase a.2) = .ok (some (b, (s.pq.erase a.2).erase b.2))) :
    mergeStep s = if s.cfg.freqLimit ≤ a.1 + b.1 then .ok .overflow
      else .ok (.merged (s.mergePair (a.1 + b.1) a.2 b.2)) := by
  simp only [mergeStep, ha, hb, nodeWrite, State.nNodes, pqInsert_erase_erase hlt, State.mergePair]

/-- Settles O19: the first `PopMin` takes the least member, the second the least of the others (`popMin_spec`). -/
theorem mergeStepMergesTwoLeast : Obligations.MergeStepMergesTwoLeast := by
  intro s hwf hlt htwo
  obtain ⟨⟨fa, i⟩, ha, hi, hfa, hleast⟩ := popMin_spec hlt (List.ne_nil_of_length_pos (by omega))
  have hrest : s.pq.erase i ≠ [] := by
    refine List.ne_nil_of_length_pos ?_
    rw [List.length_erase_of_mem hi]
    omega
  obtain ⟨⟨fb, j⟩, hb, hj, hfb, hnext⟩ := popMin_spec (fun k hk => hlt k (List.mem_of_mem_erase hk)) hrest
  have hstep := mergeStep_of_popMin hlt ha hb
  obtain ⟨a, hai, rfl⟩ := Option.map_eq_some_iff.mp hfa
  obtain ⟨b, hbj, rfl⟩ := Option.map_eq_some_iff.mp hfb
  obtain ⟨hji, hjmem⟩ := (pqWf_nodup hwf).mem_erase_iff.mp hj
  refine ⟨i, j, a, b, hi, hjmem, hai, hbj, hleast j hjmem hji _ hfb, fun k hk hki hkj x hx => ?_, fun hfit => ?_,
    fun hover => ?_⟩
  · exact hnext k ((pqWf_nodup hwf).mem_erase_iff.mpr ⟨hki, hk⟩) hkj x.freq (by rw [hx]; rfl)
  · rw [← State.mergePair_eq_filter hwf]
    exact hstep.trans (if_neg (Nat.not_le.mpr hfit))
  · exact hstep.trans (if_pos hover)

/-! ### The merge step keeps the forest (R125) -/

/-- Without a published root the roots of the forest are the members of `pq`. -/
theorem State.forestRoots_of_unrooted {s : State} (h : s.rootValid = false) : s.forestRoots = s.pq := by
  simp [State.forestRoots, h]

/-- While trees are merged `L` leaves and `k` members of `pq` make `2L - k` records. -/
theorem State.ForestInv.size_of_unrooted {s : State} (h : s.ForestInv) (hv : s.rootValid = false) :
    s.pq.length + s.node.length = 2 * s.nLeaves := by
  rw [← h.size, State.forestRoots_of_unrooted hv]

theorem perm_cons_cons_erase_erase {l : List Nat} {i j : Nat} (hi : i ∈ l) (hj : j ∈ l.erase i) :
    l.Perm (i :: j :: (l.erase i).erase j) :=
  (List.perm_cons_erase hi).trans ((List.perm_cons_erase hj).cons i)

theorem ne_of_mem_erase_of_pqWf {l : List Nat} {i j : Nat} (h : pqWf l) (hj : j ∈ l.erase i) : j ≠ i :=
  ((pqWf_nodup h).mem_erase_iff.mp hj).1

/-- Two members of a set taken out of its sum. -/
theorem freqSum_take_two {m : Memory} {l : List Nat} {a b : Key} (ha : a.2 ∈ l) (hb : b.2 ∈ l.erase a.2)
    (haf : m[a.2]?.map NodeRec.freq = some a.1) (hbf : m[b.2]?.map NodeRec.freq = some b.1) :
    freqSum m l = a.1 + b.1 + freqSum m ((l.erase a.2).erase b.2) := by
  rw [freqSum_perm (perm_cons_cons_erase_erase ha hb), freqSum_cons _ haf, freqSum_cons _ hbf, Nat.add_assoc]

section MergePair

variable {s : State} {a b : Key}

/-- The record of R117 is in order at the index it is written to. -/
theorem recordWf_internal_of_members (ha : s.node[a.2]?.map NodeRec.freq = some a.1)
    (hb : s.node[b.2]?.map NodeRec.freq = some b.1) (hne : a.2 ≠ b.2) (hfit : a.1 + b.1 < s.cfg.freqLimit) :
    recordWf s.cfg s.node s.node.length (.internal (a.1 + b.1) a.2 b.2) = true := by
  obtain ⟨x, hx, hxf⟩ := Option.map_eq_some_iff.mp ha
  obtain ⟨y, hy, hyf⟩ := Option.map_eq_some_iff.mp hb
  obtain ⟨hxlt, rfl⟩ := List.getElem?_eq_some_iff.mp hx
  obtain ⟨hylt, rfl⟩ := List.getElem?_eq_some_iff.mp hy
  simp [recordWf, hxf, hyf, hfit, hxlt, hylt, hne]

/-- The two members become children, and the new record a root: every index is still one or the other. -/
theorem mergePair_indices_perm (ha : a.2 ∈ s.pq) (hb : b.2 ∈ s.pq.erase a.2)
    (h : (childIndices s.node ++ s.pq).Perm (List.range s.node.length)) (f : Nat) :
    (childIndices (s.node ++ [.internal f a.2 b.2]) ++ ((s.pq.erase a.2).erase b.2 ++ [s.node.length])).Perm
      (List.range (s.node.length + 1)) := by
  rw [childIndices_append, List.range_succ, ← List.append_assoc]
  refine List.Perm.append_right _ (List.Perm.trans ?_ h)
  rw [List.append_assoc]
  exact (perm_cons_cons_erase_erase ha hb).symm.append_left _

/-- The write of R117 for two members of `pq` whose sum fits keeps the forest. -/
theorem State.ForestInv.mergePair (h : s.ForestInv) (hv : s.rootValid = false) (ha : a.2 ∈ s.pq)
    (hb : b.2 ∈ s.pq.erase a.2) (haf : s.node[a.2]?.map NodeRec.freq = some a.1)
    (hbf : s.node[b.2]?.map NodeRec.freq = some b.1) (hfit : a.1 + b.1 < s.cfg.freqLimit) :
    (s.mergePair (a.1 + b.1) a.2 b.2).ForestInv := by
  have hlt := h.pq_lt
  have hsize := h.size_of_unrooted hv
  have hlen := (perm_cons_cons_erase_erase ha hb).length_eq
  obtain ⟨hmem, hpq, ⟨hmax, hle, _⟩, hleaf, hsym, hperm, hsum⟩ := h
  rw [State.forestRoots_of_unrooted hv] at hperm hsum
  have hroots : (s.mergePair (a.1 + b.1) a.2 b.2).forestRoots = (s.pq.erase a.2).erase b.2 ++ [s.node.length] :=
    State.forestRoots_of_unrooted hv
  simp only [List.length_cons] at hlen
  refine ⟨?_, ?_, ⟨hmax, ?_, ?_⟩, ?_, ?_, ?_, ?_⟩
  · refine Memory.wf_write s.cfg s.node _ hmem ?_
      (recordWf_internal_of_members haf hbf (ne_of_mem_erase_of_pqWf hpq hb).symm hfit)
    rw [Config.nodeCap]
    omega
  · show pqWf ((s.pq.erase a.2).erase b.2 ++ [s.node.length])
    rw [← pqInsert_erase_erase hlt]
    exact pqWf_insert _ _ (pqWf_erase _ (pqWf_erase _ hpq))
  · simp only [State.mergePair, List.length_append]
    omega
  · simp only [State.mergePair, List.length_append, List.length_singleton]
    omega
  · intro i hi
    simp only [State.mergePair, List.length_append, List.length_singleton] at hi ⊢
    by_cases hold : i < s.node.length
    · rw [List.getElem_append_left hold]
      exact hleaf i hold
    · obtain rfl : i = s.node.length := by omega
      simp [NodeRec.isLeaf, hle]
  · simpa [State.mergePair, leafSymbols_append, NodeRec.sym?] using hsym
  · rw [hroots]
    simpa [State.mergePair] using mergePair_indices_perm ha hb hperm (a.1 + b.1)
  · have hold : ∀ k ∈ (s.pq.erase a.2).erase b.2, k < s.node.length := fun k hk =>
      hlt k (List.mem_of_mem_erase (List.mem_of_mem_erase hk))
    have hnew : (s.node ++ [.internal (a.1 + b.1) a.2 b.2])[s.node.length]?.map NodeRec.freq = some (a.1 + b.1) := by
      simp [NodeRec.freq]
    rw [hroots]
    calc freqSum (s.node ++ [.internal (a.1 + b.1) a.2 b.2]) ((s.pq.erase a.2).erase b.2 ++ [s.node.length])
        = freqSum s.node ((s.pq.erase a.2).erase b.2) + (a.1 + b.1) := by
          rw [freqSum_concat _ hnew, freqSum_append _ _ _ hold]
      _ = freqSum s.node s.pq := by rw [freqSum_take_two ha hb haf hbf, Nat.add_comm]
      _ = leafSum (s.node ++ [.internal (a.1 + b.1) a.2 b.2]) := by
          rw [hsum, leafSum_append]
          rfl

end MergePair

theorem mergeStep_rootValid {s t : State} (hm : mergeStep s = .ok (.merged t)) : t.rootValid = s.rootValid := by
  rw [mergeStep_frame hm]

theorem mergeStep_keeps_forest {s t : State} (h : s.ForestInv) (hv : s.rootValid = false)
    (hm : mergeStep s = .ok (.merged t)) : t.ForestInv := by
  obtain ⟨a, b, ha, hb, haf, hbf, hfit, rfl⟩ := mergeStep_eq_mergePair h.pq_lt hm
  exact h.mergePair hv ha hb haf hbf hfit

/-- A merge step takes one member off `pq` and leaves the leaves. -/
theorem mergeStep_measures {s t : State} (hlt : ∀ i ∈ s.pq, i < s.node.length) (hm : mergeStep s = .ok (.merged t)) :
    t.pq.length + 1 = s.pq.length ∧ leafSum t.node = leafSum s.node ∧ leafSymbols t.node = leafSymbols s.node := by
  obtain ⟨a, b, ha, hb, _, _, _, rfl⟩ := mergeStep_eq_mergePair hlt hm
  have hlen := (perm_cons_cons_erase_erase ha hb).length_eq
  refine ⟨?_, ?_, ?_⟩
  · simpa [State.mergePair] using hlen.symm
  · simp [State.mergePair, leafSum_append, NodeRec.isLeaf]
  · simp [State.mergePair, leafSymbols_append, NodeRec.sym?]

/-- Settles O20: the write of R117 keeps each part of the forest (`State.ForestInv.mergePair`). -/
theorem mergeStepKeepsForest : Obligations.MergeStepKeepsForest := by
  intro s t h hv hm
  obtain ⟨hlen, hsum, hsym⟩ := mergeStep_measures h.pq_lt hm
  refine ⟨mergeStep_keeps_forest h hv hm, hlen, hsum, hsym, ?_⟩
  obtain ⟨a, b, ha, hb, _, _, _, rfl⟩ := mergeStep_eq_mergePair h.pq_lt hm
  have ⟨_, hpq, _⟩ := h
  refine ⟨a.2, b.2, a.1 + b.1, ha, List.mem_of_mem_erase hb, (ne_of_mem_erase_of_pqWf hpq hb).symm, rfl, ?_⟩
  rw [State.mergePair_eq_filter hpq]

/-! ### Merge steps one after another (R115, R122) -/

/-- `k` merge steps that all merge lead from one state to another. -/
inductive Merges : Nat → State → State → Prop
  /-- No step. -/
  | refl (s : State) : Merges 0 s s
  /-- One step first. -/
  | step {k : Nat} {s t u : State} (hm : mergeStep s = .ok (.merged t)) (rest : Merges k t u) : Merges (k + 1) s u

/-- The merge loop makes its steps and goes on from there. -/
theorem Merges.mergeLoop_add {k : Nat} {s u : State} (h : Merges k s u) (n : Nat) :
    mergeLoop (k + n) s = mergeLoop n u := by
  induction h with
  | refl s => rw [Nat.zero_add]
  | step hm _ ih =>
    rw [Nat.succ_add, mergeLoop, hm]
    exact ih

/-- Merge steps write Internal records, one each, and `pq`; nothing else. -/
theorem Merges.frame {k : Nat} {s u : State} (h : Merges k s u) :
    ∃ m : Memory, u = { s with node := s.node ++ m, pq := u.pq } ∧ m.length = k ∧ ∀ r ∈ m, r.isLeaf = false := by
  induction h with
  | refl s => exact ⟨[], by simp, rfl, by simp⟩
  | step hm _ ih =>
    obtain ⟨m, hu, hlen, hint⟩ := ih
    obtain ⟨a, b, _, _, _, _, _, rfl⟩ := mergeStep_merged hm
    refine ⟨.internal (a.1 + b.1) a.2 b.2 :: m, ?_, by rw [List.length_cons, hlen], ?_⟩
    · rw [hu]
      simp
    · rintro r (_ | ⟨_, hr⟩)
      · rfl
      · exact hint r hr

theorem Merges.rootValid {k : Nat} {s u : State} (h : Merges k s u) : u.rootValid = s.rootValid := by
  obtain ⟨m, hu, _⟩ := h.frame
  rw [hu]

theorem Merges.cfg {k : Nat} {s u : State} (h : Merges k s u) : u.cfg = s.cfg := by
  obtain ⟨m, hu, _⟩ := h.frame
  rw [hu]

theorem Merges.nLeaves {k : Nat} {s u : State} (h : Merges k s u) : u.nLeaves = s.nLeaves := by
  obtain ⟨m, hu, _⟩ := h.frame
  rw [hu]

/-- Merge steps keep the forest, and each takes one member off `pq`. -/
theorem Merges.keepsForest {k : Nat} {s u : State} (h : Merges k s u) (hf : s.ForestInv) (hv : s.rootValid = false) :
    u.ForestInv ∧ u.pq.length + k = s.pq.length ∧ leafSum u.node = leafSum s.node := by
  induction h with
  | refl s => exact ⟨hf, rfl, rfl⟩
  | step hm _ ih =>
    obtain ⟨hlen, hsum, _⟩ := mergeStep_measures hf.pq_lt hm
    obtain ⟨hfu, hlenu, hsumu⟩ := ih (mergeStep_keeps_forest hf hv hm) ((mergeStep_rootValid hm).trans hv)
    exact ⟨hfu, by omega, hsumu.trans hsum⟩

/-- With more than `n` members `n` merge steps can be made, unless one before them overflows. -/
theorem exists_merges_or_overflow (n : Nat) {s : State} (hf : s.ForestInv) (hv : s.rootValid = false)
    (hn : n + 1 ≤ s.pq.length) :
    (∃ u, Merges n s u) ∨ ∃ k u, k < n ∧ Merges k s u ∧ mergeStep u = .ok .overflow := by
  induction n generalizing s with
  | zero => exact .inl ⟨s, .refl s⟩
  | succ n ih =>
    obtain ⟨_, _, _, _, _, _, ⟨_, t, hm⟩ | ⟨_, hover⟩⟩ := mergeStep_of_two hf.pq_lt (by omega)
    · obtain ⟨hlen, _, _⟩ := mergeStep_measures hf.pq_lt hm
      rcases ih (mergeStep_keeps_forest hf hv hm) ((mergeStep_rootValid hm).trans hv) (by omega) with
        ⟨u, hu⟩ | ⟨k, u, hk, hu, hover⟩
      · exact .inl ⟨u, .step hm hu⟩
      · exact .inr ⟨k + 1, u, by omega, .step hm hu, hover⟩
    · exact .inr ⟨0, s, by omega, .refl s, hover⟩

/-! ### What a forest with one root is, and what an overflow says of it -/

/-- A child is an older record than its parent (R27). -/
theorem Memory.child_lt {c : Config} {m : Memory} (h : Memory.wf c m) {k : Nat} (hk : k ∈ childIndices m) :
    k + 1 < m.length := by
  obtain ⟨r, hr, hkr⟩ := List.mem_flatMap.mp hk
  obtain ⟨i, hi⟩ := List.mem_iff_getElem?.mp hr
  have hilt := (List.getElem?_eq_some_iff.mp hi).1
  cases r with
  | leaf sym f => simp [NodeRec.children] at hkr
  | internal f l r =>
    obtain ⟨_, hl, hr, _⟩ := Memory.wf_internal h hi
    simp only [NodeRec.children, List.mem_cons, List.not_mem_nil, or_false] at hkr
    omega

/-- The last record is no record's child, so it is a root. -/
theorem State.ForestInv.last_mem_roots {s : State} (h : s.ForestInv) (hne : 0 < s.node.length) :
    s.node.length - 1 ∈ s.forestRoots := by
  obtain ⟨hmem, _, _, _, _, hperm, _⟩ := h
  have hlast : s.node.length - 1 ∈ childIndices s.node ++ s.forestRoots := by
    rw [hperm.mem_iff, List.mem_range]
    omega
  rcases List.mem_append.mp hlast with hchild | hroot
  · have := Memory.child_lt hmem hchild
    omega
  · exact hroot

/-- When one member of `pq` is left it is the last of `2L - 1` records, and its frequency is the sum of all (R121). -/
theorem State.ForestInv.of_one_member {s : State} (h : s.ForestInv) (hv : s.rootValid = false)
    (hone : s.pq.length = 1) :
    s.node.length = 2 * s.nLeaves - 1 ∧ s.pq = [2 * s.nLeaves - 2] ∧
      s.node[2 * s.nLeaves - 2]?.map NodeRec.freq = some (leafSum s.node) := by
  have hsize := h.size_of_unrooted hv
  have hlen : s.node.length = 2 * s.nLeaves - 1 := by omega
  have ⟨_, _, ⟨_, hle, _⟩, _, _, _, hsum⟩ := h
  have hlast := h.last_mem_roots (by omega)
  rw [State.forestRoots_of_unrooted hv] at hlast hsum
  obtain ⟨r, hr⟩ := List.length_eq_one_iff.mp hone
  rw [hr, List.mem_singleton] at hlast
  have hroot : r = 2 * s.nLeaves - 2 := by omega
  have hlt : 2 * s.nLeaves - 2 < s.node.length := by omega
  have hread : s.node[2 * s.nLeaves - 2]?.map NodeRec.freq = some s.node[2 * s.nLeaves - 2].freq := by
    rw [List.getElem?_eq_getElem hlt]
    rfl
  rw [hr, hroot, freqSum_cons [] hread, freqSum_nil, Nat.add_zero] at hsum
  exact ⟨hlen, by rw [hr, hroot], by rw [hread, hsum]⟩

/-- The root of a finished tree with two leaves or more is an Internal record, so the sum of all frequencies fits. -/
theorem State.ForestInv.leafSum_lt_of_one_member {s : State} (h : s.ForestInv) (hv : s.rootValid = false)
    (hone : s.pq.length = 1) (htwo : 2 ≤ s.nLeaves) : leafSum s.node < s.cfg.freqLimit := by
  obtain ⟨hlen, _, hfreq⟩ := h.of_one_member hv hone
  obtain ⟨hmem, _, _, hleaf, _⟩ := h
  obtain ⟨r, hr, hrf⟩ := Option.map_eq_some_iff.mp hfreq
  obtain ⟨hlt, hget⟩ := List.getElem?_eq_some_iff.mp hr
  cases r with
  | leaf sym f =>
    have := (hleaf _ hlt).mp (by rw [hget]; rfl)
    omega
  | internal f left right =>
    obtain ⟨hfit, _⟩ := Memory.wf_internal hmem hr
    rw [← hrf]
    exact hfit

/-- The sum that overflows is part of the sum over all leaves. -/
theorem State.ForestInv.leafSum_ge_of_overflow {s : State} (h : s.ForestInv) (hv : s.rootValid = false)
    (htwo : 2 ≤ s.pq.length) (hover : mergeStep s = .ok .overflow) : s.cfg.freqLimit ≤ leafSum s.node := by
  have ⟨_, _, _, _, _, _, hsum⟩ := h
  rw [State.forestRoots_of_unrooted hv] at hsum
  obtain ⟨a, b, ha, hb, haf, hbf, ⟨_, t, hm⟩ | ⟨hge, _⟩⟩ := mergeStep_of_two h.pq_lt htwo
  · simp [hover] at hm
  · rw [← hsum, freqSum_take_two ha hb haf hbf]
    omega

/-! ### The answers of `BUILD` (R118 to R121) -/

theorem execBuild_of_empty {s : State} (hp : s.phase = .collect) (hq : s.pq = []) :
    execBuild s = .next (s.raiseFault .invalidInput) := by
  simp [execBuild, hp, hq]

theorem execBuild_of_overflow {s u : State} (hp : s.phase = .collect) (hq : s.pq ≠ [])
    (hm : mergeLoop s.pq.length s = .ok (.overflow u)) : execBuild s = .next (u.raiseFault .freqOverflow) := by
  obtain ⟨first, rest, hpq⟩ := List.exists_cons_of_ne_nil hq
  rw [hpq] at hm
  simp [execBuild, hp, hpq, hm, -List.length_cons]

theorem execBuild_of_complete {s u : State} {r : Nat} (hp : s.phase = .collect) (hq : s.pq ≠ [])
    (hm : mergeLoop s.pq.length s = .ok (.complete u)) (hr : u.pq = [r]) :
    execBuild s = .next ((u.publishRoot r).respond okWord) := by
  obtain ⟨first, rest, hpq⟩ := List.exists_cons_of_ne_nil hq
  rw [hpq] at hm
  simp [execBuild, hp, hpq, hm, hr, -List.length_cons]

/-- Settles O21: no record is there, because in `COLLECT` every record is in `pq` (R30). -/
theorem buildOfNothingFails : Obligations.BuildOfNothingFails := by
  refine ⟨fun s hp hq => execBuild_of_empty hp hq, fun s hinv hp hq => ?_⟩
  obtain ⟨hv, _, hnode, hpq, _⟩ := hinv.collect hp
  rw [hq] at hpq
  exact ⟨hnode.trans hpq.symm, hv⟩

/-- The one root left, taken out of `pq` and published, is still the one root of the forest. -/
theorem State.ForestInv.publishRoot {u : State} {r : Nat} (h : u.ForestInv) (hv : u.rootValid = false)
    (hr : u.pq = [r]) : (u.publishRoot r).ForestInv := by
  obtain ⟨hmem, _, hbounds, hleaf, hsym, hroots⟩ := h
  rw [State.forestRoots_of_unrooted hv, hr] at hroots
  exact ⟨hmem, List.Pairwise.nil, hbounds, hleaf, hsym, hroots⟩

/-- Publishing the one member left keeps the whole invariant of a state in `COLLECT`: the tree is finished. -/
theorem State.Inv.publishRoot {s : State} (h : s.Inv) (hp : s.phase = .collect) {m : Memory} {q : List Nat}
    (hf : State.ForestInv { s with node := m, pq := q }) (hone : q.length = 1) :
    (State.publishRoot (2 * s.nLeaves - 2) { s with node := m, pq := q }).Inv := by
  obtain ⟨hv, herr, _⟩ := h.collect hp
  obtain ⟨hlen, hroot, _⟩ := hf.of_one_member hv hone
  have hsize : q.length + m.length = 2 * s.nLeaves := hf.size_of_unrooted hv
  have hindex : 2 * s.nLeaves - 2 + 1 = m.length := by omega
  obtain ⟨hlegal, _, ⟨_, hrefusal⟩, _, _, hcount⟩ := h
  refine ⟨hlegal, hf.publishRoot hv hroot, ⟨?_, hrefusal⟩, ⟨?_, fun _ => ⟨rfl, hlen, hindex, hindex.le⟩, ?_⟩, ?_,
    hcount⟩
  · simp [herr]
  · simp
  · simp
  · simp [State.PhaseInv, herr]

/-- In `COLLECT` the merge steps that `BUILD` makes: `L - 1` of them, leaving one root, or `k < L - 1` before one that
overflows. -/
theorem State.Inv.merges_or_overflow {s : State} (h : s.Inv) (hp : s.phase = .collect) (hL : 1 ≤ s.nLeaves) :
    (∃ u, Merges (s.nLeaves - 1) s u ∧ u.pq.length = 1) ∨
    ∃ k u, Merges k s u ∧ k + u.pq.length = s.nLeaves ∧ 2 ≤ u.pq.length ∧ mergeStep u = .ok .overflow := by
  obtain ⟨hv, _, _, hpq, _⟩ := h.collect hp
  have ⟨_, hf, _⟩ := h
  rcases exists_merges_or_overflow (s.nLeaves - 1) hf hv (by omega) with ⟨u, hu⟩ | ⟨k, u, hk, hu, hover⟩
  · obtain ⟨_, hlen, _⟩ := hu.keepsForest hf hv
    exact .inl ⟨u, hu, by omega⟩
  · obtain ⟨_, hlen, _⟩ := hu.keepsForest hf hv
    exact .inr ⟨k, u, hu, by omega, by omega, hover⟩

/-- A sum that fits lets all `L - 1` merge steps be made (R124). -/
theorem State.Inv.merges_of_fits {s : State} (h : s.Inv) (hp : s.phase = .collect) (hL : 1 ≤ s.nLeaves)
    (hfit : s.nLeaves = 1 ∨ leafSum s.node < s.cfg.freqLimit) :
    ∃ u, Merges (s.nLeaves - 1) s u ∧ u.ForestInv ∧ u.rootValid = false ∧ u.pq.length = 1 ∧
      leafSum u.node = leafSum s.node := by
  obtain ⟨hv, _⟩ := h.collect hp
  have ⟨_, hf, _⟩ := h
  rcases h.merges_or_overflow hp hL with ⟨u, hu, hone⟩ | ⟨k, u, hu, hlen, htwo, hover⟩
  · obtain ⟨hfu, _, hsum⟩ := hu.keepsForest hf hv
    exact ⟨u, hu, hfu, hu.rootValid.trans hv, hone, hsum⟩
  · obtain ⟨hfu, _, hsum⟩ := hu.keepsForest hf hv
    have hge := hfu.leafSum_ge_of_overflow (hu.rootValid.trans hv) htwo hover
    rw [hsum, hu.cfg] at hge
    omega

/-- A sum that does not fit makes one of the merge steps overflow (R124). -/
theorem State.Inv.overflow_of_not_fits {s : State} (h : s.Inv) (hp : s.phase = .collect) (hL : 2 ≤ s.nLeaves)
    (hover : s.cfg.freqLimit ≤ leafSum s.node) :
    ∃ k u, Merges k s u ∧ u.ForestInv ∧ k + u.pq.length = s.nLeaves ∧ 2 ≤ u.pq.length ∧
      mergeStep u = .ok .overflow := by
  obtain ⟨hv, _⟩ := h.collect hp
  have ⟨_, hf, _⟩ := h
  rcases h.merges_or_overflow hp (by omega) with ⟨u, hu, hone⟩ | ⟨k, u, hu, hlen, htwo, hstep⟩
  · obtain ⟨hfu, _, hsum⟩ := hu.keepsForest hf hv
    have hlt := hfu.leafSum_lt_of_one_member (hu.rootValid.trans hv) hone (by rw [hu.nLeaves]; exact hL)
    rw [hsum, hu.cfg] at hlt
    omega
  · obtain ⟨hfu, _⟩ := hu.keepsForest hf hv
    exact ⟨k, u, hu, hfu, hlen, htwo, hstep⟩

/-- Settles O23: `L - 1` merge steps leave one root, the last of `2L - 1` records, which is published. -/
theorem buildCompletes : Obligations.BuildCompletes := by
  intro s hinv hp hL hfit
  obtain ⟨hv, _, _, hpq, _⟩ := hinv.collect hp
  obtain ⟨u, hu, hfu, hvu, hone, hsum⟩ := hinv.merges_of_fits hp hL hfit
  obtain ⟨_, hroot, hfreq⟩ := hfu.of_one_member hvu hone
  rw [hu.nLeaves] at hroot hfreq
  obtain ⟨m, hframe, hlen, hint⟩ := hu.frame
  have hloop : mergeLoop (s.nLeaves - 1) s = .ok (.complete u) := hu.mergeLoop_add 0
  have hend : mergeLoop s.pq.length s = .ok (.complete u) := by
    have hadd : s.pq.length = s.nLeaves - 1 + 1 := by omega
    rw [hadd, hu.mergeLoop_add 1, mergeLoop, mergeStep_of_few hfu.pq_lt (by omega)]
  have hexec := execBuild_of_complete hp (List.ne_nil_of_length_pos (by omega)) hend hroot
  rw [hroot] at hframe hone
  subst hframe
  have hkept := hinv.publishRoot hp hfu hone
  exact ⟨m, hexec, hloop, hlen, hint, hfreq.trans (by rw [hsum]), hkept⟩

/-- Settles O25: the merges before the overflow stand (`Merges.frame`, `Merges.keepsForest`). -/
theorem buildOverflowKeepsForest : Obligations.BuildOverflowKeepsForest := by
  intro s hinv hp hL hover
  obtain ⟨hv, _, _, hpq, _⟩ := hinv.collect hp
  obtain ⟨k, u, hu, hfu, hlen, htwo, hstep⟩ := hinv.overflow_of_not_fits hp hL hover
  obtain ⟨m, hframe, rfl, _⟩ := hu.frame
  have hloop : mergeLoop m.length s = .ok (.complete u) := hu.mergeLoop_add 0
  have hend : mergeLoop s.pq.length s = .ok (.overflow u) := by
    obtain ⟨n, hn⟩ := Nat.exists_eq_add_of_le' (show 1 ≤ u.pq.length by omega)
    have hadd : s.pq.length = m.length + (n + 1) := by omega
    rw [hadd, hu.mergeLoop_add, mergeLoop, hstep]
  have hexec := execBuild_of_overflow hp (List.ne_nil_of_length_pos (by omega)) hend
  generalize u.pq = q at hframe hlen htwo
  subst hframe
  exact ⟨m, q, hexec, hloop, hstep, hlen, htwo, hfu, hv⟩

/-- Settles O22: the case of no merge step of O23; the root is the leaf. -/
theorem buildOfOneLeaf : Obligations.BuildOfOneLeaf := by
  intro s hinv hp hone
  obtain ⟨_, _, hnode, _⟩ := hinv.collect hp
  rw [hone] at hnode
  have ⟨_, ⟨_, _, _, hleaf, _⟩, _⟩ := hinv
  have hzero : 0 < s.node.length := by omega
  obtain ⟨m, hexec, _, hm, _⟩ := buildCompletes s hinv hp (by omega) (.inl hone)
  rw [hone] at hm
  obtain rfl : m = [] := List.length_eq_zero_iff.mp hm
  refine ⟨hnode, ?_, ?_⟩
  · rw [List.getElem?_eq_getElem hzero, Option.map_some, (hleaf 0 hzero).mpr (by omega)]
  · simpa [hone] using hexec

/-- Settles O24: with no leaf `BUILD` raises the other fault, with one the sum is not looked at; with more, O23 and O25. -/
theorem buildOverflowsExactlyWhen : Obligations.BuildOverflowsExactlyWhen := by
  intro s hinv hp
  obtain ⟨_, herr, _, hpq, _⟩ := hinv.collect hp
  rcases Nat.eq_zero_or_pos s.nLeaves with hL | hL
  · have hq : s.pq = [] := List.length_eq_zero_iff.mp (hpq.trans hL)
    refine ⟨_, execBuild_of_empty hp hq, iff_of_false ?_ (by omega), iff_of_false ?_ (by omega),
      fun htwo => by omega⟩
    · rw [State.raiseFault_channel]
      decide
    · simp
  · by_cases hover : 2 ≤ s.nLeaves ∧ 2 ^ s.cfg.freqW ≤ leafSum s.node
    · obtain ⟨m, q, hexec, _⟩ := buildOverflowKeepsForest s hinv hp hover.1 hover.2
      exact ⟨_, hexec, iff_of_true rfl hover, iff_of_true rfl hover, fun _ hfit => by omega⟩
    · obtain ⟨m, hexec, _, _, _, hfreq, _⟩ := buildCompletes s hinv hp hL (by omega)
      refine ⟨_, hexec, iff_of_false ?_ hover, iff_of_false ?_ hover, fun _ _ => ⟨rfl, rfl, hfreq⟩⟩
      · simp
      · simp [herr]

end Sys2Proof.Machine
end

section
/-! The statements of 41_decoder_commands.md about digits and the end of a session. What a run of `DEC_BIT` does is said by
`Decodes`, which composes: a path to an Internal node answers `OK` all along, a path to a Leaf emits its symbol at the
last digit, so the codes of a text emit the text. -/

namespace Sys2Proof.Machine

open Sys2Proof.Claims

/-! ### The words of the decoder's commands -/

theorem okWord_eq : okWord = 0x0000000000000000#64 := by decide

theorem decode_encode_decStart (c : Config) : decode c (encode .decStart) = .ok .decStart := by
  simp [encode, decode, decodeBare]

theorem decode_encode_decBit (c : Config) (b : Bool) : decode c (encode (.decBit b)) = .ok (.decBit b) := by
  cases b <;> simp [encode, decode, decodeDecBit, bitReserved, bitOperand]

theorem decode_encode_decEnd (c : Config) : decode c (encode .decEnd) = .ok .decEnd := by
  simp [encode, decode, decodeBare]

/-! ### Internal nodes and walks -/

/-- The record at an index is an Internal. -/
def InternalAt (m : Memory) (i : Nat) : Prop := ∃ f l r, m[i]? = some (.internal f l r)

/-- The same in the form the invariant uses. -/
theorem internalAt_iff {m : Memory} {i : Nat} : InternalAt m i ↔ m[i]?.map NodeRec.isLeaf = some false := by
  unfold InternalAt
  cases m[i]? with
  | none => simp
  | some x => cases x <;> simp [NodeRec.isLeaf]

/-- A walk takes a first digit at an Internal, and goes on at that child. -/
theorem walk_cons_eq_some {m : Memory} {i j : Nat} {b : Bool} {p : List Bool} :
    walk m i (b :: p) = some j ↔
      ∃ f l r, m[i]? = some (.internal f l r) ∧ walk m (if b then r else l) p = some j := by
  rw [walk]
  cases m[i]? with
  | none => simp
  | some x => cases x <;> simp

/-- The last digit of a walk is taken at an Internal. -/
theorem walk_concat_eq_some {m : Memory} {i k : Nat} {b : Bool} {p : List Bool} (h : walk m i (p ++ [b]) = some k) :
    ∃ j f l r, walk m i p = some j ∧ m[j]? = some (.internal f l r) ∧ k = if b then r else l := by
  rw [walk_append, Option.bind_eq_some_iff] at h
  obtain ⟨j, hj, hk⟩ := h
  obtain ⟨f, l, r, hrec, hend⟩ := walk_cons_eq_some.mp hk
  exact ⟨j, f, l, r, hj, hrec, (Option.some.inj hend).symm⟩

/-- A walk that ends at an Internal starts at one. -/
theorem internalAt_of_walk {m : Memory} {i j : Nat} {p : List Bool} (h : walk m i p = some j) (hj : InternalAt m j) :
    InternalAt m i := by
  cases p with
  | nil =>
    obtain rfl : i = j := Option.some.inj h
    exact hj
  | cons b p =>
    obtain ⟨f, l, r, hrec, _⟩ := walk_cons_eq_some.mp h
    exact ⟨f, l, r, hrec⟩

/-- Each digit of a walk leads to a smaller index (R28). -/
theorem walk_descends {c : Config} {m : Memory} (hm : Memory.wf c m) {i j : Nat} {p : List Bool}
    (h : walk m i p = some j) : j + p.length ≤ i := by
  induction p generalizing i with
  | nil =>
    obtain rfl : i = j := Option.some.inj h
    simp
  | cons b p ih =>
    obtain ⟨f, l, r, hrec, hrest⟩ := walk_cons_eq_some.mp h
    obtain ⟨_, hl, hr, _⟩ := Memory.wf_internal hm hrec
    have hchild := ih hrest
    have hlt : (if b then r else l) < i := by split <;> assumption
    rw [List.length_cons]
    omega

/-! ### One command of a session -/

theorem execDecStart_of_built {s : State} (hp : s.phase = .built) :
    exec .decStart s = .next { s with
      cur := s.root, cursor := 0, emitCnt := 0, phase := .decoding, channel := .offered okWord } :=
  if_neg (by simp [hp])

theorem execDecEnd_at_root {s : State} (hp : s.phase = .decoding) (hc : s.cur = s.root) :
    exec .decEnd s = .next { s with phase := .built, channel := .offered okWord } := by
  simp [exec, execDecEnd, hp, hc, State.respond]

theorem execDecEnd_off_root {s : State} (hp : s.phase = .decoding) (hc : s.cur ≠ s.root) :
    exec .decEnd s = .next (s.raiseFault .corruptData) := by
  simp [exec, execDecEnd, hp, hc]

theorem execDecBit_at_limit (b : Bool) {s : State} (hp : s.phase = .decoding) (hc : s.cursor = s.cfg.cntMax) :
    exec (.decBit b) s = .next (s.refuse .limit) := by
  simp [exec, execDecBit, hp, hc]

section BelowLimit

variable {s : State} (hp : s.phase = .decoding) (hc : s.cursor ≠ s.cfg.cntMax)
include hp hc

/-- On a one-leaf tree either digit emits the root's symbol; the position is not written (R134). -/
theorem execDecBit_of_leafRoot (b : Bool) {sym : Symbol} {f : Nat} (hr : s.node[s.root]? = some (.leaf sym f)) :
    exec (.decBit b) s = .next { s with
      cursor := s.cursor + 1, emitCnt := s.emitCnt + 1, channel := .offered (emitWord sym) } := by
  simp [exec, execDecBit, hp, hc, nodeRead_eq_ok.mpr hr, State.consumeBit, State.respond]

theorem execDecBit_of_internalRoot (b : Bool) (hr : InternalAt s.node s.root) :
    exec (.decBit b) s = walkBit b s := by
  obtain ⟨f, l, r, hr⟩ := hr
  simp [exec, execDecBit, hp, hc, nodeRead_eq_ok.mpr hr]

variable (hr : InternalAt s.node s.root) {b : Bool} {f l r : Nat} (hcur : s.node[s.cur]? = some (.internal f l r))
include hr hcur

/-- A digit that leads to a Leaf emits its symbol and returns to the root (R135). -/
theorem execDecBit_emits {sym : Symbol} {g : Nat} (hx : s.node[if b then r else l]? = some (.leaf sym g)) :
    exec (.decBit b) s = .next { s with
      cursor := s.cursor + 1, emitCnt := s.emitCnt + 1, cur := s.root, channel := .offered (emitWord sym) } := by
  rw [execDecBit_of_internalRoot hp hc b hr]
  simp only [walkBit, childOf, nodeRead_eq_ok.mpr hcur, nodeRead_eq_ok.mpr hx]
  rfl

/-- A digit that leads to an Internal makes it the position (R135). -/
theorem execDecBit_moves (hx : InternalAt s.node (if b then r else l)) :
    exec (.decBit b) s = .next { s with
      cursor := s.cursor + 1, cur := if b then r else l, channel := .offered okWord } := by
  obtain ⟨g, l', r', hx⟩ := hx
  rw [execDecBit_of_internalRoot hp hc b hr]
  simp only [walkBit, childOf, nodeRead_eq_ok.mpr hcur, nodeRead_eq_ok.mpr hx]
  rfl

end BelowLimit

/-! ### What the invariant says of an open session -/

theorem State.Inv.cur_of_leafRoot {s : State} (h : s.Inv) (hp : s.phase = .decoding)
    (hr : s.node[s.root]?.map NodeRec.isLeaf = some true) : s.cur = s.root := by
  obtain ⟨_, _, _, _, ⟨_, _, hdec, _⟩, _⟩ := h
  obtain ⟨hleaf, _⟩ := hdec hp
  exact hleaf hr

theorem State.Inv.internalAt_root {s : State} (h : s.Inv) (hv : s.rootValid = true)
    (hr : s.node[s.root]?.map NodeRec.isLeaf ≠ some true) : InternalAt s.node s.root := by
  obtain ⟨_, hroot, _⟩ := h.rooted hv
  have hlt : s.root < s.node.length := by omega
  rw [internalAt_iff]
  rw [List.getElem?_eq_getElem hlt] at hr ⊢
  simpa using hr

theorem State.Inv.internalAt_cur {s : State} (h : s.Inv) (hp : s.phase = .decoding)
    (hr : InternalAt s.node s.root) : InternalAt s.node s.cur := by
  obtain ⟨_, _, _, _, ⟨_, _, hdec, _⟩, _⟩ := h
  obtain ⟨_, hinternal⟩ := hdec hp
  exact internalAt_iff.mpr (hinternal (internalAt_iff.mp hr))

/-- Settles O30: `execDecBit_of_leafRoot`, and what the invariant says of the position. -/
theorem decBitOneLeafEmits : Obligations.DecBitOneLeafEmits :=
  ⟨fun b _ _ _ hp hc hr => execDecBit_of_leafRoot hp hc b hr, fun _ h hp hr => h.cur_of_leafRoot hp hr⟩

/-- Settles O34: the two outcomes of `DEC_END`, told apart by the phase they lead to. -/
theorem decEndOffRootFails : Obligations.DecEndOffRootFails := by
  refine ⟨fun s hp hc => ?_, fun s hp => ⟨fun h hc => ?_, execDecEnd_off_root hp⟩,
    fun s h hp hr => h.cur_of_leafRoot hp hr⟩
  · rw [execDecEnd_off_root hp hc]
    rfl
  · rw [execDecEnd_at_root hp hc, Host.Outcome.next.injEq] at h
    have hphase := congrArg State.phase h
    simp at hphase

/-- No command takes the counters past their greatest value, nor `emit_cnt` past `cursor` (R36, R136). -/
theorem runWord_keeps_counters {w : Word} {s t : State} (hs : s.CounterInv) (h : runWord w s = .next t) :
    t.CounterInv := by
  obtain ⟨hemit, hcursor⟩ := hs
  cases runWord_effect h with
  | refused cause _ => exact ⟨by simpa using hemit, by simpa using hcursor⟩
  | cleared _ => exact ⟨le_rfl, Nat.zero_le _⟩
  | buildOverflow u _ _ _ hm => rw [mergeLoop_result_frame (.inr hm)]; exact ⟨hemit, hcursor⟩
  | built u _ _ _ _ hm => rw [mergeLoop_result_frame (.inl hm)]; exact ⟨hemit, hcursor⟩
  | started _ _ => exact ⟨le_rfl, Nat.zero_le _⟩
  | emitted _ _ _ _ _ hc _ => exact ⟨Nat.succ_le_succ hemit, Nat.lt_of_le_of_ne hcursor hc⟩
  | moved _ _ _ _ hc _ => exact ⟨Nat.le_succ_of_le hemit, Nat.lt_of_le_of_ne hcursor hc⟩
  | _ => exact ⟨hemit, hcursor⟩

/-- Settles O32: `DEC_END` looks only at the position, which a refusal leaves; the bound is `runWord_keeps_counters`. -/
theorem decBitAtLimitRefused : Obligations.DecBitAtLimitRefused := by
  refine ⟨fun b s hp hc => ⟨?_, ?_⟩, fun w s t hinv h => ?_⟩
  · rw [execDecBit_at_limit b hp hc, State.refuse_eq_afterRefusal]
    rfl
  · by_cases hroot : s.cur = s.root
    · exact ⟨_, execDecEnd_at_root hp hroot, by simp, rfl⟩
    · exact ⟨_, execDecEnd_off_root hp hroot, by simp, rfl⟩
  · obtain ⟨_, _, _, _, _, hcounters⟩ := hinv
    obtain ⟨hemit, hcursor⟩ := runWord_keeps_counters hcounters h
    exact ⟨hcursor, hemit.trans hcursor⟩

/-! ### Runs of digits -/

/-- A session is open and its block ready for a command. -/
structure State.Open (s : State) : Prop where
  phase : s.phase = .decoding
  idle : s.channel = .idle

/-- The state after `n` digits that gave the responses `rs`, the position being `i`. -/
def State.decoded (i n : Nat) (rs : List Word) (s : State) : State :=
  { s with
    cur := i, cursor := s.cursor + n, emitCnt := s.emitCnt + (emitted rs).length,
    channel := .idle, outbox := s.outbox ++ rs }

@[simp] theorem State.decoded_cfg (s : State) (i n : Nat) (rs : List Word) : (s.decoded i n rs).cfg = s.cfg := rfl
@[simp] theorem State.decoded_cursor (s : State) (i n : Nat) (rs : List Word) :
    (s.decoded i n rs).cursor = s.cursor + n := rfl
@[simp] theorem State.decoded_emitCnt (s : State) (i n : Nat) (rs : List Word) :
    (s.decoded i n rs).emitCnt = s.emitCnt + (emitted rs).length := rfl
@[simp] theorem State.decoded_outbox (s : State) (i n : Nat) (rs : List Word) :
    (s.decoded i n rs).outbox = s.outbox ++ rs := rfl

theorem State.Open.decoded {s : State} (h : s.Open) (i n : Nat) (rs : List Word) : (s.decoded i n rs).Open :=
  ⟨h.phase, rfl⟩

theorem State.decoded_nothing {s : State} (h : s.channel = .idle) : s.decoded s.cur 0 [] = s := by
  simp [State.decoded, emitted, ← h]

theorem State.decoded_decoded (s : State) (i j n k : Nat) (rs rs' : List Word) :
    (s.decoded i n rs).decoded j k rs' = s.decoded j (n + k) (rs ++ rs') := by
  simp [State.decoded, emitted_append, Nat.add_assoc]

/-- Presented with the digits, the block answers `rs`, none of them a failure, and ends at the position `i`; nothing else
changes but the counters. -/
structure Decodes (bits : List Bool) (s : State) (i : Nat) (rs : List Word) : Prop where
  runs : commands ((decBits bits).map encode) s = .next (s.decoded i bits.length rs)
  answers : ∀ r ∈ rs, failureOf r = none

theorem emitted_okWord : emitted [okWord] = [] := emitted_ok 1

theorem failureOf_okWord : failureOf okWord = none := by simp [failureOf]

theorem failureOf_emitWord (sym : Symbol) : failureOf (emitWord sym) = none := by simp [failureOf]

theorem Decodes.nil {s : State} (h : s.channel = .idle) : Decodes [] s s.cur [] :=
  ⟨by simp [decBits, commands, State.decoded_nothing h], by simp⟩

theorem Decodes.append {p q : List Bool} {s : State} {i j : Nat} {rs rs' : List Word} (hp : Decodes p s i rs)
    (hq : Decodes q (s.decoded i p.length rs) j rs') : Decodes (p ++ q) s j (rs ++ rs') := by
  refine ⟨?_, fun r hr => (List.mem_append.mp hr).elim (hp.answers r) (hq.answers r)⟩
  have hsplit : (decBits (p ++ q)).map encode = (decBits p).map encode ++ (decBits q).map encode := by simp [decBits]
  rw [hsplit, commands_append, hp.runs]
  simp only [hq.runs, State.decoded_decoded, List.length_append]

/-- One digit, from what its `DEC_BIT` does. -/
theorem Decodes.of_exec {b : Bool} {s t : State} {i : Nat} {r : Word} (h : exec (.decBit b) s = .next t)
    (hr : t.channel = .offered r) (hf : failureOf r = none)
    (ht : { t with channel := .idle, outbox := t.outbox ++ [r] } = s.decoded i 1 [r]) : Decodes [b] s i [r] := by
  refine ⟨?_, by simpa using hf⟩
  have hcmd := command_of_exec (decode_encode_decBit s.cfg b) h hr
  simp only [decBits, List.map_cons, List.map_nil, commands, hcmd, ht, List.length_cons, List.length_nil]

section OpenSession

variable {s : State} (ho : s.Open)
include ho

/-- On a one-leaf tree a digit emits the root's symbol and leaves the position (R134). -/
theorem decodes_leafRoot (b : Bool) {sym : Symbol} {f : Nat} (hc : s.cursor ≠ s.cfg.cntMax)
    (hr : s.node[s.root]? = some (.leaf sym f)) : Decodes [b] s s.cur [emitWord sym] :=
  .of_exec (execDecBit_of_leafRoot ho.phase hc b hr) rfl (failureOf_emitWord sym)
    (by simp [State.decoded, emitted_emitWord])

/-- The digits of a path to an Internal all answer `OK` (R135). -/
theorem decodes_path_to_internal {p : List Bool} {j : Nat} (hr : InternalAt s.node s.root)
    (hw : walk s.node s.cur p = some j) (hj : InternalAt s.node j) (hc : s.cursor + p.length ≤ s.cfg.cntMax) :
    Decodes p s j (List.replicate p.length okWord) := by
  induction p generalizing s with
  | nil =>
    obtain rfl : s.cur = j := Option.some.inj hw
    exact .nil ho.idle
  | cons b p ih =>
    obtain ⟨f, l, r, hcur, hrest⟩ := walk_cons_eq_some.mp hw
    rw [List.length_cons] at hc
    have hbit : Decodes [b] s (if b then r else l) [okWord] :=
      .of_exec (execDecBit_moves ho.phase (by omega) hr hcur (internalAt_of_walk hrest hj)) rfl failureOf_okWord
        (by simp [State.decoded, emitted_okWord])
    exact hbit.append (ih (ho.decoded _ _ _) hr hrest hj (by simp; omega))

/-- The digits of a path to a Leaf answer `OK`, but for the last, which emits the symbol at the root again (R135). -/
theorem decodes_path_to_leaf {p : List Bool} {k f : Nat} {sym : Symbol} (hroot : s.cur = s.root)
    (hw : walk s.node s.root p = some k) (hk : s.node[k]? = some (.leaf sym f)) (hne : p ≠ [])
    (hc : s.cursor + p.length ≤ s.cfg.cntMax) :
    Decodes p s s.root (List.replicate (p.length - 1) okWord ++ [emitWord sym]) := by
  obtain ⟨q, b, rfl⟩ := (List.eq_nil_or_concat' p).resolve_left hne
  obtain ⟨j, f, l, r, hq, hj, rfl⟩ := walk_concat_eq_some hw
  have hr : InternalAt s.node s.root := internalAt_of_walk hq ⟨f, l, r, hj⟩
  rw [List.length_append, List.length_singleton] at hc ⊢
  have hpath := decodes_path_to_internal ho hr (hroot ▸ hq) ⟨f, l, r, hj⟩ (by omega)
  refine hpath.append (.of_exec (execDecBit_emits (ho.decoded _ _ _).phase ?_ hr hj hk) rfl (failureOf_emitWord sym) ?_)
  · rw [State.decoded_cursor, State.decoded_cfg]
    omega
  · simp [State.decoded, emitted_emitWord]

end OpenSession

/-- Settles O31: the two outcomes of a digit, and a path as a run of digits (`decodes_path_to_leaf`). -/
theorem decBitFollowsDigit : Obligations.DecBitFollowsDigit := by
  refine ⟨fun b s f g l r fr lr rr hp hc hroot hcur => ⟨fun sym hx => ?_, fun l' r' hx => ?_⟩,
    fun s h hp hr => ?_, fun s path i sym f _ hp hidle hcur hr hw hi hc => ?_⟩
  · exact execDecBit_emits hp hc ⟨fr, lr, rr, hroot⟩ hcur hx
  · exact execDecBit_moves hp hc ⟨fr, lr, rr, hroot⟩ hcur ⟨g, l', r', hx⟩
  · have hroot := h.internalAt_root (h.root_valid (.inr hp)) hr
    obtain ⟨f, l, r, hrec⟩ := h.internalAt_cur hp hroot
    obtain ⟨fr, lr, rr, hroot⟩ := hroot
    obtain ⟨_, ⟨hmem, _⟩, _⟩ := h
    obtain ⟨_, _, _, _, _, _, hl, hr, _⟩ := Memory.wf_internal hmem hrec
    exact ⟨fr, lr, rr, f, l, r, hroot, hrec, (List.getElem?_eq_some_iff.mp hl).1, (List.getElem?_eq_some_iff.mp hr).1⟩
  · have hne : path ≠ [] := by
      rintro rfl
      obtain rfl : s.root = i := Option.some.inj hw
      simp [hi, NodeRec.isLeaf] at hr
    rw [(decodes_path_to_leaf ⟨hp, hidle⟩ hcur hw hi hne hc).runs, State.decoded, emitted_append, emitted_ok,
      emitted_emitWord, ← hcur, ← hidle]
    rfl

/-! ### The codes of a text -/

/-- An entry of the code table is a path from the root to a Leaf of its symbol; only where the root is that Leaf is it the
digit 1 instead (R174, R175). -/
theorem buildCodes_entry {m : Memory} {root : Nat} {sym : Symbol} {code : List Bool}
    (h : codeOf (buildCodes m root) sym = some code) :
    ∃ p k f, walk m root p = some k ∧ m[k]? = some (.leaf sym f) ∧ code = if p = [] then [true] else p := by
  simpa using codesFrom_walk m m.length root [] _ (mem_of_codeOf h)

theorem buildCodes_entry_of_internal {m : Memory} {root : Nat} {sym : Symbol} {code : List Bool}
    (h : codeOf (buildCodes m root) sym = some code) (hr : InternalAt m root) :
    ∃ k f, walk m root code = some k ∧ m[k]? = some (.leaf sym f) ∧ code ≠ [] := by
  obtain ⟨p, k, f, hw, hk, hcode⟩ := buildCodes_entry h
  have hne : p ≠ [] := by
    rintro rfl
    obtain ⟨fr, l, r, hr⟩ := hr
    obtain rfl : root = k := Option.some.inj hw
    simp [hk] at hr
  rw [if_neg hne] at hcode
  subst hcode
  exact ⟨k, f, hw, hk, hne⟩

theorem codeText_cons_eq_some {t : CodeTable} {a : Symbol} {text : List Symbol} {bits : List Bool} :
    codeText t (a :: text) = some bits ↔
      ∃ c cs, codeOf t a = some c ∧ codeText t text = some cs ∧ bits = c ++ cs := by
  rw [codeText]
  cases codeOf t a <;> cases codeText t text <;> simp [eq_comm]

/-- The code of a symbol emits the symbol and ends at the root, on either shape of tree (R134, R135). -/
theorem decodes_code {s : State} (ho : s.Open) (hroot : s.cur = s.root) {a : Symbol} {code : List Bool}
    (ha : codeOf (buildCodes s.node s.root) a = some code) (hc : s.cursor + code.length ≤ s.cfg.cntMax) :
    ∃ rs, Decodes code s s.root rs ∧ emitted rs = [a] := by
  obtain ⟨p, k, f, hw, hk, rfl⟩ := buildCodes_entry ha
  by_cases hp : p = []
  · subst hp
    obtain rfl : s.root = k := Option.some.inj hw
    rw [if_pos rfl, List.length_singleton] at hc
    exact ⟨_, hroot ▸ decodes_leafRoot ho true (by omega) hk, emitted_emitWord a⟩
  · rw [if_neg hp] at hc ⊢
    exact ⟨_, decodes_path_to_leaf ho hroot hw hk hp hc, by rw [emitted_append, emitted_ok, emitted_emitWord]; rfl⟩

/-- The codes of a text emit the text and end at the root. -/
theorem decodes_text {s : State} (ho : s.Open) (hroot : s.cur = s.root) {text : List Symbol} {bits : List Bool}
    (ht : codeText (buildCodes s.node s.root) text = some bits) (hc : s.cursor + bits.length ≤ s.cfg.cntMax) :
    ∃ rs, Decodes bits s s.root rs ∧ emitted rs = text := by
  induction text generalizing s bits with
  | nil =>
    obtain rfl : [] = bits := Option.some.inj ht
    exact ⟨[], hroot ▸ .nil ho.idle, rfl⟩
  | cons a text ih =>
    obtain ⟨c, cs, ha, hcs, rfl⟩ := codeText_cons_eq_some.mp ht
    rw [List.length_append] at hc
    obtain ⟨rs, hcode, hemit⟩ := decodes_code ho hroot ha (by omega)
    obtain ⟨rs', hrest, hemit'⟩ := ih (ho.decoded s.root c.length rs) rfl hcs (by simp; omega)
    exact ⟨rs ++ rs', hcode.append hrest, by rw [emitted_append, hemit, hemit']; rfl⟩

/-! ### Whole sessions -/

/-- The state once `DEC_START` has answered in `BUILT` (R132). -/
def State.opened (s : State) : State :=
  { s with
    cur := s.root, cursor := 0, emitCnt := 0, phase := .decoding, channel := .idle, outbox := s.outbox ++ [okWord] }

@[simp] theorem State.opened_cfg (s : State) : s.opened.cfg = s.cfg := rfl
@[simp] theorem State.opened_cursor (s : State) : s.opened.cursor = 0 := rfl
@[simp] theorem State.opened_emitCnt (s : State) : s.opened.emitCnt = 0 := rfl
@[simp] theorem State.opened_outbox (s : State) : s.opened.outbox = s.outbox ++ [okWord] := rfl

theorem State.opened_open (s : State) : s.opened.Open := ⟨rfl, rfl⟩

theorem command_decStart {s : State} (hp : s.phase = .built) : command (encode .decStart) s = .next s.opened :=
  command_of_exec (decode_encode_decStart s.cfg) (execDecStart_of_built hp) rfl

theorem command_decEnd_at_root {s : State} (hp : s.phase = .decoding) (hc : s.cur = s.root) :
    command (encode .decEnd) s = .next { s with phase := .built, channel := .idle, outbox := s.outbox ++ [okWord] } :=
  command_of_exec (decode_encode_decEnd s.cfg) (execDecEnd_at_root hp hc) rfl

theorem issue_decEnd_off_root {s : State} (hp : s.phase = .decoding) (hc : s.cur ≠ s.root) :
    issue .decEnd s = .error (.failed .corruptData) :=
  issue_failed (command_of_exec (decode_encode_decEnd s.cfg) (execDecEnd_off_root hp hc) rfl) rfl
    (by simp [failureOf, faultOfCode, FaultCode.code])

section Session

variable {s : State} (hp : s.phase = .built) {bits : List Bool} {rs : List Word}
include hp

theorem commands_session {i : Nat} (hd : Decodes bits s.opened i rs) :
    commands ((.decStart :: decBits bits).map encode) s = .next (s.opened.decoded i bits.length rs) := by
  simp only [List.map_cons, commands, command_decStart hp, hd.runs]

theorem issueAll_session {i : Nat} (hd : Decodes bits s.opened i rs) :
    issueAll (.decStart :: decBits bits) s = .ok (okWord :: rs, s.opened.decoded i bits.length rs) :=
  issueAll_ok _ (commands_session hp hd) (by simp)
    (List.forall_mem_cons.mpr ⟨failureOf_okWord, hd.answers⟩)

/-- A session that ends at the root gives the symbols emitted (R137, R179). -/
theorem decodeBits_at_root (hd : Decodes bits s.opened s.root rs) :
    decodeBits bits s = .ok (emitted rs, { s.opened.decoded s.root bits.length rs with
      phase := .built, outbox := s.outbox ++ [okWord] ++ rs ++ [okWord] }) := by
  have hend := issue_ok (command_decEnd_at_root (s := s.opened.decoded s.root bits.length rs) rfl rfl) rfl
    failureOf_okWord
  have hemit : emitted (okWord :: rs ++ [okWord]) = emitted rs := by
    rw [emitted_append, ← List.singleton_append, emitted_append, emitted_okWord, List.nil_append, List.append_nil]
  rw [decodeBits, ← List.cons_append, issueAll_append, issueAll_session hp hd]
  simp only [issueAll, hend, hemit]
  rfl

/-- A session that ends off the root fails (R138, R141). -/
theorem decodeBits_off_root {i : Nat} (hd : Decodes bits s.opened i rs) (hi : i ≠ s.root) :
    decodeBits bits s = .error (.failed .corruptData) := by
  have hend := issue_decEnd_off_root (s := s.opened.decoded i bits.length rs) rfl hi
  rw [decodeBits, ← List.cons_append, issueAll_append, issueAll_session hp hd]
  simp only [issueAll, hend]

end Session

/-- Settles O35: `DEC_START` puts the position at the root, where `DEC_END` closes the session. -/
theorem emptySessionCompletes : Obligations.EmptySessionCompletes := by
  intro s hp
  have hend := command_decEnd_at_root s.opened_open.phase rfl
  simp only [commands, command_decStart hp, hend]
  simp [State.opened, okWord_eq, hp]

/-- Settles O37: the codes of the text are a run of digits that ends at the root (`decodes_text`). -/
theorem codesDecodeToText : Obligations.CodesDecodeToText := by
  intro s text bits _ hp _ ht hc
  obtain ⟨rs, hd, hemit⟩ := decodes_text s.opened_open rfl ht (by simpa [Config.cntMax] using hc)
  refine ⟨_, hemit ▸ decodeBits_at_root hp hd, rfl, ?_, ?_, ?_⟩
  · simp
  · simp [hemit]
  · rw [List.getLast?_concat, okWord_eq]

/-- Settles O38: without its last digit the last code is a path to an Internal (`decodes_path_to_internal`), which is off
the root unless it is empty (`walk_descends`). -/
theorem truncationByOneBit : Obligations.TruncationByOneBit := by
  intro s text z bits code h hp _ hleaves ht hz hc
  have hv := h.root_valid (.inl hp)
  have hroot : InternalAt s.node s.root := h.internalAt_root hv (by rw [Ne, h.root_isLeaf hv]; omega)
  obtain ⟨k, f, hw, hk, hne⟩ := buildCodes_entry_of_internal hz hroot
  obtain ⟨q, b, rfl⟩ := (List.eq_nil_or_concat' code).resolve_left hne
  obtain ⟨j, fj, l, r, hq, hj, _⟩ := walk_concat_eq_some hw
  rw [List.length_append, List.length_singleton] at hc ⊢
  rw [List.dropLast_concat]
  obtain ⟨rs, hd, hemit⟩ := decodes_text s.opened_open rfl ht (by simp [Config.cntMax]; omega)
  have hcut : Decodes (bits ++ q) s.opened j (rs ++ List.replicate q.length okWord) :=
    hd.append (decodes_path_to_internal (s.opened_open.decoded _ _ _) hroot hq ⟨fj, l, r, hj⟩
      (by simp [Config.cntMax]; omega))
  have hemitted : emitted (rs ++ List.replicate q.length okWord) = text := by
    rw [emitted_append, hemit, emitted_ok, List.append_nil]
  have hoff : 2 ≤ q.length + 1 → j ≠ s.root := by
    obtain ⟨_, ⟨hmem, _⟩, _⟩ := h
    have := walk_descends hmem hq
    omega
  refine ⟨⟨_, commands_session hp hcut, ?_, hq, fun h2 => ⟨internalAt_iff.mp ⟨fj, l, r, hj⟩, hoff h2⟩⟩,
    fun h2 => decodeBits_off_root hp hcut (hoff h2), fun h1 => ?_⟩
  · rw [State.decoded_outbox, State.opened_outbox, List.append_assoc, List.drop_left]
    rw [← hemitted, emitted_append, emitted_okWord, List.nil_append]
  · obtain rfl : q = [] := List.length_eq_zero_iff.mp (by omega)
    obtain rfl : s.root = j := Option.some.inj hq
    exact ⟨_, hemitted ▸ decodeBits_at_root hp hcut, rfl⟩

end Sys2Proof.Machine
end

section
/-! The statements of 43_reference_functions.md about code tables. `symbolsBelow` is what the code table lists below a
node; the symbols below the roots of a forest are those of its leaves, by induction on the records written. -/

namespace Sys2Proof.Machine

/-! ### The entries of a code table (R174, R175) -/

/-- An entry is a path from the root to a Leaf of its symbol, or the digit 1 where that path is empty. -/
theorem buildCodes_entry_of_mem {m : Memory} {root : Nat} {e : Symbol × List Bool} (h : e ∈ buildCodes m root) :
    ∃ p k f, walk m root p = some k ∧ m[k]? = some (.leaf e.1 f) ∧ e.2 = if p = [] then [true] else p := by
  simpa using codesFrom_walk m m.length root [] e h

/-- A walk goes nowhere from a Leaf. -/
theorem walk_of_leaf {m : Memory} {i j f : Nat} {sym : Symbol} {p : List Bool} (hi : m[i]? = some (.leaf sym f))
    (h : walk m i p = some j) : p = [] ∧ j = i := by
  cases p with
  | nil => exact ⟨rfl, (Option.some.inj h).symm⟩
  | cons b p =>
    obtain ⟨g, l, r, hrec, _⟩ := walk_cons_eq_some.mp h
    simp [hi] at hrec

theorem path_to_leaf_ne_nil {m : Memory} {i k f : Nat} {sym : Symbol} {p : List Bool} (hi : InternalAt m i)
    (hw : walk m i p = some k) (hk : m[k]? = some (.leaf sym f)) : p ≠ [] := by
  rintro rfl
  obtain ⟨g, l, r, hrec⟩ := hi
  obtain rfl : i = k := Option.some.inj hw
  simp [hk] at hrec

/-- A path to a Leaf that begins another path to a Leaf is that path, and the two Leaves are one. -/
theorem walk_to_leaf_prefix {m : Memory} {i j k f g : Nat} {a b : Symbol} {p q : List Bool} (hpq : p <+: q)
    (hp : walk m i p = some j) (hj : m[j]? = some (.leaf a f)) (hq : walk m i q = some k)
    (hk : m[k]? = some (.leaf b g)) : a = b := by
  obtain ⟨q, rfl⟩ := hpq
  rw [walk_append, hp, Option.bind_some] at hq
  obtain ⟨_, rfl⟩ := walk_of_leaf hj hq
  rw [hj] at hk
  cases hk
  rfl

theorem code_ne_nil {m : Memory} {root : Nat} {e : Symbol × List Bool} (h : e ∈ buildCodes m root) : e.2 ≠ [] := by
  obtain ⟨p, _, _, _, _, hcode⟩ := buildCodes_entry_of_mem h
  rw [hcode]
  split
  · simp
  · assumption

/-- Two entries of which one's code begins the other's are of one symbol. An empty path means that the root is a Leaf,
and then both paths are empty. -/
theorem symbol_eq_of_code_prefix {m : Memory} {root : Nat} {e f : Symbol × List Bool} (he : e ∈ buildCodes m root)
    (hf : f ∈ buildCodes m root) (h : e.2 <+: f.2) : e.1 = f.1 := by
  obtain ⟨p, j, _, hp, hj, hpe⟩ := buildCodes_entry_of_mem he
  obtain ⟨q, k, _, hq, hk, hqf⟩ := buildCodes_entry_of_mem hf
  by_cases hpn : p = []
  · exact walk_to_leaf_prefix (hpn ▸ List.nil_prefix) hp hj hq hk
  · by_cases hqn : q = []
    · exact (walk_to_leaf_prefix (hqn ▸ List.nil_prefix) hq hk hp hj).symm
    · rw [hpe, hqf, if_neg hpn, if_neg hqn] at h
      exact walk_to_leaf_prefix h hp hj hq hk

/-! ### The length of a path -/

/-- A path to a Leaf from the root of a finished tree has a digit for each Internal it passes, of which there are
`L - 1`. -/
theorem State.Inv.path_length_le {s : State} (h : s.Inv) (hv : s.rootValid = true) {p : List Bool} {k : Nat}
    (hw : walk s.node s.root p = some k) : p.length ≤ s.nLeaves - 1 := by
  obtain ⟨hlen, hroot, _⟩ := h.rooted hv
  obtain ⟨_, ⟨hmem, _, _, hleaf, _⟩, _⟩ := h
  rcases List.eq_nil_or_concat' p with rfl | ⟨q, b, rfl⟩
  · simp
  · obtain ⟨j, f, l, r, hq, hj, _⟩ := walk_concat_eq_some hw
    obtain ⟨hlt, hget⟩ := List.getElem?_eq_some_iff.mp hj
    have hinternal : ¬ j < s.nLeaves := by simp [← hleaf j hlt, hget, NodeRec.isLeaf]
    have hdescends := walk_descends hmem hq
    rw [List.length_append, List.length_singleton]
    omega

/-! ### The symbols of a code table -/

/-- The children of every record are older than it (R28). -/
def ChildrenBelow (m : Memory) : Prop := ∀ (i : Nat) (r : NodeRec), m[i]? = some r → ∀ k ∈ r.children, k < i

theorem Memory.wf_childrenBelow {c : Config} {m : Memory} (h : Memory.wf c m) : ChildrenBelow m := by
  intro i r hi k hk
  cases r with
  | leaf sym f => simp [NodeRec.children] at hk
  | internal f a b =>
    obtain ⟨_, ha, hb, _⟩ := Memory.wf_internal h hi
    simp only [NodeRec.children, List.mem_cons, List.not_mem_nil, or_false] at hk
    omega

theorem ChildrenBelow.of_append {m : Memory} {r : NodeRec} (h : ChildrenBelow (m ++ [r])) : ChildrenBelow m :=
  fun i x hi => h i x (getElem?_write_of_lt hi)

theorem ChildrenBelow.last {m : Memory} {r : NodeRec} (h : ChildrenBelow (m ++ [r])) {k : Nat} (hk : k ∈ r.children) :
    k < m.length :=
  h m.length r (by simp) k hk

theorem ChildrenBelow.last_not_child {m : Memory} {r : NodeRec} (h : ChildrenBelow (m ++ [r])) :
    m.length ∉ childIndices (m ++ [r]) := by
  intro hmem
  obtain ⟨x, hx, hchild⟩ := List.mem_flatMap.mp hmem
  obtain ⟨i, hi⟩ := List.mem_iff_getElem?.mp hx
  obtain ⟨hlt, _⟩ := List.getElem?_eq_some_iff.mp hi
  have := h i x hi _ hchild
  rw [List.length_append, List.length_singleton] at hlt
  omega

/-- The symbols that a code table lists do not depend on the path in front, on fuel above the index, or on records
written later. -/
theorem codesFrom_symbols_congr {m : Memory} (h : ChildrenBelow m) (x : Memory) (p q : List Bool) {n k i : Nat}
    (hi : i < m.length) (hn : i < n) (hk : i < k) :
    (codesFrom (m ++ x) n i p).map Prod.fst = (codesFrom m k i q).map Prod.fst := by
  induction n generalizing k i p q with
  | zero => omega
  | succ n ih =>
    obtain ⟨k, rfl⟩ := Nat.exists_eq_add_of_lt hk
    rw [codesFrom, codesFrom, List.getElem?_append_left hi]
    cases hrec : m[i]? with
    | none => rfl
    | some r =>
      cases r with
      | leaf sym f => rfl
      | internal f a b =>
        have ha : a < i := h i _ hrec a (by simp [NodeRec.children])
        have hb : b < i := h i _ hrec b (by simp [NodeRec.children])
        simp only [List.map_append]
        rw [ih (p ++ [false]) (q ++ [false]) (by omega) (by omega) (show a < i + k by omega),
          ih (p ++ [true]) (q ++ [true]) (by omega) (by omega) (show b < i + k by omega)]

/-- The symbols of the leaves below a node, from the left, as its code table lists them. -/
def symbolsBelow (m : Memory) (i : Nat) : List Symbol := (buildCodes m i).map Prod.fst

theorem symbolsBelow_append {m : Memory} (h : ChildrenBelow m) (x : Memory) {i : Nat} (hi : i < m.length) :
    symbolsBelow (m ++ x) i = symbolsBelow m i :=
  codesFrom_symbols_congr h x [] [] hi (by rw [List.length_append]; omega) hi

/-- Below the record written last are its own symbol, if it is a Leaf, or the symbols below its children. -/
theorem symbolsBelow_last {m : Memory} {r : NodeRec} (h : ChildrenBelow (m ++ [r])) :
    symbolsBelow (m ++ [r]) m.length = leafSymbols [r] ++ r.children.flatMap (symbolsBelow m) := by
  have hlast : (m ++ [r])[m.length]? = some r := by simp
  rw [symbolsBelow, buildCodes, List.length_append, List.length_singleton, codesFrom, hlast]
  cases r with
  | leaf sym f => rfl
  | internal f a b =>
    have hchild {k : Nat} (hk : k ∈ [a, b]) (p : List Bool) :
        (codesFrom (m ++ [.internal f a b]) m.length k p).map Prod.fst = symbolsBelow m k :=
      codesFrom_symbols_congr h.of_append _ p [] (h.last hk) (h.last hk) (h.last hk)
    simp only [List.map_append, hchild (k := a) (by simp), hchild (k := b) (by simp), NodeRec.children, leafSymbols,
      List.filterMap_cons, NodeRec.sym?, List.filterMap_nil, List.flatMap_cons, List.flatMap_nil, List.append_nil,
      List.nil_append]

/-- Without the record written last, a root, its children are roots. -/
theorem roots_perm_without_last {m : Memory} {r : NodeRec} {roots : List Nat} (hlast : m.length ∈ roots)
    (h : (childIndices (m ++ [r]) ++ roots).Perm (List.range (m ++ [r]).length)) :
    (childIndices m ++ (r.children ++ roots.erase m.length)).Perm (List.range m.length) := by
  rw [childIndices_append, List.length_append, List.length_singleton, List.range_succ] at h
  refine (List.perm_append_right_iff [m.length]).mp (List.Perm.trans ?_ h)
  rw [List.append_assoc, List.append_assoc, List.append_assoc]
  exact ((List.perm_append_comm.trans (List.perm_cons_erase hlast).symm).append_left _).append_left _

/-- When every record is a child of one record, on one side, or a root, the symbols below the roots are those of the
leaves: by induction on the records, the one written last being a root. -/
theorem symbolsBelow_roots_perm {m : Memory} (h : ChildrenBelow m) {roots : List Nat}
    (hroots : (childIndices m ++ roots).Perm (List.range m.length)) :
    (roots.flatMap (symbolsBelow m)).Perm (leafSymbols m) := by
  induction m using List.reverseRecOn generalizing roots with
  | nil =>
    obtain rfl : roots = [] := by simpa [childIndices] using hroots
    exact .nil
  | append_singleton m r ih =>
    have hlast : m.length ∈ roots := by
      have hmem : m.length ∈ childIndices (m ++ [r]) ++ roots := by simp [hroots.mem_iff]
      exact (List.mem_append.mp hmem).resolve_left h.last_not_child
    have hold := roots_perm_without_last hlast hroots
    have holder : (roots.erase m.length).flatMap (symbolsBelow (m ++ [r])) =
        (roots.erase m.length).flatMap (symbolsBelow m) :=
      List.flatMap_congr fun i hi => symbolsBelow_append h.of_append _
        (List.mem_range.mp (hold.mem_iff.mp (by simp [hi])))
    calc (roots.flatMap (symbolsBelow (m ++ [r]))).Perm
          (leafSymbols [r] ++ (r.children ++ roots.erase m.length).flatMap (symbolsBelow m)) := by
          refine ((List.perm_cons_erase hlast).flatMap_right _).trans (.of_eq ?_)
          rw [List.flatMap_cons, symbolsBelow_last h, holder, List.flatMap_append, List.append_assoc]
      List.Perm _ (leafSymbols [r] ++ leafSymbols m) := (ih h.of_append hold).append_left _
      List.Perm _ (leafSymbols (m ++ [r])) := by
          rw [leafSymbols, leafSymbols, leafSymbols, List.filterMap_append]
          exact List.perm_append_comm

/-- The code table of a finished tree has the symbol of each leaf, once. -/
theorem State.Inv.buildCodes_symbols {s : State} (h : s.Inv) (hv : s.rootValid = true) :
    ((buildCodes s.node s.root).map Prod.fst).Perm (leafSymbols s.node) := by
  obtain ⟨_, _, _, hpq, _⟩ := h.rooted hv
  obtain ⟨_, ⟨hmem, _, _, _, _, hroots, _⟩, _⟩ := h
  rw [State.forestRoots, if_pos hv, hpq] at hroots
  simpa [symbolsBelow] using symbolsBelow_roots_perm (Memory.wf_childrenBelow hmem) hroots

/-- Settles O56: an entry is a path to a Leaf (`buildCodes_entry_of_mem`), and no path goes on from a Leaf. -/
theorem codesArePrefixFree : Obligations.CodesArePrefixFree := by
  intro s h hv
  refine ⟨h.buildCodes_symbols hv, fun e => code_ne_nil, fun e he f hf hne hpre => ?_, fun htwo e he => ?_⟩
  · exact hne (symbol_eq_of_code_prefix he hf hpre)
  · obtain ⟨p, k, f, hw, hk, hcode⟩ := buildCodes_entry_of_mem he
    have hroot : InternalAt s.node s.root := h.internalAt_root hv (by rw [Ne, h.root_isLeaf hv]; omega)
    rw [hcode, if_neg (path_to_leaf_ne_nil hroot hw hk)]
    exact ⟨h.path_length_le hv hw, k, f, hw, hk⟩

/-- Settles O57: the root is the only record, and a Leaf. -/
theorem oneLeafCodeIsOne : Obligations.OneLeafCodeIsOne := by
  intro s h hv hone
  obtain ⟨hlen, hroot, _⟩ := h.rooted hv
  have hleaf := (h.root_isLeaf hv).mpr hone
  obtain ⟨r, hnode⟩ := List.length_eq_one_iff.mp (show s.node.length = 1 by omega)
  have hzero : s.root = 0 := by omega
  rw [hnode, hzero] at hleaf ⊢
  cases r with
  | leaf sym f => exact ⟨sym, rfl, rfl⟩
  | internal f a b => simp [NodeRec.isLeaf] at hleaf

end Sys2Proof.Machine
end

section
/-! The statements of 43_reference_functions.md about the frequency map and about encoding over the block. What a
command that the host issues without failure did is said by `issue_eq_ok`: a run of `PUSH_LEAF` keeps the invariant and
adds the counts it presents (`issueAll_pushes`), and the read-out leaves the tree (`readOut_keeps_tree`). -/

namespace Sys2Proof.Machine

/-! ### The frequency map (R171) -/

/-- Settles O54: the keys are the first occurrences (`firstOccurrences_nodup`, `mem_firstOccurrences`). -/
theorem frequencyMapCounts : Obligations.FrequencyMapCounts := by
  have hmem (text : List Symbol) (sym : Symbol) (n : Nat) :
      (sym, n) ∈ frequencyMap text ↔ sym ∈ text ∧ n = text.count sym := by
    simp only [frequencyMap, List.mem_map, Prod.mk.injEq, mem_firstOccurrences]
    constructor
    · rintro ⟨_, h, rfl, rfl⟩
      exact ⟨h, rfl⟩
    · rintro ⟨h, rfl⟩
      exact ⟨sym, h, rfl, rfl⟩
  refine ⟨fun text => ⟨?_, hmem text, fun ⟨sym, n⟩ he => ?_⟩, rfl⟩
  · simpa [frequencyMap, Function.comp_def] using firstOccurrences_nodup text
  · obtain ⟨hsym, rfl⟩ := (hmem text sym n).mp he
    exact List.count_pos_iff.mpr hsym

/-- The counts of the distinct symbols of a text, in any order, add up to its length. -/
theorem sum_counts {order text : List Symbol} (h : order.Perm (firstOccurrences text)) :
    (order.map fun a => text.count a).sum = text.length := by
  have hdedup : order.Perm text.dedup := h.trans <|
    (List.perm_ext_iff_of_nodup (firstOccurrences_nodup text) text.nodup_dedup).mpr fun a => by
      rw [mem_firstOccurrences, List.mem_dedup]
  rw [(hdedup.map _).sum_nat]
  exact List.sum_map_count_dedup_eq_length text

/-! ### Commands that the host issues -/

/-- The word of a command decodes to it, unless an operand is out of its static range (R86, R87). -/
theorem decode_encode (c : Config) (i : Instr) :
    decode c (encode i) = if i.WellFormed c = true then .ok i else .error .badOperand := by
  cases i with
  | pushLeaf sym freq =>
    have hwf : (Instr.pushLeaf sym freq).WellFormed c = true ↔
        ¬ (c.symLimit ≤ sym.toNat ∨ c.freqLimit ≤ freq.toNat) := by simp [Instr.WellFormed]
    simp only [hwf, ite_not]
    simp [encode, decode, decodePushLeaf]
  | decBit b => simp [decode_encode_decBit, Instr.WellFormed]
  | rdReg n => simp [encode, decode, decodeRdReg, statusRegOf_number, Instr.WellFormed]
  | rdNode k => simp [encode, decode, decodeRdNode, Instr.WellFormed]
  | clear | build | decStart | decEnd => simp [encode, decode, decodeBare, Instr.WellFormed]

theorem failureOf_refusedWord (cause : Cause) : failureOf (refusedWord cause) = some (.refused cause) := by
  cases cause <;> simp [failureOf, causeOfCode, causeCode]

theorem failureOf_faultWord (f : FaultCode) : failureOf (faultWord f) = some (.failed f) := by
  cases f <;> simp [failureOf, faultOfCode, FaultCode.code]

section NoFailure

variable {u : State} {r : Word} (hchan : u.channel = .offered r) (hfail : failureOf r = none)
include hchan hfail

theorem ne_refuse_of_no_failure (s : State) (cause : Cause) : u ≠ s.refuse cause := by
  rintro rfl
  obtain rfl : refusedWord cause = r := by simpa using hchan
  simp [failureOf_refusedWord] at hfail

theorem ne_faultWord_of_no_failure (f : FaultCode) : u.channel ≠ .offered (faultWord f) := by
  rw [hchan]
  rintro ⟨⟩
  simp [failureOf_faultWord] at hfail

end NoFailure

/-- A command that the host issues without failure has operands in range, and its meaning answered with no failure. -/
theorem issue_eq_ok {i : Instr} {s t : State} {r : Word} (h : issue i s = .ok (r, t)) :
    i.WellFormed s.cfg = true ∧ failureOf r = none ∧
      ∃ u, exec i s = .next u ∧ u.channel = .offered r ∧
        t = { u with channel := .idle, outbox := s.outbox ++ [r] } := by
  unfold issue at h
  split at h
  · cases h
  · cases h
  rename_i v hv
  obtain ⟨u, r', hu, hchan, rfl, _⟩ := command_next hv
  simp only [List.getLast?_concat] at h
  split at h
  · cases h
  rename_i hfail
  cases h
  rcases runWord_cases hu with ⟨cause, _, hrefused⟩ | ⟨j, hj, hexec⟩
  · exact absurd hrefused (ne_refuse_of_no_failure hchan hfail s cause)
  · rw [decode_encode] at hj
    split at hj
    · rename_i hwf
      cases hj
      exact ⟨hwf, hfail, u, hexec, hchan, rfl⟩
    · cases hj

/-- A run without failure is a first command without failure and the rest. -/
theorem issueAll_cons_eq_ok {i : Instr} {is : List Instr} {s t : State} {rs : List Word}
    (h : issueAll (i :: is) s = .ok (rs, t)) :
    ∃ r rs' u, issue i s = .ok (r, u) ∧ issueAll is u = .ok (rs', t) := by
  rw [issueAll] at h
  split at h
  · cases h
  rename_i r u hu
  split at h
  · cases h
  rename_i rs' v hv
  cases h
  exact ⟨r, rs', u, hu, hv⟩

theorem issueAll_append_eq_ok {xs ys : List Instr} {s t : State} {rs : List Word}
    (h : issueAll (xs ++ ys) s = .ok (rs, t)) :
    ∃ rs' rs'' u, issueAll xs s = .ok (rs', u) ∧ issueAll ys u = .ok (rs'', t) := by
  rw [issueAll_append] at h
  split at h
  · cases h
  rename_i rs' u hu
  split at h
  · cases h
  rename_i rs'' v hv
  cases h
  exact ⟨rs', rs'', u, hu, hv⟩

/-! ### `CLEAR` (R151) -/

theorem State.resetIn_inv {c : Config} (h : c.Legal) : (State.resetIn c).Inv := by
  refine ⟨h, ⟨Memory.wf_nil c, .nil, by simp, by simp, .nil, .nil, rfl⟩, ?_, ?_, ?_, ?_⟩
  · simp [State.RecordInv]
  · simp [State.RootInv]
  · simp [State.PhaseInv]
  · simp [State.CounterInv]

/-- The state once `CLEAR` has answered. -/
def State.cleared (s : State) : State := { s.clearAll with channel := .idle, outbox := s.outbox ++ [okWord] }

theorem issue_clear (s : State) : issue .clear s = .ok (okWord, s.cleared) :=
  issue_ok (command_of_exec (t := s.clearAll.respond okWord) (decode_encode s.cfg .clear) rfl rfl) rfl failureOf_okWord

theorem State.cleared_inv {s : State} (h : s.cfg.Legal) : s.cleared.Inv :=
  (State.resetIn_inv h).congr rfl (by simp [State.cleared])

/-- Settles O58: `BUILD` after `CLEAR` finds no leaf (R119). -/
theorem emptyTextFails : Obligations.EmptyTextFails := by
  intro s
  have hbuild : issue .build s.cleared = .error (.failed .invalidInput) :=
    issue_failed (command_of_exec (i := .build) (decode_encode s.cfg .build) (execBuild_of_empty rfl rfl) rfl) rfl
      (failureOf_faultWord .invalidInput)
  simp only [encodeText, encodeInOrder, firstOccurrences, pushInOrder, List.nil_append, issueAll, issue_clear, hbuild]

/-! ### `PUSH_LEAF` (R113) -/

theorem hasSymbol_eq_false {m : Memory} {sym : Symbol} : hasSymbol m sym = false ↔ sym ∉ leafSymbols m := by
  simp [hasSymbol, leafSymbols]

/-- A new leaf, with a symbol not there yet, is one more tree of the forest. -/
theorem State.ForestInv.insertLeaf {s : State} (h : s.ForestInv) (hv : s.rootValid = false)
    (hlen : s.node.length = s.nLeaves) (hroom : s.nLeaves < s.cfg.maxLeaves) {sym : Symbol} {f : Nat}
    (hsym : sym.toNat < s.cfg.symLimit) (hfreq : f < s.cfg.freqLimit) (hnew : sym ∉ leafSymbols s.node) :
    (s.insertLeaf sym f).ForestInv := by
  have hlt := h.pq_lt
  obtain ⟨hmem, hpq, _, hleaf, hnodup, hperm, hsum⟩ := h
  rw [State.forestRoots_of_unrooted hv] at hperm hsum
  have hroots : (s.insertLeaf sym f).forestRoots = s.pq ++ [s.node.length] :=
    (State.forestRoots_of_unrooted (s := s.insertLeaf sym f) hv).trans (pqInsert_of_lt _ _ hlt)
  refine ⟨?_, pqWf_insert _ _ hpq, ⟨?_, ?_, ?_⟩, ?_, ?_, ?_, ?_⟩
  · refine Memory.wf_write s.cfg s.node _ hmem ?_ (by simp [recordWf, hsym, hfreq])
    rw [Config.nodeCap]
    omega
  · exact hroom
  · simp [hlen]
  · simp only [State.insertLeaf_node, State.insertLeaf_nLeaves, List.length_append, List.length_singleton]
    omega
  · intro i hi
    simp only [State.insertLeaf_node, State.insertLeaf_nLeaves, List.length_append, List.length_singleton] at hi ⊢
    by_cases hold : i < s.node.length
    · rw [List.getElem_append_left hold, hleaf i hold]
      omega
    · obtain rfl : i = s.node.length := by omega
      simp [NodeRec.isLeaf, hlen]
  · rw [State.insertLeaf_node, leafSymbols_append]
    refine List.nodup_append.mpr ⟨hnodup, List.nodup_singleton sym, fun a ha b hb hab => ?_⟩
    obtain rfl : b = sym := List.mem_singleton.mp hb
    exact hnew (hab ▸ ha)
  · rw [hroots, State.insertLeaf_node, childIndices_append, List.length_append, List.length_singleton, List.range_succ,
      NodeRec.children, List.append_nil, ← List.append_assoc]
    exact hperm.append_right _
  · have hread : (s.node ++ [.leaf sym f])[s.node.length]?.map NodeRec.freq = some f := by simp [NodeRec.freq]
    rw [hroots, State.insertLeaf_node, freqSum_concat _ hread, freqSum_append _ _ _ hlt, hsum, leafSum_append]
    rfl

/-- A `PUSH_LEAF` that completes keeps the invariant. -/
theorem State.Inv.insertLeaf {s : State} (h : s.Inv) (hp : s.phase = .collect) (hroom : s.nLeaves ≠ s.cfg.maxLeaves)
    {sym : Symbol} {f : Nat} (hsym : sym.toNat < s.cfg.symLimit) (hfreq : f < s.cfg.freqLimit)
    (hnew : hasSymbol s.node sym = false) : (s.insertLeaf sym f).Inv := by
  obtain ⟨hv, herr, hlen, _⟩ := h.collect hp
  obtain ⟨hlegal, hforest, hrecord, hroot, _, hcounter⟩ := h
  have hmax : s.nLeaves < s.cfg.maxLeaves := by
    obtain ⟨_, _, ⟨hle, _⟩, _⟩ := hforest
    omega
  obtain ⟨hvalid, _, hinvalid⟩ := hroot
  refine ⟨hlegal, hforest.insertLeaf hv hlen hmax hsym hfreq (hasSymbol_eq_false.mp hnew), hrecord,
    ⟨hvalid, ?_, hinvalid⟩, ?_, hcounter⟩
  · simp [hv]
  · simp [State.PhaseInv, hp, herr, hlen]

/-- A leaf that the host pushes without failure keeps the invariant and adds its frequency. -/
theorem issue_pushLeaf {sym : Symbol} {freq : BitVec 32} {s t : State} {r : Word} (h : s.Inv) (hp : s.phase = .collect)
    (hi : issue (.pushLeaf sym freq) s = .ok (r, t)) :
    t.Inv ∧ t.phase = .collect ∧ leafSum t.node = leafSum s.node + freq.toNat := by
  obtain ⟨hwf, hfail, u, hexec, hchan, rfl⟩ := issue_eq_ok hi
  simp only [Instr.WellFormed, Bool.and_eq_true, decide_eq_true_eq] at hwf
  obtain ⟨hsym, hfreq⟩ := hwf
  have hrefused := ne_refuse_of_no_failure hchan hfail s
  rcases execPushLeaf_cases hexec with ⟨_, hu⟩ | ⟨_, _, hu⟩ | ⟨_, _, _, hu⟩ | ⟨_, hnew, hroom, rfl⟩
  · exact absurd hu (hrefused _)
  · exact absurd hu (hrefused _)
  · exact absurd hu (hrefused _)
  · refine ⟨(h.insertLeaf hp hroom hsym hfreq hnew).congr rfl ?_, hp, leafSum_append _ _⟩
    obtain ⟨_, _, ⟨_, hrefusal⟩, _⟩ := h
    exact hrefusal

/-- The map of a text, pushed without failure, adds its counts. -/
theorem issueAll_pushes {order text : List Symbol} {pushes : List Instr} {s t : State} {rs : List Word} (h : s.Inv)
    (hp : s.phase = .collect) {c : Config} (hc : c.Legal) (hpush : pushInOrder c order text = some pushes)
    (hi : issueAll pushes s = .ok (rs, t)) :
    t.Inv ∧ t.phase = .collect ∧ leafSum t.node = leafSum s.node + (order.map fun a => text.count a).sum := by
  induction order generalizing pushes s rs with
  | nil =>
    cases hpush
    cases hi
    exact ⟨h, hp, rfl⟩
  | cons a order ih =>
    rw [pushInOrder] at hpush
    split at hpush
    · rename_i i is ha hrest
      cases hpush
      obtain ⟨freq, rfl, hcount⟩ := pushCount_toNat hc ha
      obtain ⟨r, rs', u, hu, hus⟩ := issueAll_cons_eq_ok hi
      obtain ⟨hinv, hphase, hsum⟩ := issue_pushLeaf h hp hu
      obtain ⟨hinv', hphase', hsum'⟩ := ih hinv hphase hrest hus
      refine ⟨hinv', hphase', ?_⟩
      rw [hsum', hsum, hcount, List.map_cons, List.sum_cons, Nat.add_assoc]
    · cases hpush

/-! ### `BUILD` (R121) -/

/-- The root's frequency is the sum of the leaves' (R55 (i)). -/
theorem State.Inv.root_freq {s : State} (h : s.Inv) (hv : s.rootValid = true) :
    s.node[s.root]?.map NodeRec.freq = some (leafSum s.node) := by
  obtain ⟨_, hroot, _, hpq, _⟩ := h.rooted hv
  obtain ⟨_, ⟨_, _, _, _, _, _, hsum⟩, _⟩ := h
  have hread : s.node[s.root]?.map NodeRec.freq = some s.node[s.root].freq := by
    rw [List.getElem?_eq_getElem (by omega), Option.map_some]
  rw [State.forestRoots, if_pos hv, hpq, freqSum_cons [] hread, freqSum_nil, Nat.add_zero] at hsum
  rw [hread, hsum]

/-- A `BUILD` that the host issues without failure gives the root the sum of the leaves' frequencies, which stays. -/
theorem issue_build {s t : State} {r : Word} (h : s.Inv) (hp : s.phase = .collect) (hi : issue .build s = .ok (r, t)) :
    t.node[t.root]?.map NodeRec.freq = some (leafSum s.node) ∧ leafSum t.node = leafSum s.node := by
  obtain ⟨_, hfail, u, hexec, hchan, rfl⟩ := issue_eq_ok hi
  have hnofault := ne_faultWord_of_no_failure hchan hfail
  obtain ⟨_, _, _, hpq, _⟩ := h.collect hp
  rcases Nat.eq_zero_or_pos s.nLeaves with hL | hL
  · have hfault := execBuild_of_empty hp (List.length_eq_zero_iff.mp (hpq.trans hL))
    cases hexec.symm.trans hfault
    exact absurd rfl (hnofault .invalidInput)
  · by_cases hover : 2 ≤ s.nLeaves ∧ 2 ^ s.cfg.freqW ≤ leafSum s.node
    · obtain ⟨m, q, hfault, _⟩ := buildOverflowKeepsForest s h hp hover.1 hover.2
      cases hexec.symm.trans hfault
      exact absurd (congrArg Channel.offered (by decide)) (hnofault .freqOverflow)
    · obtain ⟨m, hbuilt, _, _, _, hfreq, hinv⟩ := buildCompletes s h hp hL (by omega)
      cases hexec.symm.trans hbuilt
      exact ⟨hfreq, Option.some.inj ((hinv.root_freq rfl).symm.trans hfreq)⟩

/-! ### Reading out (R154) -/

/-- The commands that only read. -/
def IsRead (i : Instr) : Prop := (∃ n, i = .rdReg n) ∨ ∃ k, i = .rdNode k

/-- A read that the host issues without failure leaves the block as it is. -/
theorem issue_read {i : Instr} {s t : State} {r : Word} (hread : IsRead i) (h : issue i s = .ok (r, t)) :
    t = { s with channel := .idle, outbox := s.outbox ++ [r] } := by
  obtain ⟨_, hfail, u, hexec, hchan, rfl⟩ := issue_eq_ok h
  rcases hread with ⟨n, rfl⟩ | ⟨k, rfl⟩
  · cases hexec
    rfl
  · rcases execRdNode_cases hexec with ⟨_, hrefused⟩ | ⟨x, _, rfl⟩
    · exact absurd hrefused (ne_refuse_of_no_failure hchan hfail s .unwritten)
    · rfl

theorem issueAll_reads {is : List Instr} {s t : State} {rs : List Word} (hreads : ∀ i ∈ is, IsRead i)
    (h : issueAll is s = .ok (rs, t)) : t.node = s.node ∧ t.root = s.root := by
  induction is generalizing s rs with
  | nil =>
    cases h
    exact ⟨rfl, rfl⟩
  | cons i is ih =>
    obtain ⟨r, rs', u, hu, hus⟩ := issueAll_cons_eq_ok h
    obtain ⟨hi, his⟩ := List.forall_mem_cons.mp hreads
    have hsame := issue_read hi hu
    have hrest := ih his hus
    rw [hsame] at hrest
    exact hrest

/-- Reading the tree out leaves it in the block. -/
theorem readOut_keeps_tree {s t : State} {tree : ReadTree} (h : readOut s = .ok (tree, t)) :
    t.node = s.node ∧ t.root = s.root := by
  have hreg (n : StatusReg) : IsRead (.rdReg n) := .inl ⟨n, rfl⟩
  have hnodes (n : Nat) : ∀ i ∈ readNodes n, IsRead i := by
    intro i hi
    obtain ⟨k, _, rfl⟩ := List.mem_map.mp hi
    exact .inr ⟨_, rfl⟩
  unfold readOut at h
  split at h
  · cases h
  rename_i status s1 h1
  split at h
  · cases h
  split at h
  · cases h
  rename_i n s2 h2
  split at h
  · cases h
  rename_i root s3 h3
  split at h
  · cases h
  rename_i rs u hrs
  cases h
  have hkept := issueAll_reads (hnodes _) hrs
  rw [issue_read (hreg _) h3, issue_read (hreg _) h2, issue_read (hreg _) h1] at hkept
  exact hkept

/-! ### Frequency conservation (R183) -/

/-- What an encode that succeeds did: the commands of R177 answered without failure, and the tree was read out. -/
theorem encodeInOrder_eq_ok {order text : List Symbol} {s t : State} {bits : List Bool}
    (h : encodeInOrder order text s = .ok (bits, t)) :
    ∃ pushes rs r s1 s2 tree, pushInOrder s.cfg order text = some pushes ∧
      issueAll pushes s.cleared = .ok (rs, s1) ∧ issue .build s1 = .ok (r, s2) ∧ readOut s2 = .ok (tree, t) := by
  unfold encodeInOrder at h
  split at h
  · cases h
  rename_i pushes hpush
  split at h
  · cases h
  rename_i rs s2 hissued
  split at h
  · cases h
  rename_i tree u hread
  split at h
  · cases h
  cases h
  obtain ⟨_, _, s0, hclear, hrest⟩ := issueAll_cons_eq_ok hissued
  cases (issue_clear s).symm.trans hclear
  obtain ⟨rs, _, s1, hpushes, hlast⟩ := issueAll_append_eq_ok hrest
  obtain ⟨r, _, s3, hbuild, hnil⟩ := issueAll_cons_eq_ok hlast
  cases hnil
  exact ⟨pushes, rs, r, s1, s2, tree, hpush, hpushes, hbuild, hread⟩

/-- Settles O59: the pushes add the counts of the text (`issueAll_pushes`), `BUILD` makes the root of their sum, and the
read-out leaves both. -/
theorem frequencyConservation : Obligations.FrequencyConservation := by
  intro s order text bits t hlegal horder h
  obtain ⟨pushes, _, _, s1, s2, _, hpush, hpushes, hbuild, hread⟩ := encodeInOrder_eq_ok h
  obtain ⟨hinv, hphase, hsum⟩ := issueAll_pushes (State.cleared_inv hlegal) rfl hlegal hpush hpushes
  obtain ⟨hroot, hleaves⟩ := issue_build hinv hphase hbuild
  obtain ⟨hnode, hindex⟩ := readOut_keeps_tree hread
  have htotal : leafSum s1.node = text.length := by
    rw [hsum, sum_counts horder]
    exact Nat.zero_add _
  rw [hnode, hindex, hleaves]
  exact ⟨hroot, htotal⟩

end Sys2Proof.Machine
end

section
/-! The statements of 60_exceptions.md about refusals and faults. A response of either kind names the operation that
gave it, `State.refuse` or `State.raiseFault`; and in `FAILED` a command word other than `CLEAR` only refuses or reads. -/

namespace Sys2Proof.Machine

open Sys2Proof.Claims

/-! ### A refused command (R209) -/

/-- Settles O39: the response is a refusal's (`runWord_refused`), which writes what `afterRefusal` says. -/
theorem refusalChangesOnlyItsRecord : Obligations.RefusalChangesOnlyItsRecord := by
  intro w s t r h hr hk
  obtain ⟨cause, rfl, rfl⟩ := runWord_refused h hr hk
  exact ⟨cause, rfl, s.refuse_eq_afterRefusal cause⟩

/-! ### A command that faults (R206) -/

/-- The merge loop that overflows has added records and changed `pq`, nothing else (R118). -/
theorem mergeLoop_overflow {n : Nat} {s u : State} (h : mergeLoop n s = .ok (.overflow u)) :
    s.node <+: u.node ∧ u = { s with node := u.node, pq := u.pq } := by
  obtain ⟨v, hv, hframe, hgrown⟩ := mergeLoop_frame h
  obtain rfl : u = v := by simpa using hv
  exact ⟨hgrown, hframe⟩

/-- A command word is answered `FAULT` only by a raise: of `DEC_END` off the root or `BUILD` of nothing in the state as
it was, or of `BUILD` in the state its merge loop overflows in. -/
theorem runWord_faulted {w : Word} {s t : State} {r : Word} (h : runWord w s = .next t) (hr : t.channel = .offered r)
    (hk : respKind r = 3) :
    (decode s.cfg w = .ok .decEnd ∧ t = s.raiseFault .corruptData) ∨
    (decode s.cfg w = .ok .build ∧ s.pq = [] ∧ t = s.raiseFault .invalidInput) ∨
    (decode s.cfg w = .ok .build ∧
      ∃ u, mergeLoop s.pq.length s = .ok (.overflow u) ∧ t = u.raiseFault .freqOverflow) := by
  cases runWord_effect h with
  | corrupt hd => exact .inl ⟨hd, rfl⟩
  | buildEmpty hd _ hq => exact .inr (.inl ⟨hd, hq, rfl⟩)
  | buildOverflow u hd _ _ hm => exact .inr (.inr ⟨hd, u, hm, rfl⟩)
  | _ =>
    obtain rfl : _ = r := by simpa using hr
    simp at hk

/-- Settles O41: the three raises of `runWord_faulted`, and what the merge loop wrote before it overflowed. -/
theorem faultRecordsItsCode : Obligations.FaultRecordsItsCode := by
  intro w s t r h hr hk
  rcases runWord_faulted h hr hk with ⟨hd, rfl⟩ | ⟨hd, hq, rfl⟩ | ⟨hd, u, hm, rfl⟩
  · cases hr
    exact ⟨.corruptData, rfl, .inl ⟨rfl, hd, rfl⟩⟩
  · cases hr
    exact ⟨.invalidInput, rfl, .inr (.inl ⟨rfl, hd, hq, rfl⟩)⟩
  · cases hr
    obtain ⟨hgrown, hframe⟩ := mergeLoop_overflow hm
    exact ⟨.freqOverflow, rfl, .inr (.inr ⟨rfl, hd, u, hm, hgrown, hframe, rfl⟩)⟩

/-! ### `FAILED` (R211, R213) -/

/-- The row of `FAILED` in the table of R43. -/
theorem admits_failed {i : Instr} : admits .failed i = true ↔ i = .clear ∨ IsRead i := by
  cases i <;> simp [admits, IsRead]

/-- A command word that decodes to a command out of its phase is refused `BAD_PHASE` (R43, R210). -/
theorem runWord_not_admitted {w : Word} {s t : State} {i : Instr} (h : runWord w s = .next t)
    (hd : decode s.cfg w = .ok i) (ha : admits s.phase i = false) :
    t = afterRefusal s .badPhase 0x4300000000000000#64 := by
  rw [runWord_of_ok hd, exec_of_not_admitted ha, State.refuse_eq_afterRefusal] at h
  cases h
  rfl

/-- In `FAILED` a command word other than `CLEAR` only refuses or reads: every other effect is of another phase. -/
theorem runWord_failed {w : Word} {s t : State} (hp : s.phase = .failed) (h : runWord w s = .next t)
    (hd : decode s.cfg w ≠ .ok .clear) : (∃ cause, t = s.refuse cause) ∨ ∃ p, t = s.respond (dataWord p) := by
  cases runWord_effect h with
  | refused cause => exact .inl ⟨cause, rfl⟩
  | read p => exact .inr ⟨p, rfl⟩
  | cleared hclear => exact absurd hclear hd
  | pushed _ _ _ hq | buildEmpty _ hq | buildOverflow _ _ hq | built _ _ _ hq | started _ hq | emitted _ _ _ _ hq
  | moved _ _ _ hq | corrupt _ hq | ended _ hq => exact absurd (hp.symm.trans hq) (by decide)

/-- Settles O42: the row of `FAILED` says which commands are admitted, and `runWord_failed` what they write. -/
theorem failedAdmitsOnlyReadsAndClear : Obligations.FailedAdmitsOnlyReadsAndClear := by
  refine ⟨fun s _ => ⟨⟨s.clearAll.respond okWord, rfl, rfl, rfl, rfl⟩, fun n => rfl, fun i r hr => ?_⟩,
    fun w s t hp h hd => ⟨?_, fun i hi => ?_⟩⟩
  · simp [exec, execRdNode, hr, State.respond, dataWord]
  · rcases runWord_failed hp h hd with ⟨cause, rfl⟩ | ⟨p, rfl⟩
    · rw [State.refuse_eq_afterRefusal]
      rfl
    · rfl
  · cases ha : admits s.phase i with
    | false => exact .inr (.inr (runWord_not_admitted h hi ha))
    | true =>
      rw [hp, admits_failed] at ha
      rcases ha with rfl | hreg | hnode
      · exact absurd hi hd
      · exact .inl hreg
      · exact .inr (.inl hnode)

/-- In `FAILED` the two commands that fault are refused (R213). -/
theorem runWord_failed_refuses {w : Word} {s t : State} (hp : s.phase = .failed) (h : runWord w s = .next t)
    (hd : decode s.cfg w = .ok .build ∨ decode s.cfg w = .ok .decEnd) :
    t = afterRefusal s .badPhase 0x4300000000000000#64 := by
  rcases hd with hd | hd
  · exact runWord_not_admitted h hd (by rw [hp]; rfl)
  · exact runWord_not_admitted h hd (by rw [hp]; rfl)

/-- In `FAILED` no command word is answered `FAULT`: the commands that could be are refused. -/
theorem runWord_failed_no_fault {w : Word} {s t : State} {r : Word} (hp : s.phase = .failed) (h : runWord w s = .next t)
    (hr : t.channel = .offered r) : respKind r ≠ 3 := by
  intro hk
  have hd : decode s.cfg w = .ok .build ∨ decode s.cfg w = .ok .decEnd := by
    rcases runWord_faulted h hr hk with ⟨hd, _⟩ | ⟨hd, _⟩ | ⟨hd, _⟩
    · exact .inr hd
    · exact .inl hd
    · exact .inl hd
  rw [runWord_failed_refuses hp h hd] at hr
  cases hr
  exact absurd hk (by decide)

/-- Settles O43: a fault is recorded only in `FAILED`, where no command word is answered `FAULT` and `runWord_failed`
says what one other than `CLEAR` writes. -/
theorem noSecondFault : Obligations.NoSecondFault := by
  intro w s t r hinv he h hr
  obtain ⟨_, _, ⟨hfault, _⟩, _⟩ := hinv
  have hp : s.phase = .failed := hfault.mp he
  refine ⟨runWord_failed_no_fault hp h hr, fun hd => ?_, fun hd => ?_⟩
  · rcases runWord_failed hp h hd with ⟨cause, rfl⟩ | ⟨p, rfl⟩
    · exact ⟨s.refuse_err cause, fun hrfs => by simp [hrfs]⟩
    · exact ⟨rfl, fun _ => rfl⟩
  · obtain rfl := runWord_failed_refuses hp h hd
    cases hr
    exact ⟨rfl, rfl⟩

end Sys2Proof.Machine
end

section
/-! The statements of 70_reset_and_hazards.md about the reset edge and the legal order of commands. A command in order
is one the phase table admits, and without a fault it leads to the next place in the order; the invariant, which every
command keeps, makes each of them answer. -/

namespace Sys2Proof.Machine

/-! ### The reset edge (R230) -/

theorem edge_reset {p : Pins} (h : p.rst = true) (s : State) : edge p s = .next s.assertReset := if_pos h

theorem cmdReady_reset (s : State) : s.cmdReady true = false := rfl

/-- Settles O52: a reset edge looks neither at the channel nor at the other pins. -/
theorem portResetAbandonsCommand : Obligations.PortResetAbandonsCommand := by
  intro p s hr
  have hedge := edge_reset hr s
  refine ⟨hedge, cmdReady_reset s, rfl, ?_, fun t ht => ?_⟩
  · simp [acceptedWords, hedge, hr, cmdReady_reset]
  · cases hedge.symm.trans ht
    exact ⟨rfl, rfl⟩

/-! ### The invariant is kept (R55)

The lemmas named `_answers` say of a command that it gives a next state, which meets the invariant. -/

theorem State.Inv.respond {s : State} (h : s.Inv) (r : Word) : (s.respond r).Inv := by
  have ⟨_, _, ⟨_, hrefusal⟩, _⟩ := h
  exact h.congr rfl hrefusal

theorem State.Inv.refuse {s : State} (h : s.Inv) (cause : Cause) : (s.refuse cause).Inv := by
  have ⟨_, _, ⟨_, hrefusal⟩, _⟩ := h
  rw [State.refuse_eq_afterRefusal]
  refine h.congr rfl ?_
  cases hrfs : s.rfs with
  | false => simp [Claims.afterRefusal, hrfs]
  | true => simpa [Claims.afterRefusal, hrfs] using hrefusal

theorem State.Inv.clearAll {s : State} (h : s.Inv) : s.clearAll.Inv := by
  have ⟨hlegal, _⟩ := h
  exact (State.resetIn_inv hlegal).congr rfl (by simp)

/-- A fault of `BUILD` keeps the invariant, whatever merges stand: there is still no root. -/
theorem State.Inv.raiseBuildFault {s : State} (h : s.Inv) (hp : s.phase = .collect) {m : Memory} {q : List Nat}
    (hf : State.ForestInv { s with node := m, pq := q }) {f : FaultCode} (hcode : f ≠ .corruptData)
    (hinvalid : f = .invalidInput → m = []) (hover : f = .freqOverflow → 2 ≤ q.length) :
    (State.raiseFault f { s with node := m, pq := q }).Inv := by
  obtain ⟨hv, _⟩ := h.collect hp
  obtain ⟨hlegal, _, ⟨_, hrefusal⟩, ⟨_, _, hunrooted⟩, _, hcount⟩ := h
  refine ⟨hlegal, hf, ⟨by simp, hrefusal⟩, ⟨by simp [hv, hcode], by simp [hv], hunrooted⟩, ?_, hcount⟩
  simpa [State.PhaseInv, hcode] using ⟨hinvalid, hover⟩

theorem State.Inv.build_answers {s : State} (h : s.Inv) (hp : s.phase = .collect) :
    ∃ t, execBuild s = .next t ∧ t.Inv := by
  obtain ⟨_, _, hnode, hpq, _⟩ := h.collect hp
  have ⟨_, hforest, _⟩ := h
  rcases Nat.eq_zero_or_pos s.nLeaves with hL | hL
  · refine ⟨_, execBuild_of_empty hp (List.length_eq_zero_iff.mp (hpq.trans hL)), ?_⟩
    exact h.raiseBuildFault hp hforest (by decide) (fun _ => List.length_eq_zero_iff.mp (hnode.trans hL)) (by simp)
  · by_cases hover : 2 ≤ s.nLeaves ∧ 2 ^ s.cfg.freqW ≤ leafSum s.node
    · obtain ⟨m, q, hfault, _, _, _, htwo, hkept, _⟩ := buildOverflowKeepsForest s h hp hover.1 hover.2
      exact ⟨_, hfault, h.raiseBuildFault (f := .freqOverflow) hp hkept (by decide) (by simp) (fun _ => htwo)⟩
    · obtain ⟨m, hbuilt, _, _, _, _, hkept⟩ := buildCompletes s h hp hL (by omega)
      exact ⟨_, hbuilt, hkept.respond _⟩

theorem State.Inv.pushLeaf_answers {s : State} (h : s.Inv) (hp : s.phase = .collect) {sym : Symbol} {freq : BitVec 32}
    (hwf : (Instr.pushLeaf sym freq).WellFormed s.cfg = true) :
    ∃ t, execPushLeaf sym freq s = .next t ∧ t.Inv := by
  simp only [Instr.WellFormed, Bool.and_eq_true, decide_eq_true_eq] at hwf
  obtain ⟨hsym, hfreq⟩ := hwf
  unfold execPushLeaf
  rw [if_neg (by simp [hp])]
  split
  · exact ⟨_, rfl, h.refuse _⟩
  · rename_i hnew
    split
    · exact ⟨_, rfl, h.refuse _⟩
    · rename_i hroom
      exact ⟨_, rfl, (h.insertLeaf hp hroom hsym hfreq (by simpa using hnew)).respond _⟩

/-- A change of phase, position and counters on a finished tree keeps the invariant when it leads to the root, or to an
Internal record in a session on a tree whose root is one (R34). -/
theorem State.Inv.reposition {s : State} (h : s.Inv) (hs : s.phase = .built ∨ s.phase = .decoding) {p : Phase}
    (hp : p = .built ∨ p = .decoding) {i cursor emitCnt : Nat}
    (hi : i = s.root ∨ p = .decoding ∧ InternalAt s.node s.root ∧ InternalAt s.node i)
    (hcount : emitCnt ≤ cursor ∧ cursor ≤ s.cfg.cntMax) :
    State.Inv { s with phase := p, cur := i, cursor := cursor, emitCnt := emitCnt } := by
  have hnofail : s.phase ≠ .failed := by rcases hs with hs | hs <;> simp [hs]
  have herr := h.err_none hnofail
  have hv := h.root_valid hs
  obtain ⟨hlegal, hforest, ⟨_, hrefusal⟩, ⟨_, hrooted, _⟩, _⟩ := h
  obtain ⟨hpq, hsize, hlast, _⟩ := hrooted hv
  have hwritten : i < s.node.length := by
    rcases hi with rfl | ⟨_, _, f, l, r, hrec⟩
    · omega
    · exact (List.getElem?_eq_some_iff.mp hrec).1
  refine ⟨hlegal, hforest, ⟨?_, hrefusal⟩, ⟨?_, fun _ => ⟨hpq, hsize, hlast, hwritten⟩, by simp [hv]⟩, ?_, hcount⟩
  · rcases hp with rfl | rfl <;> simp [herr]
  · rcases hp with rfl | rfl <;> simp [hv]
  · rcases hi with rfl | ⟨rfl, hroot, hcur⟩
    · rcases hp with rfl | rfl <;> simp [State.PhaseInv, herr]
    · simp [State.PhaseInv, herr, internalAt_iff.mp hroot, internalAt_iff.mp hcur]

theorem State.Inv.decStart_answers {s : State} (h : s.Inv) (hp : s.phase = .built) :
    ∃ t, exec .decStart s = .next t ∧ t.Inv :=
  ⟨_, execDecStart_of_built hp,
    (h.reposition (.inl hp) (.inr rfl) (.inl rfl) ⟨le_rfl, Nat.zero_le _⟩).respond okWord⟩

theorem State.Inv.decBit_answers {s : State} (h : s.Inv) (hp : s.phase = .decoding) (b : Bool) :
    ∃ t, exec (.decBit b) s = .next t ∧ t.Inv := by
  by_cases hc : s.cursor = s.cfg.cntMax
  · exact ⟨_, execDecBit_at_limit b hp hc, h.refuse .limit⟩
  have ⟨_, ⟨hwf, _⟩, _, _, _, hemit, hcursor⟩ := h
  have hnext : s.cursor + 1 ≤ s.cfg.cntMax := Nat.lt_of_le_of_ne hcursor hc
  have hv := h.root_valid (.inr hp)
  by_cases hr : s.node[s.root]?.map NodeRec.isLeaf = some true
  · obtain ⟨sym, f, hleaf⟩ : ∃ sym f, s.node[s.root]? = some (.leaf sym f) := by
      obtain ⟨⟨sym, f⟩ | _, hrec, hisLeaf⟩ := Option.map_eq_some_iff.mp hr
      · exact ⟨sym, f, hrec⟩
      · cases hisLeaf
    exact ⟨_, execDecBit_of_leafRoot hp hc b hleaf, (h.reposition (.inr hp) (.inr hp) (.inl (h.cur_of_leafRoot hp hr))
      ⟨Nat.succ_le_succ hemit, hnext⟩).respond (emitWord sym)⟩
  · have hroot := h.internalAt_root hv hr
    obtain ⟨f, l, r, hcur⟩ := h.internalAt_cur hp hroot
    obtain ⟨_, _, _, _, x, y, hx, hy, _⟩ := Memory.wf_internal hwf hcur
    obtain ⟨child, hchild⟩ : ∃ rec, s.node[if b then r else l]? = some rec := by
      cases b
      · exact ⟨x, hx⟩
      · exact ⟨y, hy⟩
    cases child with
    | leaf sym g =>
      exact ⟨_, execDecBit_emits hp hc hroot hcur hchild, (h.reposition (.inr hp) (.inr hp) (.inl rfl)
        ⟨Nat.succ_le_succ hemit, hnext⟩).respond (emitWord sym)⟩
    | internal g l' r' =>
      have hmoved : InternalAt s.node (if b then r else l) := ⟨g, l', r', hchild⟩
      exact ⟨_, execDecBit_moves hp hc hroot hcur hmoved, (h.reposition (.inr hp) (.inr hp)
        (.inr ⟨hp, hroot, hmoved⟩) ⟨Nat.le_succ_of_le hemit, hnext⟩).respond okWord⟩

/-- `CORRUPT_DATA` keeps the invariant: off the root the position is an Internal record (R34, R138). -/
theorem State.Inv.raiseCorruptData {s : State} (h : s.Inv) (hp : s.phase = .decoding) (hc : s.cur ≠ s.root) :
    (s.raiseFault .corruptData).Inv := by
  have hv := h.root_valid (.inr hp)
  have hcur := h.internalAt_cur hp (h.internalAt_root hv fun hr => hc (h.cur_of_leafRoot hp hr))
  obtain ⟨hlegal, hforest, ⟨_, hrefusal⟩, ⟨_, hrooted, hunrooted⟩, _, hcount⟩ := h
  refine ⟨hlegal, hforest, ⟨by simp, hrefusal⟩, ⟨by simp [hv], hrooted, hunrooted⟩, ?_, hcount⟩
  simp [State.PhaseInv, hc, internalAt_iff.mp hcur, -Option.map_eq_some_iff]

theorem State.Inv.decEnd_answers {s : State} (h : s.Inv) (hp : s.phase = .decoding) :
    ∃ t, exec .decEnd s = .next t ∧ t.Inv := by
  have ⟨_, _, _, _, _, hcount⟩ := h
  by_cases hc : s.cur = s.root
  · exact ⟨_, execDecEnd_at_root hp hc, (h.reposition (.inr hp) (.inl rfl) (.inl hc) hcount).respond okWord⟩
  · exact ⟨_, execDecEnd_off_root hp hc, h.raiseCorruptData hp hc⟩

theorem State.Inv.rdNode_answers {s : State} (h : s.Inv) (k : BitVec 32) : ∃ t, execRdNode k s = .next t ∧ t.Inv := by
  unfold execRdNode
  split
  · exact ⟨_, rfl, h.refuse .unwritten⟩
  · exact ⟨_, rfl, h.respond _⟩

/-- A well-formed command of a state that meets the invariant answers, and keeps it (R55). -/
theorem State.Inv.exec_answers {s : State} (h : s.Inv) {i : Instr} (hwf : i.WellFormed s.cfg = true) :
    ∃ t, exec i s = .next t ∧ t.Inv := by
  cases ha : admits s.phase i with
  | false => exact ⟨_, exec_of_not_admitted ha, h.refuse .badPhase⟩
  | true =>
    cases i with
    | clear => exact ⟨_, rfl, h.clearAll.respond okWord⟩
    | pushLeaf sym freq => exact h.pushLeaf_answers (by simpa [admits] using ha) hwf
    | build => exact h.build_answers (by simpa [admits] using ha)
    | decStart => exact h.decStart_answers (by simpa [admits] using ha)
    | decBit b => exact h.decBit_answers (by simpa [admits] using ha) b
    | decEnd => exact h.decEnd_answers (by simpa [admits] using ha)
    | rdReg n => exact ⟨_, rfl, h.respond _⟩
    | rdNode k => exact h.rdNode_answers k

theorem State.Inv.deliver {s : State} (h : s.Inv) : s.deliver.Inv := by
  have ⟨_, _, ⟨_, hrefusal⟩, _⟩ := h
  refine h.congr ?_ (by simpa using hrefusal)
  unfold State.deliver
  split <;> rfl

/-- The same of the whole command: its meaning, and its one response transferred. -/
theorem State.Inv.command_answers {s : State} (h : s.Inv) {i : Instr} (hwf : i.WellFormed s.cfg = true) :
    ∃ t r, exec i s = .next t ∧ t.channel = .offered r ∧ command (encode i) s = .next t.deliver ∧
      t.deliver.Inv ∧ t.deliver.cfg = s.cfg ∧ t.deliver.outbox = s.outbox ++ [r] := by
  have hd : decode s.cfg (encode i) = .ok i := by rw [decode_encode, if_pos hwf]
  obtain ⟨t, hexec, hinv⟩ := h.exec_answers hwf
  have hrun : runWord (encode i) s = .next t := (runWord_of_ok hd).trans hexec
  obtain ⟨r, hr⟩ := runWord_offers hrun
  obtain ⟨hcfg, _, houtbox⟩ := runWord_frame hrun
  exact ⟨t, r, hexec, hr, by rw [command, hrun], hinv.deliver, by rw [State.deliver_cfg, hcfg],
    by rw [State.deliver_offered hr, houtbox]⟩

/-! ### The legal order (R234) -/

/-- The commands that have a place in the order are those that the phase admits (R43). -/
theorem orderAfter_eq_none_iff {p : Phase} {i : Instr} : orderAfter p i = none ↔ admits p i = false := by
  cases i <;> simp [orderAfter, admits]

/-- The response is the `BAD_PHASE` refusal exactly when the command is out of its phase (R43). -/
theorem exec_badPhase_response_iff {i : Instr} {s t : State} {r : Word} (h : exec i s = .next t)
    (hr : t.channel = .offered r) : r = refusedWord .badPhase ↔ admits s.phase i = false := by
  constructor
  · rintro rfl
    by_contra ha
    obtain ⟨_, r, hr', hne, _⟩ := exec_followsTable (by simpa using ha) h
    cases hr.symm.trans hr'
    exact hne (by decide)
  · intro ha
    cases (exec_of_not_admitted ha).symm.trans h
    cases hr
    rfl

/-- `FAILED` is entered with a `FAULT` response only (R206). -/
theorem runWord_enters_failed {w : Word} {s t : State} {r : Word} (h : runWord w s = .next t)
    (hr : t.channel = .offered r) (hk : respKind r ≠ 3) (hp : t.phase = .failed) : s.phase = .failed := by
  cases runWord_effect h with
  | refused | read | pushed | emitted | moved => simpa using hp
  | cleared | built | started | ended => simp at hp
  | buildEmpty | buildOverflow | corrupt =>
    cases hr
    simp at hk

/-- An admitted command that does not fault leads to the next place in the order: without a fault, the `FAILED` that the
table of R43 allows after `BUILD` and `DEC_END` is ruled out. -/
theorem orderAfter_of_answered {i : Instr} {w : Word} {s t : State} {r : Word} (hd : decode s.cfg w = .ok i)
    (ha : admits s.phase i = true) (h : exec i s = .next t) (hr : t.channel = .offered r) (hk : respKind r ≠ 3) :
    orderAfter s.phase i = some t.phase := by
  have hfailed := runWord_enters_failed ((runWord_of_ok hd).trans h) hr hk
  obtain ⟨hrow, _⟩ := exec_followsTable ha h
  cases i with
  | clear | rdReg | rdNode => simp_all [phaseAfter, orderAfter]
  | pushLeaf | decStart | decBit => simp_all [phaseAfter, orderAfter, admits]
  | build =>
    have hp : s.phase = .collect := by simpa [admits] using ha
    have hbuilt : t.phase = .built := by
      by_cases hq : s.pq = [] <;> simp_all [phaseAfter]
    simp [orderAfter, hp, hbuilt]
  | decEnd =>
    have hp : s.phase = .decoding := by simpa [admits] using ha
    have hbuilt : t.phase = .built := by
      by_cases hc : s.cur = s.root <;> simp_all [phaseAfter]
    simp [orderAfter, hp, hbuilt]

theorem legalOrder_cons_iff {p : Phase} {i : Instr} {is : List Instr} :
    LegalOrder p (i :: is) ↔ ∃ q, orderAfter p i = some q ∧ LegalOrder q is := by
  rw [LegalOrder]
  split <;> simp_all

/-- Settles O28, by induction on the commands: the first is answered `BAD_PHASE` exactly when it has no place in the
order; if it faults the order ends with it, and else the rest goes on from the phase it leads to. -/
theorem legalOrderExactlyNeverBadPhase : Obligations.LegalOrderExactlyNeverBadPhase := by
  intro is
  have hword : 0x4300000000000000#64 = refusedWord .badPhase := by decide
  rw [hword]
  induction is with
  | nil => exact fun s _ _ => ⟨s, [], rfl, by simp, rfl, by simp [LegalOrder]⟩
  | cons i is ih =>
    intro s hinv hwf
    have hwfi : i.WellFormed s.cfg = true := hwf i List.mem_cons_self
    have hd : decode s.cfg (encode i) = .ok i := by rw [decode_encode, if_pos hwfi]
    obtain ⟨t, r, hexec, hr, hcommand, hkept, hcfg, hfirst⟩ := hinv.command_answers hwfi
    obtain ⟨u, rs, hrest, hout, hlen, hiff⟩ := ih t.deliver hkept fun j hj => hcfg ▸ hwf j (List.mem_cons_of_mem i hj)
    refine ⟨u, r :: rs, by simp [commands, hcommand, hrest], by simp [hout, hfirst], by simp [hlen], ?_⟩
    have hbad := exec_badPhase_response_iff hexec hr
    cases ha : admits s.phase i with
    | false =>
      obtain rfl := hbad.mpr ha
      have hnone : orderAfter s.phase i = none := orderAfter_eq_none_iff.mpr ha
      simp [legalOrder_cons_iff, hnone]
    | true =>
      by_cases hk : respKind r = 3
      · have hplace : ∃ q, orderAfter s.phase i = some q := by
          rw [← Option.ne_none_iff_exists', Ne, orderAfter_eq_none_iff, ha]
          decide
        simpa [hk, legalOrder_cons_iff, LegalOrder] using hplace
      · have hne : r ≠ refusedWord .badPhase := by simp [hbad, ha]
        have hq := orderAfter_of_answered hd ha hexec hr hk
        rw [List.takeWhile_cons_of_pos (by simpa using hk), List.forall_mem_cons, List.length_cons, List.take_succ_cons,
          legalOrder_cons_iff, hq]
        simpa [hne] using hiff

end Sys2Proof.Machine
end

section
/-! The statements of 30_encoding.md about the words of commands, and those about what a single command does: the reads
and `CLEAR` of 42_system_commands.md, `PUSH_LEAF` of 40_builder_commands.md, the ends of a session of
41_decoder_commands.md, the writers of the node memory of 20_memory.md and the state a command depends on. -/

namespace Sys2Proof.Machine

open Sys2Proof.Claims

/-! ### Words (R84 to R87) -/

/-- Settles O2: `decode_encode`, whose check of the operands a well-formed command passes. -/
theorem decodeOfEncode : Obligations.DecodeOfEncode := by
  intro c i hwf
  rw [decode_encode, if_pos hwf]

theorem packWord_of_fields {w : Word} {op : BitVec 8} {a : BitVec 24} {b : BitVec 32} (hop : opField w = op)
    (ha : aField w = a) (hb : bField w = b) : packWord op a b = w := by
  rw [← hop, ← ha, ← hb, packWord_fields]

theorem decodeBare_eq_ok {i j : Instr} {w : Word} (h : decodeBare i w = .ok j) :
    aField w = 0 ∧ bField w = 0 ∧ j = i := by
  unfold decodeBare at h
  split at h
  · cases h
  · rename_i hzero
    cases h
    simpa [not_or] using hzero

theorem decodePushLeaf_eq_ok {c : Config} {w : Word} {i : Instr} (h : decodePushLeaf c w = .ok i) :
    symReserved w = 0 ∧ (symOperand w).toNat < c.symLimit ∧ (bField w).toNat < c.freqLimit ∧
      i = .pushLeaf (symOperand w) (bField w) := by
  unfold decodePushLeaf at h
  split at h
  · cases h
  · rename_i hchecks
    cases h
    simpa [not_or] using hchecks

theorem decodeDecBit_eq_ok {w : Word} {i : Instr} (h : decodeDecBit w = .ok i) :
    aField w = 0 ∧ bitReserved w = 0 ∧ i = .decBit (bitOperand w) := by
  unfold decodeDecBit at h
  split at h
  · cases h
  · rename_i hzero
    cases h
    simpa [not_or] using hzero

theorem decodeRdReg_eq_ok {w : Word} {i : Instr} (h : decodeRdReg w = .ok i) :
    aField w = 0 ∧ ∃ n, statusRegOf (bField w) = some n ∧ i = .rdReg n := by
  unfold decodeRdReg at h
  split at h
  · cases h
  · rename_i hzero
    split at h
    · rename_i n hn
      cases h
      exact ⟨by simpa using hzero, n, hn, rfl⟩
    · cases h

theorem decodeRdNode_eq_ok {w : Word} {i : Instr} (h : decodeRdNode w = .ok i) :
    aField w = 0 ∧ i = .rdNode (bField w) := by
  unfold decodeRdNode at h
  split at h
  · cases h
  · rename_i hzero
    cases h
    simpa using hzero

/-- The word of a command without operands is zero but for its opcode. -/
theorem encode_of_decodeBare {i j : Instr} {w : Word} (hj : encode j = packWord j.opcode 0 0)
    (hop : opField w = j.opcode) (h : decodeBare j w = .ok i) : encode i = w ∧ i = j := by
  obtain ⟨ha, hb, rfl⟩ := decodeBare_eq_ok h
  exact ⟨hj.trans (packWord_of_fields hop ha hb), rfl⟩

/-- Settles O3: what each row of the opcode table checks leaves no other word for its command, a word being its three
fields (`packWord_fields`). -/
theorem encodeOfDecode : Obligations.EncodeOfDecode := by
  intro c w i h
  have hop (k : Nat) (hk : (opField w).toNat = k) : opField w = BitVec.ofNat 8 k := by
    rw [← hk, BitVec.ofNat_toNat, BitVec.setWidth_eq]
  unfold decode at h
  split at h
  case h_1 hk =>
    obtain ⟨hw, rfl⟩ := encode_of_decodeBare (j := .clear) rfl (hop 1 hk) h
    exact ⟨hw, rfl⟩
  case h_3 hk =>
    obtain ⟨hw, rfl⟩ := encode_of_decodeBare (j := .build) rfl (hop 3 hk) h
    exact ⟨hw, rfl⟩
  case h_4 hk =>
    obtain ⟨hw, rfl⟩ := encode_of_decodeBare (j := .decStart) rfl (hop 4 hk) h
    exact ⟨hw, rfl⟩
  case h_6 hk =>
    obtain ⟨hw, rfl⟩ := encode_of_decodeBare (j := .decEnd) rfl (hop 6 hk) h
    exact ⟨hw, rfl⟩
  case h_2 hk =>
    obtain ⟨hzero, hsym, hfreq, rfl⟩ := decodePushLeaf_eq_ok h
    exact ⟨packWord_of_fields (hop 2 hk) (symOperand_setWidth w hzero).symm rfl,
      by simp [Instr.WellFormed, hsym, hfreq]⟩
  case h_5 hk =>
    obtain ⟨ha, hzero, rfl⟩ := decodeDecBit_eq_ok h
    exact ⟨packWord_of_fields (hop 5 hk) ha (bitOperand_eq w hzero).symm, rfl⟩
  case h_7 hk =>
    obtain ⟨ha, n, hn, rfl⟩ := decodeRdReg_eq_ok h
    exact ⟨packWord_of_fields (hop 7 hk) ha (number_of_statusRegOf hn).symm, rfl⟩
  case h_8 hk =>
    obtain ⟨ha, rfl⟩ := decodeRdNode_eq_ok h
    exact ⟨packWord_of_fields (hop 8 hk) ha rfl, rfl⟩
  case h_9 => cases h

/-- Settles O1: each word is the encoding of its command. -/
theorem commandWordsDecode : Obligations.CommandWordsDecode :=
  ⟨decode_encode _ .clear, decode_encode _ (.pushLeaf 0x61 4), decode_encode _ (.pushLeaf 0x62 255),
    decode_encode _ .build, decode_encode _ .decStart, decode_encode _ (.decBit false), decode_encode _ (.decBit true),
    decode_encode _ .decEnd, decode_encode _ (.rdReg .status), decode_encode _ (.rdNode 8)⟩

/-! ### Reads (R152, R153) -/

/-- Settles O11: the meaning of `RD_REG` is the response. -/
theorem readRegisterAnswers : Obligations.ReadRegisterAnswers := fun _ _ => rfl

theorem execRdNode_of_written {i : BitVec 32} {s : State} {r : NodeRec} (h : s.node[i.toNat]? = some r) :
    exec (.rdNode i) s = .next (s.respond (dataWord (recordLayout r))) := by
  simp only [exec, execRdNode, h]

theorem execRdNode_of_unwritten {i : BitVec 32} {s : State} (h : s.node.length ≤ i.toNat) :
    exec (.rdNode i) s = .next (s.refuse .unwritten) := by
  simp only [exec, execRdNode, List.getElem?_eq_none h]

/-- Settles O12: the entry is read as a record. -/
theorem readNodeAnswersRecord : Obligations.ReadNodeAnswersRecord := by
  intro i s h
  exact execRdNode_of_written (List.getElem?_eq_getElem h)

/-- Settles O13: such an entry holds no record; the bound is that of the node memory's form. -/
theorem readNodeUnwrittenRefused : Obligations.ReadNodeUnwrittenRefused := by
  refine ⟨fun i s h => ?_, fun s hinv => ?_, fun c => rfl⟩
  · rw [execRdNode_of_unwritten h, State.refuse_eq_afterRefusal]
    rfl
  · obtain ⟨_, ⟨⟨hcap, _⟩, _⟩, _⟩ := hinv
    exact hcap

/-! ### `CLEAR` and reset (R54, R151) -/

/-- With no response pending a step is what the host does next. -/
theorem step_of_idle {s : State} {e : HostEvent} {rest : List HostEvent} (hidle : s.channel = .idle)
    (hin : s.inbox = e :: rest) : step s = hostEvent e { s with inbox := rest } := by
  simp only [step, advance, hidle, hin]

/-- Settles O14: `CLEAR` and reset are `State.clearAll` with a response and without one. -/
theorem clearAndResetReachResetState : Obligations.ClearAndResetReachResetState := by
  refine ⟨fun s => rfl, fun s rest hidle hin => ?_, rfl⟩
  rw [step_of_idle hidle hin]
  rfl

/-! ### `PUSH_LEAF` (R111 to R113) -/

theorem hasSymbol_eq_true {m : Memory} {sym : Symbol} : hasSymbol m sym = true ↔ ∃ r ∈ m, r.sym? = some sym := by
  simp [hasSymbol]

theorem hasSymbol_of_new {m : Memory} {sym : Symbol} (h : ∀ r ∈ m, r.sym? ≠ some sym) : hasSymbol m sym = false := by
  rw [← Bool.not_eq_true, hasSymbol_eq_true]
  exact fun ⟨r, hr, hsym⟩ => h r hr hsym

section Collecting

variable {sym : Symbol} (freq : BitVec 32) {s : State} (hp : s.phase = .collect)
include hp

theorem execPushLeaf_of_known (h : hasSymbol s.node sym = true) :
    exec (.pushLeaf sym freq) s = .next (s.refuse .dupSymbol) := by
  simp [exec, execPushLeaf, hp, h]

theorem execPushLeaf_of_full (h : hasSymbol s.node sym = false) (hfull : s.nLeaves = s.cfg.maxLeaves) :
    exec (.pushLeaf sym freq) s = .next (s.refuse .capacity) := by
  simp [exec, execPushLeaf, hp, h, hfull]

theorem execPushLeaf_of_new (h : hasSymbol s.node sym = false) (hroom : s.nLeaves ≠ s.cfg.maxLeaves) :
    exec (.pushLeaf sym freq) s = .next ((s.insertLeaf sym freq.toNat).respond okWord) := by
  simp [exec, execPushLeaf, hp, h, hroom]

end Collecting

/-- Settles O15: the write of R113. -/
theorem pushLeafCompletes : Obligations.PushLeafCompletes := by
  intro sym freq s hp hnew hroom
  rw [execPushLeaf_of_new freq hp (hasSymbol_of_new hnew) hroom]
  rfl

/-- Settles O17: the three conditions in the order in which they are looked at. -/
theorem pushLeafRefusals : Obligations.PushLeafRefusals := by
  intro sym freq s
  refine ⟨fun hp => ?_, fun hp hknown => ?_, fun hp hnew hfull => ?_⟩
  · rw [exec_of_not_admitted (by simpa [admits] using hp), State.refuse_eq_afterRefusal]
    rfl
  · rw [execPushLeaf_of_known freq hp (hasSymbol_eq_true.mpr hknown), State.refuse_eq_afterRefusal]
    rfl
  · rw [execPushLeaf_of_full freq hp (hasSymbol_of_new hnew) hfull, State.refuse_eq_afterRefusal]
    rfl

/-- In `COLLECT` no record is a child, so `pq` holds every index (R30). -/
theorem State.Inv.pq_eq_range {s : State} (h : s.Inv) (hp : s.phase = .collect) : s.pq = List.range s.nLeaves := by
  obtain ⟨hv, _, hlen, hpq, _⟩ := h.collect hp
  obtain ⟨_, ⟨_, hwf, _, _, _, hperm, _⟩, _⟩ := h
  rw [State.forestRoots_of_unrooted hv, hlen] at hperm
  have hchildren : childIndices s.node = [] := by
    have := hperm.length_eq
    rw [List.length_append, List.length_range] at this
    exact List.length_eq_zero_iff.mp (by omega)
  rw [hchildren, List.nil_append] at hperm
  exact hperm.eq_of_pairwise (fun a b _ _ hab hba => absurd hab (Nat.lt_asymm hba)) hwf List.pairwise_lt_range

/-- Settles O16: `pq` is the rising list of all indices (`State.Inv.pq_eq_range`), and the new leaf's is next. -/
theorem pushLeafIndexIsPushCount : Obligations.PushLeafIndexIsPushCount := by
  intro s h hp
  have hpq := h.pq_eq_range hp
  refine ⟨hpq, fun sym freq hnew hroom => ?_⟩
  obtain ⟨_, _, hlen, _⟩ := h.collect hp
  refine ⟨_, execPushLeaf_of_new freq hp (hasSymbol_eq_false.mpr hnew) (by omega), ?_, ?_, ?_, fun k hk => ?_⟩
  · simp [← hlen]
  · simp [hlen]
  · rw [State.respond_pq, State.insertLeaf_pq, pqInsert_of_lt _ _ (by simp [hpq, hlen]), hpq, hlen, List.range_succ]
  · simp [List.getElem?_append_left (show k < s.node.length by omega)]

/-! ### Sessions (R132, R137) -/

/-- Settles O29: `execDecStart_of_built`. -/
theorem decStartOpensSession : Obligations.DecStartOpensSession := fun _ hp => execDecStart_of_built hp

/-- Settles O33: `execDecEnd_at_root`. -/
theorem decEndClosesSession : Obligations.DecEndClosesSession := fun _ hp hc => execDecEnd_at_root hp hc

/-! ### The writers of the node memory (R62, R63) -/

theorem mergeLoop_result_prefix {n : Nat} {s u : State}
    (h : mergeLoop n s = .ok (.complete u) ∨ mergeLoop n s = .ok (.overflow u)) : s.node <+: u.node := by
  rcases h with h | h
  all_goals
    obtain ⟨v, hv, _, hgrown⟩ := mergeLoop_frame h
    obtain rfl : u = v := by simpa using hv
    exact hgrown

/-- Settles O44: of the effects of a command word only a leaf pushed and a merge loop write records. -/
theorem nodeMemoryWriters : Obligations.NodeMemoryWriters := by
  intro w s t h hd
  cases runWord_effect h with
  | refused cause => simp
  | cleared hclear => exact absurd hclear hd
  | pushed sym freq hpush hp => exact ⟨List.prefix_append _ _, fun _ => ⟨hp, .inl ⟨sym, freq, hpush, rfl⟩⟩⟩
  | buildOverflow u hbuild hp _ hm => exact ⟨mergeLoop_result_prefix (u := u) (.inr hm), fun _ => ⟨hp, .inr hbuild⟩⟩
  | built u r hbuild hp _ hm => exact ⟨mergeLoop_result_prefix (u := u) (.inl hm), fun _ => ⟨hp, .inr hbuild⟩⟩
  | _ => exact ⟨List.prefix_rfl, fun hne => absurd rfl hne⟩

/-! ### What the effect of a command depends on (R12, R20) -/

/-- The same block with another response channel and another host. -/
def State.atPort (ch : Channel) (ib : List HostEvent) (ob : List Word) (s : State) : State :=
  { s with channel := ch, inbox := ib, outbox := ob }

@[simp] theorem State.atPort_cfg (ch : Channel) (ib : List HostEvent) (ob : List Word) (s : State) :
    (s.atPort ch ib ob).cfg = s.cfg := rfl
@[simp] theorem State.atPort_phase (ch : Channel) (ib : List HostEvent) (ob : List Word) (s : State) :
    (s.atPort ch ib ob).phase = s.phase := rfl
@[simp] theorem State.atPort_node (ch : Channel) (ib : List HostEvent) (ob : List Word) (s : State) :
    (s.atPort ch ib ob).node = s.node := rfl
@[simp] theorem State.atPort_nLeaves (ch : Channel) (ib : List HostEvent) (ob : List Word) (s : State) :
    (s.atPort ch ib ob).nLeaves = s.nLeaves := rfl
@[simp] theorem State.atPort_pq (ch : Channel) (ib : List HostEvent) (ob : List Word) (s : State) :
    (s.atPort ch ib ob).pq = s.pq := rfl
@[simp] theorem State.atPort_root (ch : Channel) (ib : List HostEvent) (ob : List Word) (s : State) :
    (s.atPort ch ib ob).root = s.root := rfl
@[simp] theorem State.atPort_cur (ch : Channel) (ib : List HostEvent) (ob : List Word) (s : State) :
    (s.atPort ch ib ob).cur = s.cur := rfl
@[simp] theorem State.atPort_cursor (ch : Channel) (ib : List HostEvent) (ob : List Word) (s : State) :
    (s.atPort ch ib ob).cursor = s.cursor := rfl

/-- How a pass of the merge loop ends, the state changed. -/
def MergeResult.mapState (g : State → State) : MergeResult → MergeResult
  | .finished => .finished
  | .merged s => .merged (g s)
  | .overflow => .overflow

/-- How the merge loop ends, the state changed. -/
def BuildResult.mapState (g : State → State) : BuildResult → BuildResult
  | .complete s => .complete (g s)
  | .overflow s => .overflow (g s)

/-- The outcome of a command before another host. -/
def rehost (ib : List HostEvent) (ob : List Word) : Host.Outcome State Fault Refusal → Host.Outcome State Fault Refusal
  | .next t => .next { t with inbox := ib, outbox := ob }
  | .fault e => .fault e
  | .refused r => .refused r

section AtPort

variable (ch : Channel) (ib : List HostEvent) (ob : List Word)

theorem mergeStep_atPort (s : State) :
    mergeStep (s.atPort ch ib ob) = (mergeStep s).map (MergeResult.mapState (State.atPort ch ib ob)) := by
  show mergeStep { s with channel := ch, inbox := ib, outbox := ob } = _
  simp only [mergeStep]
  split
  · rfl
  · rfl
  · split
    · rfl
    · rfl
    · split <;> rfl

theorem mergeLoop_atPort (n : Nat) (s : State) :
    mergeLoop n (s.atPort ch ib ob) = (mergeLoop n s).map (BuildResult.mapState (State.atPort ch ib ob)) := by
  induction n generalizing s with
  | zero => rfl
  | succ n ih =>
    rw [mergeLoop, mergeLoop, mergeStep_atPort]
    cases mergeStep s with
    | error e => rfl
    | ok result =>
      cases result with
      | finished => rfl
      | overflow => rfl
      | merged t => exact ih t

theorem refuse_atPort (cause : Cause) (s : State) :
    (s.atPort ch ib ob).refuse cause = { s.refuse cause with inbox := ib, outbox := ob } := by
  rw [State.refuse_eq_afterRefusal, State.refuse_eq_afterRefusal]
  rfl

theorem execPushLeaf_atPort (sym : Symbol) (freq : BitVec 32) (s : State) :
    execPushLeaf sym freq (s.atPort ch ib ob) = rehost ib ob (execPushLeaf sym freq s) := by
  simp only [execPushLeaf, refuse_atPort, State.atPort_phase, State.atPort_node, State.atPort_nLeaves,
    State.atPort_cfg]
  split
  · rfl
  · split
    · rfl
    · split <;> rfl

theorem execBuild_atPort (s : State) : execBuild (s.atPort ch ib ob) = rehost ib ob (execBuild s) := by
  simp only [execBuild, refuse_atPort, mergeLoop_atPort, State.atPort_phase, State.atPort_pq]
  split
  · rfl
  · split
    · rfl
    · cases mergeLoop s.pq.length s with
      | error e => rfl
      | ok result => cases result <;> rfl

theorem execDecStart_atPort (s : State) : execDecStart (s.atPort ch ib ob) = rehost ib ob (execDecStart s) := by
  simp only [execDecStart, refuse_atPort, State.atPort_phase]
  split <;> rfl

theorem walkBit_atPort (b : Bool) (s : State) : walkBit b (s.atPort ch ib ob) = rehost ib ob (walkBit b s) := by
  simp only [walkBit, State.atPort_node, State.atPort_cur]
  split
  · rfl
  · split <;> rfl

theorem execDecBit_atPort (b : Bool) (s : State) :
    execDecBit b (s.atPort ch ib ob) = rehost ib ob (execDecBit b s) := by
  simp only [execDecBit, refuse_atPort, walkBit_atPort, State.atPort_phase, State.atPort_cursor, State.atPort_cfg,
    State.atPort_node, State.atPort_root]
  split
  · rfl
  · split
    · rfl
    · split <;> rfl

theorem execDecEnd_atPort (s : State) : execDecEnd (s.atPort ch ib ob) = rehost ib ob (execDecEnd s) := by
  rw [execDecEnd, execDecEnd, refuse_atPort, apply_ite (rehost ib ob), apply_ite (rehost ib ob)]
  rfl

theorem execRdNode_atPort (k : BitVec 32) (s : State) :
    execRdNode k (s.atPort ch ib ob) = rehost ib ob (execRdNode k s) := by
  simp only [execRdNode, refuse_atPort, State.atPort_node]
  split <;> rfl

theorem exec_atPort (i : Instr) (s : State) : exec i (s.atPort ch ib ob) = rehost ib ob (exec i s) := by
  cases i with
  | clear => rfl
  | pushLeaf sym freq => exact execPushLeaf_atPort ch ib ob sym freq s
  | build => exact execBuild_atPort ch ib ob s
  | decStart => exact execDecStart_atPort ch ib ob s
  | decBit b => exact execDecBit_atPort ch ib ob b s
  | decEnd => exact execDecEnd_atPort ch ib ob s
  | rdReg n => cases n <;> rfl
  | rdNode k => exact execRdNode_atPort ch ib ob k s

end AtPort

/-- Settles O50: `exec_atPort`, the state being the same block at another port. -/
theorem effectDependsOnArchitecturalState : Obligations.EffectDependsOnArchitecturalState :=
  fun i s ch ib ob => exec_atPort ch ib ob i s

end Sys2Proof.Machine
end

section
/-! The statements about the whole machine and its ports: the invariant of 10_state.md and the step, the one response of
each command of 30_encoding.md, and the clock edges, which refine whole commands. -/

namespace Sys2Proof.Machine

/-! ### The invariant at reset (R55) -/

/-- Settles O47: `State.resetIn_inv`. -/
theorem resetMeetsInvariant : Obligations.ResetMeetsInvariant :=
  ⟨fun _ h => State.resetIn_inv h, State.resetIn_inv (c := Config.reference) (by decide)⟩

/-! ### One step -/

/-- Settles O46: with no response pending the step is the whole command, and its word decodes. -/
theorem stepRunsDecodedCommand : Obligations.StepRunsDecodedCommand := by
  refine ⟨fun w rest i s hidle hin hd => ?_, fun nbits w i s hd => ?_⟩
  · rw [step_of_idle hidle hin, ← runWord_of_ok (s := { s with inbox := rest }) hd]
    rfl
  · rw [step_of_idle (s := s.withFetchWord nbits w) rfl rfl, ← runWord_of_ok (s := { s with channel := .idle }) hd]
    rfl

theorem step_of_pending {s : State} {r : Word} (h : s.channel = .offered r ∨ s.channel = .executing r) :
    step s = .next { s with channel := .idle, outbox := s.outbox ++ [r] } := by
  rcases h with h | h <;> simp only [step, advance, State.deliver, h]

theorem step_of_nothing {s : State} (hidle : s.channel = .idle) (hin : s.inbox = []) : step s = .next s := by
  simp only [step, advance, hidle, hin]

/-- What the host will do is no part of the invariant. -/
theorem State.Inv.withInbox {s : State} (h : s.Inv) (rest : List HostEvent) : State.Inv { s with inbox := rest } := by
  have ⟨_, _, ⟨_, hrefusal⟩, _⟩ := h
  exact h.congr rfl hrefusal

theorem State.Inv.assertReset {s : State} (h : s.Inv) : s.assertReset.Inv :=
  h.clearAll.congr rfl (by simp)

/-- Every word that a state meeting the invariant is given answers, and the invariant is kept (R55): what decodes is
well-formed. -/
theorem State.Inv.runWord_answers {s : State} (h : s.Inv) (w : Word) : ∃ t, runWord w s = .next t ∧ t.Inv := by
  cases hd : decode s.cfg w with
  | error cause => exact ⟨_, by rw [runWord, hd], h.refuse cause⟩
  | ok i =>
    obtain ⟨_, hwf⟩ := encodeOfDecode s.cfg w i hd
    obtain ⟨t, hexec, hkept⟩ := h.exec_answers hwf
    exact ⟨t, (runWord_of_ok hd).trans hexec, hkept⟩

theorem State.Inv.hostEvent_answers {s : State} (h : s.Inv) (e : HostEvent) : ∃ t, hostEvent e s = .next t ∧ t.Inv := by
  cases e with
  | command w =>
    obtain ⟨t, hrun, hkept⟩ := h.runWord_answers w
    exact ⟨t.deliver, by rw [hostEvent, command, hrun], hkept.deliver⟩
  | reset => exact ⟨_, rfl, h.assertReset⟩

theorem State.Inv.step_answers {s : State} (h : s.Inv) : ∃ t, step s = .next t ∧ t.Inv := by
  cases hchan : s.channel with
  | executing r => exact ⟨s.deliver, by simp only [step, advance, hchan], h.deliver⟩
  | offered r => exact ⟨s.deliver, by simp only [step, advance, hchan], h.deliver⟩
  | idle =>
    cases hin : s.inbox with
    | nil => exact ⟨s, step_of_nothing hchan hin, h⟩
    | cons e rest =>
      rw [step_of_idle hchan hin]
      exact (h.withInbox rest).hostEvent_answers e

/-- Settles O48: the one next state of a step is the one that `State.Inv.step_answers` gives. -/
theorem stepKeepsInvariant : Obligations.StepKeepsInvariant := by
  intro s t h hstep
  obtain ⟨u, hu, hkept⟩ := h.step_answers
  cases hstep.symm.trans hu
  exact hkept

/-! ### One response for each command (R90) -/

/-- A response on offer after a command word is of one of the five kinds (R92). -/
theorem runWord_kind_le {w : Word} {s t : State} {r : Word} (h : runWord w s = .next t) (hr : t.channel = .offered r) :
    (respKind r).toNat ≤ 4 := by
  cases runWord_effect h <;> obtain rfl := Channel.offered.inj hr <;> simp

/-- Settles O49: a word is answered (`State.Inv.runWord_answers`) with its response on offer, which the step transfers. -/
theorem everyCommandAnswersOnce : Obligations.EveryCommandAnswersOnce := by
  refine ⟨fun s r => step_of_pending, fun s h hidle => ⟨fun w rest hin => ?_, fun rest hin => ?_,
    step_of_nothing hidle⟩⟩
  · obtain ⟨t, hrun, _⟩ := (h.withInbox rest).runWord_answers w
    obtain ⟨r, hr⟩ := runWord_offers hrun
    obtain ⟨_, hinbox, houtbox⟩ := runWord_frame hrun
    refine ⟨t.deliver, r, ?_, ?_, t.deliver_channel, t.deliver_inbox.trans hinbox, runWord_kind_le hrun hr,
      fun cause hd => ?_⟩
    · rw [step_of_idle hidle hin, hostEvent, command, hrun]
    · rw [State.deliver_offered hr, houtbox]
    · rw [runWord_of_error (s := { s with inbox := rest }) hd] at hrun
      cases hrun
      obtain rfl := Channel.offered.inj hr
      exact respKind_refusedWord cause
  · exact ⟨_, step_of_idle hidle hin, rfl, rfl, rfl⟩

/-! ### Clock edges (R81, R82) -/

section Edge

variable {p : Pins} (hrst : p.rst = false) {s : State}
include hrst

theorem edge_of_executing {r : Word} (h : s.channel = .executing r) :
    edge p s = .next (if p.done then s.offer else s) := by
  simp [edge, hrst, h]

theorem edge_of_offered {r : Word} (h : s.channel = .offered r) :
    edge p s = .next (if p.rspReady then s.deliver else s) := by
  simp [edge, hrst, h]

theorem edge_of_no_command (h : s.channel = .idle) (hv : p.cmdValid = false) : edge p s = .next s := by
  simp [edge, hrst, h, hv]

/-- An edge that accepts a word runs it; its response is offered or withheld. -/
theorem edge_accepts {t : State} (h : s.channel = .idle) (hv : p.cmdValid = true) (ht : edge p s = .next t) :
    ∃ u, runWord p.cmd s = .next u ∧ t = if p.done then u else u.withhold := by
  simp only [edge, hrst, h, hv, Bool.false_eq_true, if_false, if_true, acceptEdge] at ht
  split at ht
  · rename_i u hu
    cases ht
    exact ⟨u, hu, rfl⟩
  · cases ht
  · cases ht

end Edge

theorem cmdReady_iff {s : State} : s.cmdReady false = true ↔ s.channel = .idle := by simp [State.cmdReady]

theorem acceptedWords_cons {p : Pins} {s t : State} (h : edge p s = .next t) (ps : List Pins) :
    acceptedWords (p :: ps) s =
      if s.cmdReady p.rst && p.cmdValid then p.cmd :: acceptedWords ps t else acceptedWords ps t := by
  simp only [acceptedWords, h]

theorem State.offer_of_executing {s : State} {r : Word} (h : s.channel = .executing r) :
    s.offer = { s with channel := .offered r } := by
  simp only [State.offer, h]

theorem State.withhold_channel_of_offered {s : State} {r : Word} (h : s.channel = .offered r) :
    s.withhold.channel = .executing r := by
  simp only [State.withhold, h]

theorem rspOut_of_executing {s : State} {r : Word} (h : s.channel = .executing r) : s.rspOut false = none := by
  simp only [State.rspOut, h]

theorem rspOut_of_offered {s : State} {r : Word} (h : s.channel = .offered r) : s.rspOut false = some r := by
  simp only [State.rspOut, h]

/-- Settles O51, by the state of the response channel, which with the pins says what the edge does. -/
theorem portOneCommandInFlight : Obligations.PortOneCommandInFlight := by
  intro p s t hrst h
  have haccepted : acceptedWords [p] s = if s.cmdReady p.rst && p.cmdValid then [p.cmd] else [] :=
    acceptedWords_cons h []
  rw [hrst] at haccepted
  cases hready : s.cmdReady false with
  | true =>
    have hidle := cmdReady_iff.mp hready
    refine ⟨nofun, fun _ hv => ?_, fun _ hv => ?_⟩
    · obtain ⟨u, hu, rfl⟩ := edge_accepts hrst hidle hv h
      obtain ⟨r, hr⟩ := runWord_offers hu
      obtain ⟨_, _, houtbox⟩ := runWord_frame hu
      refine ⟨?_, ?_, by simpa [hready, hv] using haccepted⟩
      · split
        · simp [State.cmdReady, hr]
        · simp [State.cmdReady, State.withhold_channel_of_offered hr]
      · split
        · exact houtbox
        · rw [State.withhold_outbox, houtbox]
    · cases (edge_of_no_command hrst hidle hv).symm.trans h
      rfl
  | false =>
    have hnone : acceptedWords [p] s = [] := by simpa [hready] using haccepted
    refine ⟨fun _ => ?_, nofun, nofun⟩
    cases hchan : s.channel with
    | idle => exact absurd (cmdReady_iff.mpr hchan) (by simp [hready])
    | executing r =>
      have hout := rspOut_of_executing hchan
      have hedge := edge_of_executing hrst hchan
      rw [State.offer_of_executing hchan] at hedge
      cases hedge.symm.trans h
      refine ⟨?_, hnone, ?_, ?_, by simp [hout], by simp [hout]⟩
      · split <;> rfl
      · split <;> simp [hout, State.cmdReady, hchan]
      · rintro r' ⟨⟩
        split
        · exact ⟨rfl, rfl⟩
        · exact ⟨rfl, hchan⟩
    | offered r =>
      have hout := rspOut_of_offered hchan
      have hedge := edge_of_offered hrst hchan
      rw [State.deliver_offered hchan] at hedge
      cases hedge.symm.trans h
      refine ⟨?_, hnone, ?_, nofun, fun r' hr' hwait => ?_, fun r' hr' htaken => ?_⟩
      · split <;> rfl
      · cases hr : p.rspReady <;> simp [hout, State.cmdReady, hchan]
      · simp [hwait, hr']
      · obtain rfl : r = r' := Option.some.inj (hout.symm.trans hr')
        simp [htaken]

/-- An edge without reset that accepts no word leaves the state that the pending response leads to. -/
theorem edge_deliver {p : Pins} (hrst : p.rst = false) {s t : State}
    (hno : (s.cmdReady false && p.cmdValid) = false) (h : edge p s = .next t) : t.deliver = s.deliver := by
  cases hchan : s.channel with
  | idle =>
    have hv : p.cmdValid = false := by simpa [cmdReady_iff.mpr hchan] using hno
    cases (edge_of_no_command hrst hchan hv).symm.trans h
    rfl
  | executing r =>
    cases (edge_of_executing hrst hchan).symm.trans h
    split
    · exact s.deliver_offer
    · rfl
  | offered r =>
    cases (edge_of_offered hrst hchan).symm.trans h
    split
    · exact s.deliver_deliver
    · rfl

/-- An edge that accepts a word does what the whole command does, once its response is transferred. -/
theorem edge_command {p : Pins} (hrst : p.rst = false) {s t : State} (hidle : s.channel = .idle)
    (hv : p.cmdValid = true) (h : edge p s = .next t) : command p.cmd s = .next t.deliver := by
  obtain ⟨u, hu, rfl⟩ := edge_accepts hrst hidle hv h
  rw [command, hu, apply_ite State.deliver, State.deliver_withhold, ite_self]

/-- From any state of the channel, the words accepted from here on, run as whole commands once the response pending is
transferred, lead where the edges lead. -/
theorem commands_acceptedWords {ps : List Pins} (hrst : ∀ p ∈ ps, p.rst = false) {s t : State}
    (h : edges ps s = .next t) : commands (acceptedWords ps s) s.deliver = .next t.deliver := by
  induction ps generalizing s with
  | nil =>
    cases h
    rfl
  | cons p ps ih =>
    obtain ⟨hp, hps⟩ := List.forall_mem_cons.mp hrst
    rw [edges] at h
    split at h
    · rename_i u hu
      have hrest := ih hps h
      rw [acceptedWords_cons hu, hp]
      split
      · rename_i haccept
        obtain ⟨hready, hv⟩ := Bool.and_eq_true_iff.mp haccept
        have hidle := cmdReady_iff.mp hready
        rw [State.deliver_of_idle s hidle, commands, edge_command hp hidle hv hu]
        exact hrest
      · rename_i hno
        rw [← edge_deliver hp (by simpa using hno) hu]
        exact hrest
    · cases h
    · cases h

/-- Settles O53: no response is pending at the start (`commands_acceptedWords`). -/
theorem portRefinesCommands : Obligations.PortRefinesCommands := by
  intro ps s t hrst hidle h
  have hwords := commands_acceptedWords hrst h
  rwa [State.deliver_of_idle s hidle] at hwords

end Sys2Proof.Machine
end

section
/-! The statements about any bits in a session of 41_decoder_commands.md, and those of 42_system_commands.md and
43_reference_functions.md about reading a tree out and about the round trip: in a state that meets the invariant each
command that the host issues for it answers without failure. -/

namespace Sys2Proof.Machine

/-! ### Any sequence of bits (R139, R143) -/

/-- The responses that a digit has on a tree: `OK`, or the symbol of one of its leaves (R139). -/
def DigitAnswer (m : Memory) (r : Word) : Prop := r = okWord ∨ ∃ sym ∈ leafSymbols m, r = emitWord sym

theorem mem_leafSymbols {m : Memory} {i f : Nat} {sym : Symbol} (h : m[i]? = some (.leaf sym f)) :
    sym ∈ leafSymbols m :=
  List.mem_filterMap.mpr ⟨_, List.mem_of_getElem? h, rfl⟩

theorem DigitAnswer.no_failure {m : Memory} {r : Word} (h : DigitAnswer m r) : failureOf r = none := by
  rcases h with rfl | ⟨sym, _, rfl⟩
  · exact failureOf_okWord
  · exact failureOf_emitWord sym

theorem deliver_of_emit (s : State) (i : Nat) (sym : Symbol) :
    State.deliver { s with
      cursor := s.cursor + 1, emitCnt := s.emitCnt + 1, cur := i, channel := .offered (emitWord sym) } =
      s.decoded i 1 [emitWord sym] := by
  simp [State.deliver, State.decoded, emitted_emitWord]

theorem deliver_of_move (s : State) (i : Nat) :
    State.deliver { s with cursor := s.cursor + 1, cur := i, channel := .offered okWord } =
      s.decoded i 1 [okWord] := by
  simp [State.deliver, State.decoded, emitted_okWord]

/-- A digit that is not refused, as one digit of a run. -/
theorem execDecBit_decoded {b : Bool} {s t : State} (hp : s.phase = .decoding) (hc : s.cursor ≠ s.cfg.cntMax)
    (h : exec (.decBit b) s = .next t) :
    ∃ i r, t.channel = .offered r ∧ t.deliver = s.decoded i 1 [r] ∧ DigitAnswer s.node r := by
  rcases execDecBit_cases h with ⟨hn, _⟩ | ⟨_, hlimit, _⟩ | ⟨_, _, hdigit⟩
  · exact absurd hp hn
  · exact absurd hlimit hc
  · rcases hdigit with ⟨sym, f, hleaf, rfl⟩ | ⟨_, _, _, f, l, r, _, _, ⟨sym, g, hleaf, rfl⟩ | ⟨g, l', r', _, rfl⟩⟩
    · exact ⟨s.cur, _, rfl, deliver_of_emit s _ sym, .inr ⟨sym, mem_leafSymbols hleaf, rfl⟩⟩
    · exact ⟨s.root, _, rfl, deliver_of_emit s _ sym, .inr ⟨sym, mem_leafSymbols hleaf, rfl⟩⟩
    · exact ⟨_, _, rfl, deliver_of_move s _, .inl rfl⟩

/-- A digit below the counter limit is answered, and the invariant is kept. -/
theorem State.Inv.decodes_digit {s : State} (h : s.Inv) (ho : s.Open) (hc : s.cursor ≠ s.cfg.cntMax) (b : Bool) :
    ∃ i r, Decodes [b] s i [r] ∧ DigitAnswer s.node r ∧ (s.decoded i 1 [r]).Inv := by
  obtain ⟨t, hexec, hkept⟩ := h.decBit_answers ho.phase b
  obtain ⟨i, r, hr, hdelivered, hanswer⟩ := execDecBit_decoded ho.phase hc hexec
  refine ⟨i, r, .of_exec hexec hr hanswer.no_failure ?_, hanswer, hdelivered ▸ hkept.deliver⟩
  rw [← State.deliver_offered hr, hdelivered]

/-- So are any digits within the counter limit, one answer for each. -/
theorem State.Inv.decodes_bits {bits : List Bool} {s : State} (h : s.Inv) (ho : s.Open)
    (hc : s.cursor + bits.length ≤ s.cfg.cntMax) :
    ∃ i rs, Decodes bits s i rs ∧ rs.length = bits.length ∧ (∀ r ∈ rs, DigitAnswer s.node r) ∧
      (s.decoded i bits.length rs).Inv := by
  induction bits generalizing s with
  | nil => exact ⟨s.cur, [], .nil ho.idle, rfl, by simp, by rwa [List.length_nil, State.decoded_nothing ho.idle]⟩
  | cons b bits ih =>
    rw [List.length_cons] at hc
    obtain ⟨i, r, hdigit, hanswer, hkept⟩ := h.decodes_digit ho (by omega) b
    obtain ⟨j, rs, hrest, hlen, hanswers, hend⟩ := ih hkept (ho.decoded i 1 [r]) (by simp; omega)
    refine ⟨j, r :: rs, hdigit.append hrest, by rw [List.length_cons, List.length_cons, hlen],
      List.forall_mem_cons.mpr ⟨hanswer, hanswers⟩, ?_⟩
    rwa [State.decoded_decoded, Nat.add_comm] at hend

/-- Settles O36: `State.Inv.decodes_bits`; the invariant says that the position is a written index. -/
theorem anyBitsDecode : Obligations.AnyBitsDecode := by
  intro bits s h hp hidle hc
  obtain ⟨i, rs, hruns, hlen, hanswers, hend⟩ := h.decodes_bits ⟨hp, hidle⟩ hc
  have hwritten : i < s.node.length := by
    obtain ⟨_, _, hcur, _⟩ := hend.rooted (h.root_valid (.inr hp))
    exact hcur
  refine ⟨rs, i, ?_, hlen, hwritten, fun r hr => ?_⟩
  · rw [hruns.runs, State.decoded, ← hidle]
  · rw [← okWord_eq]
    exact hanswers r hr

/-! ### Reading a tree out (R154) -/

/-- The state after responses that changed nothing else. -/
def State.answered (rs : List Word) (s : State) : State := { s with channel := .idle, outbox := s.outbox ++ rs }

theorem State.answered_nothing {s : State} (h : s.channel = .idle) : s.answered [] = s := by
  simp [State.answered, ← h]

theorem State.answered_answered (s : State) (rs rs' : List Word) :
    (s.answered rs).answered rs' = s.answered (rs ++ rs') := by
  simp [State.answered]

@[simp] theorem State.answered_node (s : State) (rs : List Word) : (s.answered rs).node = s.node := rfl

@[simp] theorem State.answered_csr (s : State) (rs : List Word) (n : StatusReg) :
    (s.answered rs).csr n = s.csr n := by
  cases n <;> rfl

theorem State.Inv.answered {s : State} (h : s.Inv) (rs : List Word) : (s.answered rs).Inv := by
  have ⟨_, _, ⟨_, hrefusal⟩, _⟩ := h
  exact h.congr rfl hrefusal

theorem failureOf_dataWord (p : Payload) : failureOf (dataWord p) = none := by simp [failureOf]

theorem issue_rdReg (n : StatusReg) (s : State) :
    issue (.rdReg n) s = .ok (dataWord (s.csr n), s.answered [dataWord (s.csr n)]) :=
  issue_ok (command_of_exec (t := s.respond (dataWord (s.csr n))) (decode_encode s.cfg (.rdReg n)) rfl rfl) rfl
    (failureOf_dataWord _)

theorem issue_rdNode {i : BitVec 32} {s : State} {r : NodeRec} (h : s.node[i.toNat]? = some r) :
    issue (.rdNode i) s = .ok (dataWord (recordLayout r), s.answered [dataWord (recordLayout r)]) :=
  issue_ok (command_of_exec (t := s.respond (dataWord (recordLayout r))) (decode_encode s.cfg (.rdNode i))
    (execRdNode_of_written h) rfl) rfl (failureOf_dataWord _)

/-- Reads of written entries are answered with the layouts of their records. -/
theorem issueAll_rdNodes {entries : List (NodeRec × Nat)} {s : State} (hidle : s.channel = .idle)
    (hlen : s.node.length < 2 ^ 32) (h : ∀ e ∈ entries, s.node[e.2]? = some e.1) :
    issueAll (entries.map fun e => .rdNode (BitVec.ofNat 32 e.2)) s =
      .ok (entries.map fun e => dataWord (recordLayout e.1),
        s.answered (entries.map fun e => dataWord (recordLayout e.1))) := by
  induction entries generalizing s with
  | nil => simp [issueAll, State.answered_nothing hidle]
  | cons e entries ih =>
    obtain ⟨he, hrest⟩ := List.forall_mem_cons.mp h
    have hlt := (List.getElem?_eq_some_iff.mp he).1
    have hread : s.node[(BitVec.ofNat 32 e.2).toNat]? = some e.1 := by
      rw [toNat_ofNat_of_lt (by omega)]
      exact he
    have hreads := ih (s := s.answered [dataWord (recordLayout e.1)]) rfl hlen hrest
    simp only [List.map_cons, issueAll, issue_rdNode hread, hreads, State.answered_answered, List.singleton_append]

/-- The reads of all records are answered with their layouts, in order. -/
theorem issueAll_readNodes {s : State} (hidle : s.channel = .idle) (hlen : s.node.length < 2 ^ 32) :
    issueAll (readNodes s.node.length) s =
      .ok (s.node.map fun r => dataWord (recordLayout r), s.answered (s.node.map fun r => dataWord (recordLayout r))) := by
  have hcommands : readNodes s.node.length = s.node.zipIdx.map fun e => .rdNode (BitVec.ofNat 32 e.2) := by
    rw [readNodes, List.range_eq_range', ← List.zipIdx_map_snd 0 s.node, List.map_map]
    rfl
  have hrecords : (s.node.zipIdx.map fun e => dataWord (recordLayout e.1)) =
      s.node.map fun r => dataWord (recordLayout r) := by
    conv_rhs => rw [← List.zipIdx_map_fst 0 s.node, List.map_map]
    rfl
  rw [hcommands, ← hrecords]
  exact issueAll_rdNodes hidle hlen fun e he => List.mem_zipIdx_iff_getElem?.mp he

/-- Every field of a record of a well-formed memory fits its place, so the host reads the record back. -/
theorem State.Inv.recordOfLayout_eq {s : State} (h : s.Inv) {r : NodeRec} (hr : r ∈ s.node) :
    recordOfLayout (recordLayout r) = r := by
  have hlen := h.length_le
  obtain ⟨⟨_, ⟨_, hwidth⟩, _⟩, ⟨hmem, _⟩, _⟩ := h
  have hlimit : s.cfg.freqLimit ≤ 2 ^ 32 := Nat.pow_le_pow_right (by decide) hwidth
  obtain ⟨i, hi⟩ := List.mem_iff_getElem?.mp hr
  obtain ⟨hlt, hget⟩ := List.getElem?_eq_some_iff.mp hi
  cases r with
  | leaf sym f =>
    obtain ⟨_, hrecords⟩ := hmem
    have hwf := hrecords i hlt
    rw [hget, recordWf, Bool.and_eq_true, decide_eq_true_eq, decide_eq_true_eq] at hwf
    exact recordOfLayout_leaf sym (by omega)
  | internal f left right =>
    obtain ⟨hfreq, hleft, hright, _⟩ := Memory.wf_internal hmem hi
    exact recordOfLayout_internal (by omega) (by omega) (by omega)

/-- The low bits of `STATUS` are the phase and, above it, whether the root is valid (R46). -/
theorem statusReg_low (s : State) :
    (statusReg s).extractLsb' 0 4 = BitVec.ofBool s.rootValid ++ s.phase.code := by
  obtain ⟨hphase, hroot, _⟩ := statusReg_extract s
  rw [← hphase, ← hroot]
  exact (BitVec.extractLsb'_append_extractLsb'_eq_extractLsb' (start₁ := 0) (len₁ := 3) rfl).symm

/-- What the read-out of a finished tree is answered. -/
def readOutAnswers (s : State) : List Word :=
  [dataWord (s.csr .status), dataWord (s.csr .nNodes), dataWord (s.csr .root)] ++
    s.node.map fun r => dataWord (recordLayout r)

/-- In `BUILT` the read-out succeeds, and changes nothing but to be answered. -/
theorem State.Inv.readOut_eq {s : State} (h : s.Inv) (hp : s.phase = .built) :
    readOut s = .ok (⟨s.node, s.root⟩, s.answered (readOutAnswers s)) := by
  have hstatus : (s.csr .status).extractLsb' 0 4 = 0b1001 := by
    rw [State.csr, statusReg_low, h.root_valid (.inl hp), hp]
    decide
  obtain ⟨hindices, _⟩ := indexRegisters
  obtain ⟨hcount, _, _, hroot, _⟩ := hindices s h
  have hlen : s.node.length < 2 ^ 32 := Nat.lt_of_le_of_lt h.length_le (by decide)
  have hreads (rs : List Word) := issueAll_readNodes (s := s.answered rs) rfl hlen
  have hrecords : (s.node.map fun r => dataWord (recordLayout r)).map (fun w => recordOfLayout (respPayload w)) =
      s.node := by
    rw [List.map_map]
    refine (List.map_congr_left fun r hr => ?_).trans (List.map_id _)
    rw [Function.comp_apply, respPayload_dataWord, h.recordOfLayout_eq hr, id]
  simp only [State.answered_node] at hreads
  simp only [readOut, issue_rdReg, respPayload_dataWord, State.answered_csr, hstatus, ne_eq,
    not_true_eq_false, if_false, State.answered_answered, hcount, hreads, hroot, hrecords]
  rfl

/-- Settles O55: `State.Inv.readOut_eq`. -/
theorem readOutGivesTree : Obligations.ReadOutGivesTree :=
  fun s h hp => ⟨readOutAnswers s, h.readOut_eq hp, by simp [readOutAnswers]⟩

/-! ### Presenting a map within bounds (R173) -/

/-- The state once a `PUSH_LEAF` of a new symbol has answered. -/
def State.pushed (sym : Symbol) (f : Nat) (s : State) : State := (s.insertLeaf sym f).answered [okWord]

theorem State.pushed_cfg (sym : Symbol) (f : Nat) (s : State) : (s.pushed sym f).cfg = s.cfg := rfl
theorem State.pushed_nLeaves (sym : Symbol) (f : Nat) (s : State) : (s.pushed sym f).nLeaves = s.nLeaves + 1 := rfl
theorem State.pushed_leafSymbols (sym : Symbol) (f : Nat) (s : State) :
    leafSymbols (s.pushed sym f).node = leafSymbols s.node ++ [sym] :=
  leafSymbols_append _ _

/-- A well-formed `PUSH_LEAF` of a new symbol, with room left, is answered `OK`. -/
theorem issue_pushLeaf_of_new {sym : Symbol} {freq : BitVec 32} {s : State} (hp : s.phase = .collect)
    (hwf : (Instr.pushLeaf sym freq).WellFormed s.cfg = true) (hnew : sym ∉ leafSymbols s.node)
    (hroom : s.nLeaves ≠ s.cfg.maxLeaves) :
    issue (.pushLeaf sym freq) s = .ok (okWord, s.pushed sym freq.toNat) := by
  have hd : decode s.cfg (encode (.pushLeaf sym freq)) = .ok (.pushLeaf sym freq) := by rw [decode_encode, if_pos hwf]
  have hexec := execPushLeaf_of_new freq hp (hasSymbol_eq_false.mpr hnew) hroom
  exact issue_ok (command_of_exec (t := (s.insertLeaf sym freq.toNat).respond okWord) hd hexec rfl) rfl failureOf_okWord

/-- The commands that present a map whose counts fit. -/
def pushes (order text : List Symbol) : List Instr :=
  order.map fun a => .pushLeaf a (BitVec.ofNat 32 (text.count a))

/-- New symbols with counts that fit, for which there is room, are all pushed. -/
theorem issueAll_pushes_of_new {order text : List Symbol} {s : State} (hp : s.phase = .collect)
    (hwf : ∀ i ∈ pushes order text, i.WellFormed s.cfg = true) (hnew : (leafSymbols s.node ++ order).Nodup)
    (hroom : s.nLeaves + order.length ≤ s.cfg.maxLeaves) :
    ∃ rs t, issueAll (pushes order text) s = .ok (rs, t) ∧ t.cfg = s.cfg ∧
      leafSymbols t.node = leafSymbols s.node ++ order ∧ t.nLeaves = s.nLeaves + order.length := by
  induction order generalizing s with
  | nil => exact ⟨[], s, rfl, rfl, by simp, rfl⟩
  | cons a order ih =>
    obtain ⟨hfirst, hrest⟩ := List.forall_mem_cons.mp hwf
    rw [List.length_cons] at hroom ⊢
    have hfresh : a ∉ leafSymbols s.node := fun ha =>
      List.disjoint_of_nodup_append hnew ha List.mem_cons_self
    have hissue := issue_pushLeaf_of_new hp hfirst hfresh (by omega)
    obtain ⟨rs, t, hissued, hcfg, hleaves, hcount⟩ :=
      ih (s := s.pushed a (BitVec.ofNat 32 (text.count a)).toNat) hp hrest
        (by rwa [State.pushed_leafSymbols, List.append_assoc])
        (by rw [State.pushed_nLeaves, State.pushed_cfg]; omega)
    rw [State.pushed_leafSymbols, List.append_assoc] at hleaves
    rw [State.pushed_nLeaves] at hcount
    refine ⟨okWord :: rs, t, ?_, hcfg, hleaves, by omega⟩
    rw [pushes] at hissued
    simp only [pushes, List.map_cons, issueAll, hissue, hissued]

/-! ### `BUILD` of leaves whose sum fits (R121) -/

theorem leafSymbols_of_internals {m : Memory} (h : ∀ r ∈ m, r.isLeaf = false) : leafSymbols m = [] := by
  refine List.filterMap_eq_nil_iff.mpr fun r hr => ?_
  cases r with
  | leaf sym f => exact absurd (h _ hr) (by simp [NodeRec.isLeaf])
  | internal f left right => rfl

/-- A `BUILD` of leaves whose sum fits is answered `OK`, and leaves a finished tree of the same leaves. -/
theorem issue_build_of_fits {s : State} (h : s.Inv) (hp : s.phase = .collect) (hL : 1 ≤ s.nLeaves)
    (hfit : leafSum s.node < s.cfg.freqLimit) :
    ∃ t, issue .build s = .ok (okWord, t) ∧ t.Inv ∧ t.phase = .built ∧ t.cfg = s.cfg ∧
      leafSymbols t.node = leafSymbols s.node := by
  obtain ⟨m, hbuilt, _, _, hinternal, _, hkept⟩ := buildCompletes s h hp hL (.inr hfit)
  have hissue := issue_ok (command_of_exec (decode_encode s.cfg .build) hbuilt rfl) rfl failureOf_okWord
  refine ⟨_, hissue, hkept.answered [okWord], rfl, rfl, ?_⟩
  show leafSymbols (s.node ++ m) = _
  rw [leafSymbols, List.filterMap_append, ← leafSymbols, ← leafSymbols, leafSymbols_of_internals hinternal,
    List.append_nil]

/-! ### The round trip (R181) -/

/-- A text of symbols that a code table lists has a code. -/
theorem exists_codeText {t : CodeTable} {text : List Symbol} (h : ∀ a ∈ text, a ∈ t.map Prod.fst) :
    ∃ bits, codeText t text = some bits := by
  induction text with
  | nil => exact ⟨[], rfl⟩
  | cons a text ih =>
    obtain ⟨hlisted, hrest⟩ := List.forall_mem_cons.mp h
    obtain ⟨cs, hcs⟩ := ih hrest
    obtain ⟨c, hc⟩ : ∃ c, codeOf t a = some c := by
      rw [← Option.ne_none_iff_exists', Ne, codeOf, List.lookup_eq_none_iff]
      obtain ⟨e, he, rfl⟩ := List.mem_map.mp hlisted
      exact fun hnone => by simpa using hnone e he
    exact ⟨c ++ cs, codeText_cons_eq_some.mpr ⟨c, cs, hc, hcs, rfl⟩⟩

/-- The text's map, presented in any order, is well-formed commands that the block has room for (R173, R181). -/
theorem pushes_of_withinBounds {c : Config} {order text : List Symbol} (hc : c.Legal) (hb : WithinBounds c text)
    (horder : order.Perm (firstOccurrences text)) :
    pushInOrder c order text = some (pushes order text) ∧ (∀ i ∈ pushes order text, i.WellFormed c = true) ∧
      order.Nodup ∧ order.length ≤ c.maxLeaves := by
  obtain ⟨hsymbols, hleaves, hlength⟩ := hb
  obtain ⟨_, ⟨_, hwidth⟩, _⟩ := hc
  have hlimit : c.freqLimit ≤ 2 ^ 32 := Nat.pow_le_pow_right (by decide) hwidth
  have hcount (a : Symbol) : text.count a < c.freqLimit := Nat.lt_of_le_of_lt List.count_le_length hlength
  refine ⟨?_, fun i hi => ?_, horder.nodup_iff.mpr (firstOccurrences_nodup text), horder.length_eq ▸ hleaves⟩
  · rw [pushInOrder_eq, if_pos fun a _ => hcount a, pushes]
  · obtain ⟨a, ha, rfl⟩ := List.mem_map.mp hi
    have hsym := hsymbols a ((mem_firstOccurrences text a).mp (horder.mem_iff.mp ha))
    have hfreq : (BitVec.ofNat 32 (text.count a)).toNat < c.freqLimit := by
      rw [toNat_ofNat_of_lt (Nat.lt_of_lt_of_le (hcount a) hlimit)]
      exact hcount a
    exact Bool.and_eq_true_iff.mpr ⟨decide_eq_true hsym, decide_eq_true hfreq⟩

/-- The encode of a non-empty text within bounds builds a tree whose leaves are the text's symbols. -/
theorem issueAll_encode_of_withinBounds {s : State} {order text : List Symbol} (hc : s.cfg.Legal) (hne : text ≠ [])
    (hb : WithinBounds s.cfg text) (horder : order.Perm (firstOccurrences text)) :
    ∃ rs t, issueAll (.clear :: (pushes order text ++ [.build])) s = .ok (rs, t) ∧ t.Inv ∧ t.phase = .built ∧
      t.cfg = s.cfg ∧ leafSymbols t.node = order := by
  obtain ⟨hpush, hwf, hnodup, hroom⟩ := pushes_of_withinBounds hc hb horder
  obtain ⟨_, _, hlength⟩ := hb
  obtain ⟨rs, u, hissued, hcfg, hleaves, hcount⟩ := issueAll_pushes_of_new (s := s.cleared) rfl hwf hnodup
    (by rwa [show s.cleared.nLeaves = 0 from rfl, Nat.zero_add])
  obtain ⟨hinv, hphase, hsum⟩ := issueAll_pushes (State.cleared_inv hc) rfl hc hpush hissued
  have htotal : leafSum u.node = text.length := by
    rw [hsum, sum_counts horder]
    exact Nat.zero_add _
  have hsome : 1 ≤ u.nLeaves := by
    obtain ⟨a, ha⟩ := List.exists_mem_of_ne_nil text hne
    have := List.length_pos_of_mem (horder.mem_iff.mpr ((mem_firstOccurrences text a).mpr ha))
    omega
  obtain ⟨t, hbuild, hbuilt, hp, hcfg', hkept⟩ := issue_build_of_fits hinv hphase hsome
    (by rw [htotal, hcfg]; exact hlength)
  refine ⟨okWord :: (rs ++ [okWord]), t, ?_, hbuilt, hp, hcfg'.trans hcfg, hkept.trans hleaves⟩
  simp only [issueAll, issue_clear, issueAll_append, hissued, hbuild]

/-- Settles O60: the tree left in the block has a leaf for each symbol of the text, so the text has codes, and they
decode to it (O37). -/
theorem roundTrip : Obligations.RoundTrip := by
  intro s order text hc hne hb horder
  obtain ⟨rs, t, hissued, hinv, hp, hcfg, hleaves⟩ := issueAll_encode_of_withinBounds hc hne hb horder
  obtain ⟨hpush, _⟩ := pushes_of_withinBounds hc hb horder
  have hlisted : ∀ a ∈ text, a ∈ (buildCodes t.node t.root).map Prod.fst := fun a ha => by
    rw [(hinv.buildCodes_symbols (hinv.root_valid (.inl hp))).mem_iff, hleaves, horder.mem_iff]
    exact (mem_firstOccurrences text a).mpr ha
  obtain ⟨bits, hbits⟩ := exists_codeText hlisted
  refine ⟨bits, t.answered (readOutAnswers t), ?_, fun hlimit => ?_⟩
  · simp only [encodeInOrder, hpush, hissued, hinv.readOut_eq hp, hbits]
  · obtain ⟨u, hdecoded, _⟩ := codesDecodeToText (t.answered (readOutAnswers t)) text bits (hinv.answered _) hp rfl
      hbits (by rwa [← hcfg] at hlimit)
    exact ⟨u, hdecoded⟩

end Sys2Proof.Machine
end

section
/-! The statement of 40_builder_commands.md that the tree `BUILD` makes has the least weighted path length. Its heart is
`CodeTree.exists_merged`: any tree of at least two leaves can be turned, at no greater cost, into one in which the two
least leaves are siblings, and then into one in which they are one leaf. So each merge step is a step of the least cost
(`Merges.tree_optimal`). -/

namespace Sys2Proof.Machine

/-! ### Trees as the frequencies and depths of their leaves -/

/-- The frequency and depth of each leaf, the tree itself being at the given depth. -/
def CodeTree.labels : CodeTree → Nat → Multiset (Nat × Nat)
  | .leaf freq, depth => {(freq, depth)}
  | .node left right, depth => left.labels (depth + 1) + right.labels (depth + 1)

/-- The sum of frequency times depth. -/
def pathCost (labels : Multiset (Nat × Nat)) : Nat := (labels.map fun q => q.1 * q.2).sum

@[simp] theorem pathCost_cons (q : Nat × Nat) (labels : Multiset (Nat × Nat)) :
    pathCost (q ::ₘ labels) = q.1 * q.2 + pathCost labels := by
  simp [pathCost]

/-- The weight of a tree: the sum of its leaves' frequencies, which is the frequency of its root (R125). -/
def CodeTree.weight (t : CodeTree) : Nat := t.leaves.sum

theorem CodeTree.labels_freqs (t : CodeTree) (depth : Nat) : (t.labels depth).map Prod.fst = t.leaves := by
  induction t generalizing depth with
  | leaf freq => simp [CodeTree.labels, CodeTree.leaves]
  | node left right ihl ihr => simp [CodeTree.labels, CodeTree.leaves, ihl, ihr]

theorem CodeTree.weightedLength_eq (t : CodeTree) (depth : Nat) : t.weightedLength depth = pathCost (t.labels depth) := by
  induction t generalizing depth with
  | leaf freq => simp [CodeTree.labels, CodeTree.weightedLength, pathCost]
  | node left right ihl ihr => simp [CodeTree.labels, CodeTree.weightedLength, ihl, ihr, pathCost]

/-- One level further down a tree costs its weight more. -/
theorem CodeTree.weightedLength_succ (t : CodeTree) (depth : Nat) :
    t.weightedLength (depth + 1) = t.weightedLength depth + t.weight := by
  induction t generalizing depth with
  | leaf freq => simp [CodeTree.weightedLength, CodeTree.weight, CodeTree.leaves, Nat.mul_succ]
  | node left right ihl ihr =>
    simp only [CodeTree.weightedLength, ihl (depth + 1), ihr (depth + 1), CodeTree.weight, CodeTree.leaves,
      List.sum_append]
    omega

theorem CodeTree.weight_node (left right : CodeTree) :
    (CodeTree.node left right).weight = left.weight + right.weight := List.sum_append

theorem CodeTree.weightedLength_node (left right : CodeTree) :
    (CodeTree.node left right).weightedLength 0 =
      left.weightedLength 0 + right.weightedLength 0 + (left.weight + right.weight) := by
  simp only [CodeTree.weightedLength, CodeTree.weightedLength_succ]
  omega

/-! ### A deepest pair of leaves -/

/-- The greatest depth of a leaf below the tree. -/
def CodeTree.height : CodeTree → Nat
  | .leaf _ => 0
  | .node left right => max left.height right.height + 1

theorem CodeTree.depth_le {t : CodeTree} {depth : Nat} {q : Nat × Nat} (h : q ∈ t.labels depth) :
    q.2 ≤ depth + t.height := by
  induction t generalizing depth with
  | leaf freq =>
    obtain rfl := Multiset.mem_singleton.mp h
    exact Nat.le_add_right _ _
  | node left right ihl ihr =>
    rw [CodeTree.height]
    rcases Multiset.mem_add.mp h with h | h
    · have := ihl h
      omega
    · have := ihr h
      omega

/-- Two leaves, of the frequencies `x` and `y`, are siblings one level below `depth'`, the other leaves being `others`:
a leaf of any frequency can stand in their place, one level up. -/
structure CodeTree.Siblings (t : CodeTree) (depth depth' x y : Nat) (others : Multiset (Nat × Nat)) : Prop where
  labels : t.labels depth = (x, depth' + 1) ::ₘ (y, depth' + 1) ::ₘ others
  contract : ∀ z, ∃ t' : CodeTree, t'.labels depth = (z, depth') ::ₘ others

theorem CodeTree.Siblings.of_leaves (x y depth : Nat) :
    (CodeTree.node (.leaf x) (.leaf y)).Siblings depth depth x y 0 :=
  ⟨rfl, fun z => ⟨.leaf z, rfl⟩⟩

theorem CodeTree.Siblings.left {t : CodeTree} {depth depth' x y : Nat} {others : Multiset (Nat × Nat)}
    (h : t.Siblings (depth + 1) depth' x y others) (right : CodeTree) :
    (CodeTree.node t right).Siblings depth depth' x y (others + right.labels (depth + 1)) := by
  refine ⟨by simp [CodeTree.labels, h.labels], fun z => ?_⟩
  obtain ⟨t', ht'⟩ := h.contract z
  exact ⟨.node t' right, by simp [CodeTree.labels, ht']⟩

theorem CodeTree.Siblings.right {t : CodeTree} {depth depth' x y : Nat} {others : Multiset (Nat × Nat)}
    (h : t.Siblings (depth + 1) depth' x y others) (left : CodeTree) :
    (CodeTree.node left t).Siblings depth depth' x y (left.labels (depth + 1) + others) := by
  refine ⟨by simp [CodeTree.labels, h.labels], fun z => ?_⟩
  obtain ⟨t', ht'⟩ := h.contract z
  exact ⟨.node left t', by simp [CodeTree.labels, ht']⟩

/-- At the greatest depth of a tree that is no leaf there are two siblings: below the deeper of its two subtrees, or these
are leaves themselves. -/
theorem CodeTree.exists_deepest_siblings {t : CodeTree} {n : Nat} (h : t.height = n + 1) (depth : Nat) :
    ∃ x y others, t.Siblings depth (depth + n) x y others := by
  induction t generalizing n depth with
  | leaf freq => cases h
  | node left right ihl ihr =>
    have hn : max left.height right.height = n := Nat.succ.inj h
    cases n with
    | zero =>
      cases left with
      | node a b => simp [CodeTree.height] at hn
      | leaf x =>
        cases right with
        | node a b => simp [CodeTree.height] at hn
        | leaf y => exact ⟨x, y, 0, .of_leaves x y depth⟩
    | succ n =>
      rw [← Nat.succ_add_eq_add_succ]
      rcases max_choice left.height right.height with hmax | hmax
      · obtain ⟨x, y, others, hpair⟩ := ihl (hmax.symm.trans hn) (depth + 1)
        exact ⟨x, y, _, hpair.left right⟩
      · obtain ⟨x, y, others, hpair⟩ := ihr (hmax.symm.trans hn) (depth + 1)
        exact ⟨x, y, _, hpair.right left⟩

/-! ### Exchanging leaves -/

/-- A leaf can be given another frequency. -/
theorem CodeTree.relabel {t : CodeTree} {depth : Nat} {q : Nat × Nat} {others : Multiset (Nat × Nat)}
    (h : t.labels depth = q ::ₘ others) (freq : Nat) : ∃ t' : CodeTree, t'.labels depth = (freq, q.2) ::ₘ others := by
  induction t generalizing depth others with
  | leaf f =>
    obtain ⟨rfl, rfl⟩ := Multiset.singleton_eq_cons_iff _ |>.mp h
    exact ⟨.leaf freq, rfl⟩
  | node left right ihl ihr =>
    have hq : q ∈ left.labels (depth + 1) + right.labels (depth + 1) := by
      rw [← CodeTree.labels, h]
      exact Multiset.mem_cons_self q others
    rcases Multiset.mem_add.mp hq with hq | hq
    · obtain ⟨rest, hrest⟩ := Multiset.exists_cons_of_mem hq
      obtain ⟨t', ht'⟩ := ihl hrest
      refine ⟨.node t' right, ?_⟩
      rw [CodeTree.labels, hrest, Multiset.cons_add, Multiset.cons_inj_right] at h
      rw [CodeTree.labels, ht', Multiset.cons_add, h]
    · obtain ⟨rest, hrest⟩ := Multiset.exists_cons_of_mem hq
      obtain ⟨t', ht'⟩ := ihr hrest
      refine ⟨.node left t', ?_⟩
      rw [CodeTree.labels, hrest, Multiset.add_cons, Multiset.cons_inj_right] at h
      rw [CodeTree.labels, ht', Multiset.add_cons, h]

/-- Of the leaves `others`, none deeper than `depth`, and a leaf `x` at `depth` the least frequency `a` can be brought to
the place of `x`, at no greater cost; the leaf `z` of the tree is not touched. -/
theorem CodeTree.exchange {t : CodeTree} {z : Nat × Nat} {others : Multiset (Nat × Nat)}
    (ht : t.labels 0 = z ::ₘ others) {depth : Nat} (hdepth : ∀ q ∈ others, q.2 ≤ depth) {x a : Nat} (hle : a ≤ x)
    {rest : Multiset Nat} (hfreqs : x ::ₘ others.map Prod.fst = a ::ₘ rest) :
    ∃ (t' : CodeTree) (others' : Multiset (Nat × Nat)), t'.labels 0 = z ::ₘ others' ∧
      (∀ q ∈ others', q.2 ≤ depth) ∧ others'.map Prod.fst = rest ∧
      a * depth + pathCost others' ≤ x * depth + pathCost others := by
  by_cases hx : x = a
  · subst hx
    exact ⟨t, others, ht, hdepth, (Multiset.cons_inj_right x).mp hfreqs, le_rfl⟩
  · have ha : a ∈ others.map Prod.fst := by
      have : a ∈ x ::ₘ others.map Prod.fst := hfreqs ▸ Multiset.mem_cons_self a rest
      exact (Multiset.mem_cons.mp this).resolve_left (Ne.symm hx)
    obtain ⟨⟨a, d⟩, hq, rfl⟩ := Multiset.mem_map.mp ha
    obtain ⟨others, rfl⟩ := Multiset.exists_cons_of_mem hq
    obtain ⟨hd, hrest⟩ := Multiset.forall_mem_cons.mp hdepth
    rw [Multiset.cons_swap] at ht
    obtain ⟨t', ht'⟩ := CodeTree.relabel ht x
    refine ⟨t', (x, d) ::ₘ others, by rw [ht', Multiset.cons_swap], Multiset.forall_mem_cons.mpr ⟨hd, hrest⟩, ?_, ?_⟩
    · rw [Multiset.map_cons, Multiset.cons_swap, Multiset.cons_inj_right] at hfreqs
      rw [Multiset.map_cons, hfreqs]
    · have hswap : a * depth + x * d ≤ a * d + x * depth := mul_add_mul_le_mul_add_mul hle hd
      simp only [pathCost_cons]
      omega

/-- The two least frequencies `a` and `b` can be brought to the places of two leaves at the greatest depth. -/
theorem CodeTree.exchange_two {t : CodeTree} {z : Nat × Nat} {others : Multiset (Nat × Nat)}
    (ht : t.labels 0 = z ::ₘ others) {depth : Nat} (hdepth : ∀ q ∈ others, q.2 ≤ depth) {x y a b : Nat}
    {rest : Multiset Nat} (hfreqs : x ::ₘ y ::ₘ others.map Prod.fst = a ::ₘ b ::ₘ rest) (hab : a ≤ b)
    (hleast : ∀ f ∈ rest, b ≤ f) :
    ∃ (t' : CodeTree) (others' : Multiset (Nat × Nat)), t'.labels 0 = z ::ₘ others' ∧ others'.map Prod.fst = rest ∧
      (a + b) * depth + pathCost others' ≤ (x + y) * depth + pathCost others := by
  have hb : ∀ f ∈ b ::ₘ rest, b ≤ f := Multiset.forall_mem_cons.mpr ⟨le_rfl, hleast⟩
  by_cases hy : y = a
  · subst hy
    rw [Multiset.cons_swap, Multiset.cons_inj_right] at hfreqs
    obtain ⟨t', others', ht', _, hfreqs', hcost⟩ :=
      CodeTree.exchange ht hdepth (hb x (hfreqs ▸ Multiset.mem_cons_self _ _)) hfreqs
    refine ⟨t', others', ht', hfreqs', ?_⟩
    rw [Nat.add_mul, Nat.add_mul]
    omega
  · have hmem : y ∈ b ::ₘ rest := by
      have : y ∈ a ::ₘ b ::ₘ rest := hfreqs ▸ Multiset.mem_cons_of_mem (Multiset.mem_cons_self _ _)
      exact (Multiset.mem_cons.mp this).resolve_left hy
    obtain ⟨rest', hrest'⟩ := Multiset.exists_cons_of_mem hmem
    have hx : a ≤ x := by
      have : x ∈ a ::ₘ b ::ₘ rest := hfreqs ▸ Multiset.mem_cons_self _ _
      rcases Multiset.mem_cons.mp this with rfl | hx
      · exact le_rfl
      · exact hab.trans (hb x hx)
    rw [hrest', Multiset.cons_swap, Multiset.cons_swap a, Multiset.cons_inj_right] at hfreqs
    obtain ⟨t1, others1, ht1, hdepth1, hfreqs1, hcost1⟩ := CodeTree.exchange ht hdepth hx hfreqs
    obtain ⟨t2, others2, ht2, _, hfreqs2, hcost2⟩ :=
      CodeTree.exchange ht1 hdepth1 (hb y hmem) (hfreqs1 ▸ hrest'.symm)
    refine ⟨t2, others2, ht2, hfreqs2, ?_⟩
    rw [Nat.add_mul, Nat.add_mul]
    omega

/-- A tree whose two least leaves are `a` and `b` gives a tree in which one leaf of both their frequencies stands in their
place, and which costs their sum less. -/
theorem CodeTree.exists_merged {t : CodeTree} {a b : Nat} {rest : Multiset Nat}
    (hleaves : (t.leaves : Multiset Nat) = a ::ₘ b ::ₘ rest) (hab : a ≤ b) (hleast : ∀ f ∈ rest, b ≤ f) :
    ∃ t' : CodeTree, (t'.leaves : Multiset Nat) = (a + b) ::ₘ rest ∧
      t'.weightedLength 0 + (a + b) ≤ t.weightedLength 0 := by
  obtain ⟨n, hn⟩ : ∃ n, t.height = n + 1 := by
    cases t with
    | leaf f => simpa [CodeTree.leaves] using congrArg Multiset.card hleaves
    | node left right => exact ⟨_, rfl⟩
  obtain ⟨x, y, others, hpair⟩ := CodeTree.exists_deepest_siblings hn 0
  rw [Nat.zero_add] at hpair
  have hdepth : ∀ q ∈ others, q.2 ≤ n + 1 := fun q hq => by
    have := CodeTree.depth_le (t := t) (depth := 0) (q := q)
      (hpair.labels ▸ Multiset.mem_cons_of_mem (Multiset.mem_cons_of_mem hq))
    omega
  have hfreqs : x ::ₘ y ::ₘ others.map Prod.fst = a ::ₘ b ::ₘ rest := by
    rw [← hleaves, ← t.labels_freqs 0, hpair.labels, Multiset.map_cons, Multiset.map_cons]
  obtain ⟨t1, ht1⟩ := hpair.contract (a + b)
  obtain ⟨t', others', ht', hrest, hcost⟩ := CodeTree.exchange_two ht1 hdepth hfreqs hab hleast
  refine ⟨t', ?_, ?_⟩
  · rw [← t'.labels_freqs 0, ht', Multiset.map_cons, hrest]
  · rw [CodeTree.weightedLength_eq, CodeTree.weightedLength_eq, ht', hpair.labels]
    simp only [pathCost_cons, Nat.mul_succ, Nat.add_mul] at hcost ⊢
    omega

/-! ### The tree below a record -/

/-- The tree below a record depends neither on fuel above the index nor on records written later. -/
theorem treeFrom_congr {m : Memory} (h : ChildrenBelow m) (x : Memory) {n k i : Nat} (hi : i < m.length) (hn : i < n)
    (hk : i < k) : treeFrom (m ++ x) n i = treeFrom m k i := by
  induction n generalizing k i with
  | zero => omega
  | succ n ih =>
    obtain ⟨k, rfl⟩ := Nat.exists_eq_add_of_lt hk
    rw [treeFrom, treeFrom, List.getElem?_append_left hi]
    cases hrec : m[i]? with
    | none => rfl
    | some r =>
      cases r with
      | leaf sym f => rfl
      | internal f a b =>
        have ha : a < i := h i _ hrec a (by simp [NodeRec.children])
        have hb : b < i := h i _ hrec b (by simp [NodeRec.children])
        simp only []
        rw [ih (by omega) (by omega) (show a < i + k by omega), ih (by omega) (by omega) (show b < i + k by omega)]

/-- The record at an index is the root of a tree. -/
def TreeAt (m : Memory) (i : Nat) (t : CodeTree) : Prop := treeFrom m m.length i = some t

theorem TreeAt.of_leaf {m : Memory} {i f : Nat} {sym : Symbol} (h : m[i]? = some (.leaf sym f)) :
    TreeAt m i (.leaf f) := by
  obtain ⟨n, hn⟩ := Nat.exists_eq_add_of_lt (List.getElem?_eq_some_iff.mp h).1
  rw [TreeAt, hn, treeFrom, h]

theorem TreeAt.append {m : Memory} (h : ChildrenBelow m) {i : Nat} {t : CodeTree} (hi : i < m.length)
    (ht : TreeAt m i t) (r : NodeRec) : TreeAt (m ++ [r]) i t := by
  rw [TreeAt, treeFrom_congr h [r] hi (by simp; omega) hi]
  exact ht

/-- An Internal record written over two trees has them as its subtrees. -/
theorem TreeAt.internal {m : Memory} (h : ChildrenBelow m) {i j f : Nat} {a b : CodeTree} (hi : i < m.length)
    (hj : j < m.length) (ha : TreeAt m i a) (hb : TreeAt m j b) :
    TreeAt (m ++ [.internal f i j]) m.length (.node a b) := by
  have hrec : (m ++ [.internal f i j])[m.length]? = some (.internal f i j) := by simp
  rw [TreeAt, List.length_append, List.length_singleton, treeFrom, hrec]
  simp only [treeFrom_congr h [.internal f i j] hi hi hi, treeFrom_congr h [.internal f i j] hj hj hj]
  rw [ha, hb]

/-! ### The merge steps -/

/-- A merge step that merges, by the members taken and the others: those taken are the two least, and their record is a
new root (R117). -/
theorem mergeStep_least {s t : State} (hf : s.ForestInv) (hm : mergeStep s = .ok (.merged t)) :
    ∃ (i j a b : Nat) (rest : List Nat), s.pq.Perm (i :: j :: rest) ∧ s.node[i]?.map NodeRec.freq = some a ∧
      s.node[j]?.map NodeRec.freq = some b ∧ a ≤ b ∧
      (∀ k ∈ rest, ∀ f, s.node[k]?.map NodeRec.freq = some f → b ≤ f) ∧
      t.node = s.node ++ [.internal (a + b) i j] ∧ t.pq = rest ++ [s.node.length] := by
  have hlt := hf.pq_lt
  have ⟨_, hwf, _⟩ := hf
  have htwo : 2 ≤ s.pq.length := by
    by_contra hfew
    have hend := mergeStep_of_few hlt (by omega)
    simp [hm] at hend
  obtain ⟨i, j, x, y, hi, hj, hx, hy, hxy, hleast, hfit, hover⟩ := mergeStepMergesTwoLeast s hwf hlt htwo
  have hji : j ≠ i := by
    rintro rfl
    obtain rfl : x = y := Option.some.inj (hx.symm.trans hy)
    omega
  have hlimit : x.freq + y.freq < 2 ^ s.cfg.freqW := by
    by_contra hge
    have hoverflow := hover (Nat.le_of_not_lt hge)
    simp [hm] at hoverflow
  cases hm.symm.trans (hfit hlimit)
  refine ⟨i, j, x.freq, y.freq, (s.pq.erase i).erase j,
    perm_cons_cons_erase_erase hi ((pqWf_nodup hwf).mem_erase_iff.mpr ⟨hji, hj⟩), by rw [hx]; rfl, by rw [hy]; rfl,
    by omega, fun k hk f hkf => ?_, rfl, by rw [pqWf_erase_erase_eq hwf]⟩
  obtain ⟨z, hz, rfl⟩ := Option.map_eq_some_iff.mp hkf
  have hnodup := pqWf_nodup hwf
  obtain ⟨hkj, hk⟩ := (hnodup.erase i).mem_erase_iff.mp hk
  obtain ⟨hki, hk⟩ := hnodup.mem_erase_iff.mp hk
  have := hleast k hk hki hkj z hz
  omega

/-- The members of `pq` are the roots of trees of their frequencies. -/
def State.Trees (s : State) (tree : Nat → CodeTree) : Prop :=
  ∀ i ∈ s.pq, TreeAt s.node i (tree i) ∧ s.node[i]?.map NodeRec.freq = some (tree i).weight

/-- The trees of the members of `pq`. -/
def State.trees (s : State) (tree : Nat → CodeTree) : List CodeTree := s.pq.map tree

/-- A merge step puts one tree in the place of the two of least weight, which become its subtrees. -/
theorem mergeStep_trees {s t : State} (hf : s.ForestInv) (hm : mergeStep s = .ok (.merged t)) {tree : Nat → CodeTree}
    (ht : s.Trees tree) :
    ∃ (tree' : Nat → CodeTree) (a b : CodeTree) (rest : List CodeTree), t.Trees tree' ∧
      (s.trees tree).Perm (a :: b :: rest) ∧ t.trees tree' = rest ++ [.node a b] ∧ a.weight ≤ b.weight ∧
      ∀ c ∈ rest, b.weight ≤ c.weight := by
  have hlt := hf.pq_lt
  have ⟨hmemory, _⟩ := hf
  have hbelow := Memory.wf_childrenBelow hmemory
  obtain ⟨i, j, a, b, rest, hperm, hi, hj, hab, hleast, hnode, hpq⟩ := mergeStep_least hf hm
  have hmem (k : Nat) (hk : k ∈ i :: j :: rest) : k ∈ s.pq := hperm.mem_iff.mpr hk
  obtain ⟨hti, hwi⟩ := ht i (hmem i (by simp))
  obtain ⟨htj, hwj⟩ := ht j (hmem j (by simp))
  obtain rfl : a = _ := Option.some.inj (hi.symm.trans hwi)
  obtain rfl : b = _ := Option.some.inj (hj.symm.trans hwj)
  have hold (k : Nat) (hk : k ∈ rest) : k < s.node.length := hlt k (hmem k (by simp [hk]))
  have hupdate (k : Nat) (hk : k ∈ rest) :
      Function.update tree s.node.length (.node (tree i) (tree j)) k = tree k :=
    Function.update_of_ne (Nat.ne_of_lt (hold k hk)) _ _
  refine ⟨Function.update tree s.node.length (.node (tree i) (tree j)), tree i, tree j, rest.map tree, ?_,
    hperm.map tree, ?_, hab, ?_⟩
  · intro k hk
    rw [hpq, List.mem_append, List.mem_singleton] at hk
    rw [hnode]
    rcases hk with hk | rfl
    · obtain ⟨htk, hwk⟩ := ht k (hmem k (by simp [hk]))
      rw [hupdate k hk]
      exact ⟨htk.append hbelow (hold k hk) _, by rw [List.getElem?_append_left (hold k hk), hwk]⟩
    · rw [Function.update_self]
      exact ⟨.internal hbelow (hlt i (hmem i (by simp))) (hlt j (hmem j (by simp))) hti htj,
        by simp [NodeRec.freq, CodeTree.weight_node]⟩
  · rw [State.trees, hpq, List.map_append, List.map_congr_left hupdate, List.map_singleton, Function.update_self]
  · intro c hc
    obtain ⟨k, hk, rfl⟩ := List.mem_map.mp hc
    obtain ⟨_, hwk⟩ := ht k (hmem k (by simp [hk]))
    exact hleast k hk _ hwk

/-- The cost of trees, each at depth 0. -/
def forestCost (ts : List CodeTree) : Nat := (ts.map fun t => t.weightedLength 0).sum

/-- Merge steps down to one root make a tree of the leaves of all trees, and no tree over the trees' weights costs less
than what the steps add: the first step's merge is one in some tree of no greater cost (`CodeTree.exists_merged`). -/
theorem Merges.tree_optimal {k r : Nat} {s u : State} (h : Merges k s u) (hf : s.ForestInv) (hv : s.rootValid = false)
    (hone : u.pq = [r]) {tree : Nat → CodeTree} (ht : s.Trees tree) :
    ∃ result, TreeAt u.node r result ∧ result.leaves.Perm ((s.trees tree).flatMap CodeTree.leaves) ∧
      ∀ other : CodeTree, other.leaves.Perm ((s.trees tree).map CodeTree.weight) →
        result.weightedLength 0 ≤ other.weightedLength 0 + forestCost (s.trees tree) := by
  induction h generalizing tree with
  | refl s =>
    obtain ⟨htree, _⟩ := ht r (by simp [hone])
    refine ⟨tree r, htree, by simp [State.trees, hone], fun other _ => ?_⟩
    simp [State.trees, hone, forestCost]
  | @step k s t u hm _ ih =>
    obtain ⟨tree', a, b, rest, ht', hperm, htrees, hab, hleast⟩ := mergeStep_trees hf hm ht
    obtain ⟨result, hresult, hleaves, hoptimal⟩ :=
      ih (mergeStep_keeps_forest hf hv hm) ((mergeStep_rootValid hm).trans hv) hone ht'
    rw [htrees] at hleaves hoptimal
    refine ⟨result, hresult, ?_, fun other hother => ?_⟩
    · refine hleaves.trans (List.Perm.trans ?_ (hperm.flatMap_right _).symm)
      simpa [CodeTree.leaves] using
        List.perm_append_comm (l₁ := rest.flatMap CodeTree.leaves) (l₂ := a.leaves ++ b.leaves)
    · have hweights : (other.leaves : Multiset Nat) = a.weight ::ₘ b.weight ::ₘ (rest.map CodeTree.weight : List Nat) :=
        Multiset.coe_eq_coe.mpr (hother.trans (hperm.map _))
      obtain ⟨merged, hmerged, hcost⟩ := CodeTree.exists_merged hweights hab (by simpa using hleast)
      have hless := hoptimal merged (by
        rw [← Multiset.coe_eq_coe, hmerged, List.map_append, List.map_singleton, CodeTree.weight_node]
        exact Multiset.coe_eq_coe.mpr (List.perm_append_singleton _ _).symm)
      have hforest : forestCost (s.trees tree) = a.weightedLength 0 + (b.weightedLength 0 + forestCost rest) :=
        (hperm.map _).sum_nat
      have hnew : forestCost (rest ++ [.node a b]) = forestCost rest + (CodeTree.node a b).weightedLength 0 := by
        simp [forestCost]
      rw [hnew, CodeTree.weightedLength_node] at hless
      omega

/-! ### `BUILD` (R127) -/

/-- The tree of a Leaf record. -/
def leafTree (m : Memory) (i : Nat) : CodeTree := .leaf ((m[i]?.map NodeRec.freq).getD 0)

/-- In `COLLECT` every member of `pq` is a leaf, a tree by itself. -/
theorem State.Inv.trees_leafTree {s : State} (h : s.Inv) (hp : s.phase = .collect) : s.Trees (leafTree s.node) := by
  intro i hi
  obtain ⟨_, _, hlen, _⟩ := h.collect hp
  obtain ⟨_, hf, _⟩ := h
  have hlt := hf.pq_lt i hi
  obtain ⟨_, _, _, hleaf, _⟩ := hf
  have hrec := List.getElem?_eq_getElem hlt
  cases hget : s.node[i] with
  | leaf sym f =>
    rw [hget] at hrec
    have htree : leafTree s.node i = .leaf f := by rw [leafTree, hrec]; rfl
    rw [htree, hrec]
    exact ⟨.of_leaf hrec, by simp [NodeRec.freq, CodeTree.weight, CodeTree.leaves]⟩
  | internal f left right =>
    have := (hleaf i hlt).mpr (by omega)
    simp [hget, NodeRec.isLeaf] at this

/-- The trees are then the leaves in index order. -/
theorem State.Inv.trees_eq {s : State} (h : s.Inv) (hp : s.phase = .collect) :
    s.trees (leafTree s.node) = s.node.map fun r => .leaf r.freq := by
  obtain ⟨_, _, hlen, _⟩ := h.collect hp
  rw [State.trees, h.pq_eq_range hp, ← hlen]
  refine List.ext_getElem (by simp) fun i h1 h2 => ?_
  have hlt : i < s.node.length := by simpa using h2
  simp [leafTree, List.getElem?_eq_getElem hlt]

/-- The tree that all merge steps make of the leaves in `COLLECT` is optimal. -/
theorem Merges.tree_optimal_of_collect {k r : Nat} {s u : State} (hm : Merges k s u) (h : s.Inv)
    (hp : s.phase = .collect) (hone : u.pq = [r]) :
    ∃ result, TreeAt u.node r result ∧ result.leaves.Perm (s.node.map NodeRec.freq) ∧
      ∀ other : CodeTree, other.leaves.Perm result.leaves → result.weightedLength 0 ≤ other.weightedLength 0 := by
  obtain ⟨hv, _⟩ := h.collect hp
  have ⟨_, hf, _⟩ := h
  obtain ⟨result, hresult, hleaves, hoptimal⟩ := hm.tree_optimal hf hv hone (h.trees_leafTree hp)
  rw [h.trees_eq hp] at hleaves hoptimal
  have hfreqs : (s.node.map fun r => CodeTree.leaf r.freq).flatMap CodeTree.leaves = s.node.map NodeRec.freq := by
    rw [List.flatMap_map]
    exact List.flatMap_pure_eq_map _ _
  have hweights : (s.node.map fun r => CodeTree.leaf r.freq).map CodeTree.weight = s.node.map NodeRec.freq := by
    rw [List.map_map]
    rfl
  have hfree : forestCost (s.node.map fun r => CodeTree.leaf r.freq) = 0 := by
    simp [forestCost, CodeTree.weightedLength, Function.comp_def]
  rw [hfreqs] at hleaves
  rw [hweights, hfree] at hoptimal
  exact ⟨result, hresult, hleaves, fun other hother => hoptimal other (hother.trans hleaves)⟩

/-- A `BUILD` that ends in `BUILT` has merged all leaves into the tree it publishes (R121). -/
theorem State.Inv.merges_of_built {s t : State} (h : s.Inv) (hp : s.phase = .collect) (hexec : exec .build s = .next t)
    (hbuilt : t.phase = .built) :
    ∃ u, Merges (s.nLeaves - 1) s u ∧ u.pq = [t.root] ∧ u.node = t.node := by
  obtain ⟨_, _, _, hpq, _⟩ := h.collect hp
  rcases Nat.eq_zero_or_pos s.nLeaves with hL | hL
  · cases hexec.symm.trans (execBuild_of_empty hp (List.length_eq_zero_iff.mp (hpq.trans hL)))
    cases hbuilt
  · by_cases hover : 2 ≤ s.nLeaves ∧ 2 ^ s.cfg.freqW ≤ leafSum s.node
    · obtain ⟨m, q, hfault, _⟩ := buildOverflowKeepsForest s h hp hover.1 hover.2
      cases hexec.symm.trans hfault
      cases hbuilt
    · have hfit : s.nLeaves = 1 ∨ leafSum s.node < 2 ^ s.cfg.freqW := by omega
      obtain ⟨m, hanswer, hloop, _⟩ := buildCompletes s h hp hL hfit
      obtain ⟨u, hu, _⟩ := h.merges_of_fits hp hL hfit
      cases hexec.symm.trans hanswer
      cases (hu.mergeLoop_add 0).symm.trans hloop
      exact ⟨_, hu, rfl, rfl⟩

/-- Settles O26: the tree published is the one that the merge steps made (`Merges.tree_optimal_of_collect`). -/
theorem buildMakesOptimalTree : Obligations.BuildMakesOptimalTree := by
  intro s t h hp hexec hbuilt
  obtain ⟨u, hmerges, hroot, hnode⟩ := h.merges_of_built hp hexec hbuilt
  rw [← hnode]
  exact hmerges.tree_optimal_of_collect h hp hroot

end Sys2Proof.Machine
end
